-- ==== Sys2Proof/Word.lean ====
section
/-! DEFINITION. The word types of WC-BQ: 32-bit words, bytes, binary32 patterns and 14-bit byte addresses. -/

namespace Sys2Proof

/-- One 32-bit word of the register interface (00_scope.md R8, R9). -/
abbrev Word := BitVec 32

/-- One byte of a word, as a host may view it (20_memory.md R67). -/
abbrev Byte := BitVec 8

/-- An IEEE 754 binary32 bit pattern, sign in bit 31 (00_scope.md R10, 20_memory.md R67). -/
abbrev F32 := BitVec 32

/-- A byte address of the 16 KiB address space, 0x0000 to 0x3FFF (20_memory.md R61). -/
abbrev Addr := BitVec 14

end Sys2Proof
end

