-- ==== Sys2Proof/Syntax.lean ====
section
/-! DEFINITION. The syntax of the command set: one constructor for each of the eleven rows of the opcode table. -/

namespace Sys2Proof

/-- The channel mask CH: bit 4 of a command word selects channel 0 (left), bit 5 channel 1 (right)
(30_encoding.md R91, R92). -/
structure ChMask where
  left  : Bool
  right : Bool
  deriving DecidableEq, Repr

/-- The eleven commands of command-set version 1 (30_encoding.md R94). A stage count `n` is the spec's N = NSEL + 1,
so 1..4 in a well-formed command. `len` is LEN, a block length in samples per channel. -/
inductive Instr where
  /-- NOP (42_control.md R171). -/
  | nop
  /-- PREPARE (42_control.md R172). -/
  | prepare
  /-- RELEASE (42_control.md R173). -/
  | release
  /-- UPDATE (42_control.md R174, R175). -/
  | update
  /-- PROCESS CH, LEN; `u` runs UPDATE first (41_cascade.md R152). -/
  | process (ch : ChMask) (u : Bool) (len : Nat)
  /-- DESIGN.PEAK (40_designer.md R120). -/
  | designPeak
  /-- DESIGN.LC N (40_designer.md R121). -/
  | designLc (n : Nat)
  /-- DESIGN.HC N (40_designer.md R122). -/
  | designHc (n : Nat)
  /-- SET.PEAK CH (41_cascade.md R149). -/
  | setPeak (ch : ChMask)
  /-- SET.LC CH, N (41_cascade.md R150). -/
  | setLc (ch : ChMask) (n : Nat)
  /-- SET.HC CH, N (41_cascade.md R151). -/
  | setHc (ch : ChMask) (n : Nat)
  deriving DecidableEq, Repr

end Sys2Proof
end

