-- ==== Sys2Proof/WellFormed.lean ====
section
/-! DEFINITION. Which commands a command word can carry: the operand ranges of 30_encoding.md R91 and R92. -/

namespace Sys2Proof

/-- A stage count the NSEL field can carry: N = NSEL + 1 is 1..4 (30_encoding.md R91). -/
def stageCountOk (n : Nat) : Bool := decide (1 ≤ n) && decide (n ≤ 4)

/-- A block length the LEN field can carry: 0..2047 (30_encoding.md R91, R92). -/
def lengthOk (len : Nat) : Bool := decide (len ≤ 2047)

/-- A command is well formed when each of its operands fits its field of the command word. -/
def Instr.wf : Instr → Bool
  | .nop => true
  | .prepare => true
  | .release => true
  | .update => true
  | .process _ _ len => lengthOk len
  | .designPeak => true
  | .designLc n => stageCountOk n
  | .designHc n => stageCountOk n
  | .setPeak _ => true
  | .setLc _ n => stageCountOk n
  | .setHc _ n => stageCountOk n

end Sys2Proof
end

