-- ==== Sys2Proof/Decode.lean ====
section
/-! DEFINITION. Decoding and encoding of the 32-bit command word (30_encoding.md R90 to R97). -/

namespace Sys2Proof

/-- Why a word is no command. Each raises command error 1 (30_encoding.md R96). -/
inductive DecodeError where
  /-- OP is 0xB to 0xF. -/
  | reservedOpcode
  /-- A bit of [15:9] or [31:27] is set. -/
  | reservedBits
  /-- A field that the opcode does not use is not 0. -/
  | unusedField
  deriving DecidableEq, Repr

/-- The field `w[lo + len - 1 : lo]`, read as an unsigned integer (00_scope.md R9). -/
def field (w : Word) (lo len : Nat) : Nat := w.toNat / 2 ^ lo % 2 ^ len

/-- The channel mask of a word: bit 4 selects channel 0, bit 5 channel 1 (30_encoding.md R91). -/
def chField (w : Word) : ChMask :=
  { left := decide (field w 4 1 = 1), right := decide (field w 5 1 = 1) }

/-- The command, where the fields it does not use are 0. -/
def accept (unusedClear : Bool) (i : Instr) : Except DecodeError Instr :=
  if unusedClear then .ok i else .error .unusedField

/-- The command a word carries, or why it carries none (30_encoding.md R94, R96). -/
def decode (w : Word) : Except DecodeError Instr :=
  let ch0 := decide (field w 4 2 = 0)
  let nsel0 := decide (field w 6 2 = 0)
  let u0 := decide (field w 8 1 = 0)
  let len0 := decide (field w 16 11 = 0)
  let n := field w 6 2 + 1
  if field w 9 7 ≠ 0 ∨ field w 27 5 ≠ 0 then .error .reservedBits
  else
    match field w 0 4 with
    | 0 => accept (ch0 && nsel0 && u0 && len0) .nop
    | 1 => accept (ch0 && nsel0 && u0 && len0) .prepare
    | 2 => accept (ch0 && nsel0 && u0 && len0) .release
    | 3 => accept (ch0 && nsel0 && u0 && len0) .update
    | 4 => accept nsel0 (.process (chField w) (decide (field w 8 1 = 1)) (field w 16 11))
    | 5 => accept (ch0 && nsel0 && u0 && len0) .designPeak
    | 6 => accept (ch0 && u0 && len0) (.designLc n)
    | 7 => accept (ch0 && u0 && len0) (.designHc n)
    | 8 => accept (nsel0 && u0 && len0) (.setPeak (chField w))
    | 9 => accept (u0 && len0) (.setLc (chField w) n)
    | 10 => accept (u0 && len0) (.setHc (chField w) n)
    | _ => .error .reservedOpcode

/-- The bits of a channel mask in their place, [5:4]. -/
def chBits (ch : ChMask) : Nat := (if ch.left then 2 ^ 4 else 0) + (if ch.right then 2 ^ 5 else 0)

/-- The bits of NSEL in their place, [7:6]: NSEL = N - 1. -/
def nselBits (n : Nat) : Nat := (n - 1) * 2 ^ 6

/-- The word of a well-formed command (30_encoding.md R91, R94). -/
def encode : Instr → Word
  | .nop => BitVec.ofNat 32 0
  | .prepare => BitVec.ofNat 32 1
  | .release => BitVec.ofNat 32 2
  | .update => BitVec.ofNat 32 3
  | .process ch u len => BitVec.ofNat 32 (4 + chBits ch + (if u then 2 ^ 8 else 0) + len * 2 ^ 16)
  | .designPeak => BitVec.ofNat 32 5
  | .designLc n => BitVec.ofNat 32 (6 + nselBits n)
  | .designHc n => BitVec.ofNat 32 (7 + nselBits n)
  | .setPeak ch => BitVec.ofNat 32 (8 + chBits ch)
  | .setLc ch n => BitVec.ofNat 32 (9 + chBits ch + nselBits n)
  | .setHc ch n => BitVec.ofNat 32 (10 + chBits ch + nselBits n)

/-- One row of the table of 30_encoding.md R95. -/
structure Row where
  mnemonic : String
  pattern  : Word
  mask     : Word
  deriving DecidableEq, Repr

/-- The table of 30_encoding.md R95, in its order. -/
def rows : List Row :=
  [ { mnemonic := "NOP", pattern := 0x00000000#32, mask := 0xFFFFFFFF#32 },
    { mnemonic := "PREPARE", pattern := 0x00000001#32, mask := 0xFFFFFFFF#32 },
    { mnemonic := "RELEASE", pattern := 0x00000002#32, mask := 0xFFFFFFFF#32 },
    { mnemonic := "UPDATE", pattern := 0x00000003#32, mask := 0xFFFFFFFF#32 },
    { mnemonic := "PROCESS", pattern := 0x00000004#32, mask := 0xF800FECF#32 },
    { mnemonic := "DESIGN.PEAK", pattern := 0x00000005#32, mask := 0xFFFFFFFF#32 },
    { mnemonic := "DESIGN.LC", pattern := 0x00000006#32, mask := 0xFFFFFF3F#32 },
    { mnemonic := "DESIGN.HC", pattern := 0x00000007#32, mask := 0xFFFFFF3F#32 },
    { mnemonic := "SET.PEAK", pattern := 0x00000008#32, mask := 0xFFFFFFCF#32 },
    { mnemonic := "SET.LC", pattern := 0x00000009#32, mask := 0xFFFFFF0F#32 },
    { mnemonic := "SET.HC", pattern := 0x0000000A#32, mask := 0xFFFFFF0F#32 } ]

/-- A word matches a row: `w & mask = match` (30_encoding.md R95). -/
def Row.hit (r : Row) (w : Word) : Bool := decide (w &&& r.mask = r.pattern)

/-- The mnemonic of a command, as the opcode table spells it. -/
def Instr.mnemonic : Instr → String
  | .nop => "NOP"
  | .prepare => "PREPARE"
  | .release => "RELEASE"
  | .update => "UPDATE"
  | .process _ _ _ => "PROCESS"
  | .designPeak => "DESIGN.PEAK"
  | .designLc _ => "DESIGN.LC"
  | .designHc _ => "DESIGN.HC"
  | .setPeak _ => "SET.PEAK"
  | .setLc _ _ => "SET.LC"
  | .setHc _ _ => "SET.HC"

/-- The decoder on the opcode table's own numbering of an instruction's bits. A command word is 32 bits, and the bits
above `nbits` are 0. -/
def decodeTableWord (nbits w : Nat) : Option Instr :=
  match decode (BitVec.ofNat 32 (w % 2 ^ nbits)) with
  | .ok i => some i
  | .error _ => none

end Sys2Proof
end

