-- ==== Sys2Proof/Machine/F32.lean ====
section
/-! DEFINITION. IEEE 754 binary32 arithmetic as 00_scope.md R10 and R11 give it: one rounding per operation, to
nearest with ties to even, gradual underflow, every NaN result canonical, no flags.

A finite pattern stands for a whole number of units of 2^-149, the smallest subnormal, so that sums are exact
sums of integers and every rounding is the rounding of a quotient of two naturals. -/

namespace Sys2Proof.F32

/-- The sign bit, bit 31. -/
def sign (a : F32) : Bool := decide (2 ^ 31 ≤ a.toNat)

/-- The exponent field, bits [30:23]. -/
def expField (a : F32) : Nat := a.toNat / 2 ^ 23 % 2 ^ 8

/-- The fraction field, bits [22:0]. -/
def frac (a : F32) : Nat := a.toNat % 2 ^ 23

/-- A finite pattern: not an infinity and not a NaN. -/
def isFinite (a : F32) : Bool := decide (expField a ≠ 255)

def isNaN (a : F32) : Bool := decide (expField a = 255) && decide (frac a ≠ 0)

def isInf (a : F32) : Bool := decide (expField a = 255) && decide (frac a = 0)

/-- The magnitude of a finite pattern in units of 2^-149. -/
def mag (a : F32) : Nat :=
  if expField a = 0 then frac a else (2 ^ 23 + frac a) * 2 ^ (expField a - 1)

/-- The value of a finite pattern in units of 2^-149: `real(a) * 2^149` (00_scope.md R10). -/
def units (a : F32) : Int := if sign a then -(mag a : Int) else (mag a : Int)

/-- The canonical NaN (00_scope.md R11). -/
def nan : F32 := 0x7FC00000#32

/-- The pattern of +infinity without its sign bit, as a number. -/
def infMag : Nat := 0x7F800000

/-- The pattern with sign `neg` and the 31 lower bits `m`. -/
def pack (neg : Bool) (m : Nat) : F32 := BitVec.ofNat 32 ((if neg then 2 ^ 31 else 0) + m)

/-- The 31 lower bits of the binary32 value nearest to the exact non-negative number `n / d` units, ties to even,
overflowing to infinity (00_scope.md R10, RN32). `s` is how many low bits of the quotient's integer part lie below
the 24-bit significand, so that for `s = 0` the result may be subnormal (gradual underflow). -/
def roundMag (n d : Nat) : Nat :=
  let s := Nat.log2 (n / d) - 23
  let e := d * 2 ^ s
  let m := n / e
  let r := n % e
  let up := if e < 2 * r ∨ (2 * r = e ∧ m % 2 = 1) then 1 else 0
  min (s * 2 ^ 23 + (m + up)) infMag

/-- RN32 of the exact number `t / d` units of 2^-149; RN32(0) is +0.0 (00_scope.md R10). -/
def round (t : Int) (d : Nat) : F32 := pack (decide (t < 0)) (roundMag t.natAbs d)

/-- The pattern with the sign bit flipped. -/
def neg (a : F32) : F32 := a ^^^ 0x80000000#32

/-- Binary32 addition (00_scope.md R11). -/
def fadd (a b : F32) : F32 :=
  if isNaN a || isNaN b then nan
  else if isInf a then (if isInf b && (sign a != sign b) then nan else a)
  else if isInf b then b
  else if units a + units b = 0 then pack (sign a && sign b) 0
  else round (units a + units b) 1

/-- Binary32 subtraction (00_scope.md R11). -/
def fsub (a b : F32) : F32 := fadd a (neg b)

/-- Binary32 multiplication (00_scope.md R11): the product of two numbers of units is in units of 2^-298. -/
def fmul (a b : F32) : F32 :=
  if isNaN a || isNaN b then nan
  else if isInf a || isInf b then
    (if (isFinite a && decide (mag a = 0)) || (isFinite b && decide (mag b = 0)) then nan
     else pack (sign a != sign b) infMag)
  else pack (sign a != sign b) (roundMag (mag a * mag b) (2 ^ 149))

/-- Finite and greater than zero. -/
def finitePos (a : F32) : Bool := isFinite a && decide (0 < units a)

end Sys2Proof.F32
end

