-- ==== Sys2Proof/Config.lean ====
section
/-! DEFINITION. What is fixed for one WC-BQ: its parameters, the type of its coefficient designer, and the free values. -/

namespace Sys2Proof

/-- A coefficient set, the normalised second-order section of 00_scope.md R14. -/
structure CoeffSet where
  b0 : F32
  b1 : F32
  b2 : F32
  a1 : F32
  a2 : F32
  deriving DecidableEq, Repr

/-- The identity coefficient set: 1.0, 0, 0, 0, 0 (00_scope.md R14). -/
def CoeffSet.identity : CoeffSet :=
  { b0 := 0x3F800000#32, b1 := 0#32, b2 := 0#32, a1 := 0#32, a2 := 0#32 }

/-- The type of the parameter `design` of 00_scope.md R8 and 40_designer.md R111: the three designer
functions, on operands given by their binary32 patterns. `highpass sr f n k` and `lowpass sr f n k` are
section `k` of the cut filter of stage count `n`. Only operands within the contracts R113 and R117 are ever
passed to it. The value the machine uses is `Config.design`, in Machine/Designer.lean. -/
structure Design where
  peak     : (sr f q g : F32) → CoeffSet
  highpass : (sr f : F32) → (n k : Nat) → CoeffSet
  lowpass  : (sr f : F32) → (n k : Nat) → CoeffSet

/-- BUF_DEPTH, the words in one sample buffer (00_scope.md R8). A parameter of the spec whose value here is
the one its address map assumes (log entry 1). -/
def Config.bufDepth : Nat := 1024

/-- The free values: words the spec does not give. Word number `k` is what the machine meets the `k`-th time it
needs one (`State.freeCount` counts them). Nothing is known of any of them (log entry 2). They stand for the
coefficient words written out of contract (60_exceptions.md R206) and for a buffer word read before anything has
written it (R207). -/
opaque Config.freeWord : Nat → Word

end Sys2Proof
end

