-- ==== Sys2Proof/Machine/State.lean ====
section
/-! DEFINITION. The state of WC-BQ, as plain data, and its value after reset (10_state.md, R20 to R44). -/

namespace Sys2Proof.Machine

/-- The two channels: 0 = left, 1 = right (00_scope.md R4). -/
inductive Chan where
  | left
  | right
  deriving DecidableEq, Repr

/-- Four like things, numbered 0 to 3: the stages of a cut filter, the entries of DOUT. -/
structure Four (α : Type) where
  e0 : α
  e1 : α
  e2 : α
  e3 : α
  deriving DecidableEq, Repr

/-- The part of a stage record that every stage stores: its coefficients and its delay line (10_state.md R22). -/
structure Biquad where
  cs : CoeffSet
  s1 : F32
  s2 : F32
  deriving DecidableEq, Repr

/-- A cut-filter stage: a biquad with its bypass bit (10_state.md R22). -/
structure Stage where
  bq     : Biquad
  bypass : Bool
  deriving DecidableEq, Repr

/-- A Variable-Order Cut Filter: four stages and the 3-bit active stage count, LCN or HCN (10_state.md R23, R27). -/
structure Cut where
  stages : Four Stage
  count  : BitVec 3
  deriving DecidableEq, Repr

/-- One channel's part of the stage file, in signal order (10_state.md R23). The peak stage has no bypass bit of its
own: R26 hardwires it to 0. -/
structure Chain where
  lowCut  : Cut
  peak    : Biquad
  highCut : Cut
  deriving DecidableEq, Repr

/-- The snapshot latch of UPDATE (10_state.md R43). -/
structure Snapshot where
  pf : F32
  pq : F32
  pg : F32
  lf : F32
  ls : BitVec 2
  hf : F32
  hs : BitVec 2
  deriving DecidableEq, Repr

/-- An access Host-A makes on the control port, or the reset input (20_memory.md R62, R69; 70_reset_and_hazards.md R230). -/
inductive ControlInput where
  | reset
  | read (a : Addr)
  | write (a : Addr) (v : Word)
  deriving DecidableEq, Repr

/-- What Host-P does on the parameter port: an access, or leaving the next turn to Host-A or the engine
(20_memory.md R62, R63, R74). -/
inductive ParamInput where
  | read (a : Addr)
  | write (a : Addr) (v : Word)
  | yield
  deriving DecidableEq, Repr

/-- The model faults of 60_exceptions.md. The hardware goes on, so a step never ends in one: each is RECORDED in
`State.faults`, where it stays (log entry 5). -/
inductive Fault where
  /-- ContractViolation (R206), naming the command. Raised by DESIGN.PEAK, DESIGN.LC, DESIGN.HC, UPDATE and PROCESS
  with U = 1 when an operand is out of contract. Safe: the coefficient words written are free values. -/
  | contractViolation (cmd : Instr)
  /-- UnwrittenRead (R207), naming the word `BUF[c][i]`. Raised by PROCESS and by a Host-A read of a buffer word that
  nothing has written since reset. Safe: the word read is a free value. -/
  | unwrittenRead (c : Chan) (i : Nat)
  deriving DecidableEq, Repr

/-- Why a command would have no meaning. Every command has one, so no arm of `exec` answers this. -/
inductive Refusal where
  /-- A command with no meaning in this model, by its mnemonic. Safe. No command of this model is refused. -/
  | notModelled (mnemonic : String)
  deriving DecidableEq, Repr

/-- The sample buffers, as bytes at their addresses in rising order, each at most once. An address that is not listed
has not been written since reset (10_state.md R40). -/
abbrev Memory := List Host.Cell

/-- What an unlisted byte reads as: no value, since its content is unspecified (10_state.md R40, log entry 6). -/
def Memory.unlisted : Option Byte := none

/-- The canonical form of a memory: addresses strictly rising. A listed byte has a value and an unlisted one has
none, so no entry equals what an unlisted address reads as. -/
def Memory.wf : Memory → Bool
  | [] => true
  | [_] => true
  | c :: d :: rest => decide (c.1 < d.1) && Memory.wf (d :: rest)

/-- All of WC-BQ's state. The fields from `faults` on are the model's own: what is recorded of the spec's model
faults, the count of free values taken, the two hosts' pending accesses and the words their reads returned. -/
structure State where
  /-- STATUS bit 0, ERR (10_state.md R32). -/
  err         : Bool
  /-- STATUS bits [7:4], ERRCODE (10_state.md R32). -/
  errCode     : BitVec 4
  /-- SR_REQ, 0x0010 (10_state.md R34). -/
  srReq       : F32
  /-- MAXBLK_REQ, 0x0014, its stored bits [10:0] (10_state.md R34). -/
  maxblkReq   : BitVec 11
  /-- SR, 0x0018 (10_state.md R35). -/
  sr          : F32
  /-- MAXBLK, 0x001C, its stored bits [10:0] (10_state.md R35). -/
  maxblk      : BitVec 11
  /-- LOWCUT_FREQ, 0x0020 (10_state.md R36). -/
  lowcutFreq  : F32
  /-- HIGHCUT_FREQ, 0x0024 (10_state.md R36). -/
  highcutFreq : F32
  /-- PEAK_FREQ, 0x0028 (10_state.md R36). -/
  peakFreq    : F32
  /-- PEAK_GAIN_DB, 0x002C (10_state.md R36). -/
  peakGainDb  : F32
  /-- PEAK_Q, 0x0030 (10_state.md R36). -/
  peakQ       : F32
  /-- LOWCUT_SLOPE, 0x0034, its stored bits [1:0] (10_state.md R36). -/
  lowcutSlope : BitVec 2
  /-- HIGHCUT_SLOPE, 0x0038, its stored bits [1:0] (10_state.md R36). -/
  highcutSlope : BitVec 2
  /-- ARG_SR, 0x0040 (10_state.md R37). -/
  argSr       : F32
  /-- ARG_FREQ, 0x0044 (10_state.md R37). -/
  argFreq     : F32
  /-- ARG_Q, 0x0048 (10_state.md R37). -/
  argQ        : F32
  /-- ARG_GAIN_DB, 0x004C (10_state.md R37). -/
  argGainDb   : F32
  /-- DESIGN_N, 0x0050, its bits [2:0] (10_state.md R38). -/
  designN     : BitVec 3
  /-- DOUT[0..3], 0x0080 to 0x00FF (10_state.md R39). -/
  dout        : Four CoeffSet
  /-- Channel 0's stage records and stage counts (10_state.md R23, R27). -/
  chainL      : Chain
  /-- Channel 1's stage records and stage counts (10_state.md R23, R27). -/
  chainR      : Chain
  /-- The sample buffers, 0x2000 to 0x3FFF (10_state.md R40). -/
  mem         : Memory
  /-- The snapshot latch (10_state.md R43). -/
  latch       : Snapshot
  /-- The model faults recorded so far, oldest first (60_exceptions.md R206, R207, R210). -/
  faults      : List Fault
  /-- How many free values have been taken: the model's own (log entry 2). -/
  freeCount   : Nat
  /-- Host-A's accesses still to come, in its program order (20_memory.md R73): the model's own (log entry 7). -/
  hostA       : List ControlInput
  /-- Host-P's accesses still to come, with the turns it leaves to the others (20_memory.md R74): the model's own
  (log entry 7). -/
  hostP       : List ParamInput
  /-- The words Host-A's reads have returned, newest first: the model's own (log entry 7). -/
  readsA      : List Word
  /-- The words Host-P's reads have returned, newest first: the model's own (log entry 7). -/
  readsP      : List Word
  deriving DecidableEq, Repr

/-- A stage's biquad after reset: the identity set and a zero delay line (10_state.md R44). -/
def Biquad.reset : Biquad := { cs := CoeffSet.identity, s1 := 0#32, s2 := 0#32 }

/-- A cut filter after reset: N = 1, stage 0 enabled, the others bypassed (10_state.md R44). -/
def Cut.reset : Cut :=
  { stages := { e0 := { bq := Biquad.reset, bypass := false }, e1 := { bq := Biquad.reset, bypass := true },
                e2 := { bq := Biquad.reset, bypass := true }, e3 := { bq := Biquad.reset, bypass := true } }
    count := 1#3 }

/-- A channel's chain after reset (10_state.md R44). -/
def Chain.reset : Chain := { lowCut := Cut.reset, peak := Biquad.reset, highCut := Cut.reset }

/-- The snapshot latch after reset. The spec leaves it unspecified (10_state.md R43); zero is the model's choice, which
no command reads (log entry 8). -/
def Snapshot.reset : Snapshot :=
  { pf := 0#32, pq := 0#32, pg := 0#32, lf := 0#32, ls := 0#2, hf := 0#32, hs := 0#2 }

/-- The machine right after reset (10_state.md R44, 70_reset_and_hazards.md R230). Nothing is recorded and no access
is pending. -/
def State.reset : State :=
  { err := false
    errCode := 0#4
    srReq := 0x472C4400#32
    maxblkReq := 0x400#11
    sr := 0x472C4400#32
    maxblk := 0x400#11
    lowcutFreq := 0x41A00000#32
    highcutFreq := 0x469C4000#32
    peakFreq := 0x443B8000#32
    peakGainDb := 0x00000000#32
    peakQ := 0x3F800000#32
    lowcutSlope := 0#2
    highcutSlope := 0#2
    argSr := 0#32
    argFreq := 0#32
    argQ := 0#32
    argGainDb := 0#32
    designN := 0#3
    dout := { e0 := CoeffSet.identity, e1 := CoeffSet.identity, e2 := CoeffSet.identity, e3 := CoeffSet.identity }
    chainL := Chain.reset
    chainR := Chain.reset
    mem := []
    latch := Snapshot.reset
    faults := []
    freeCount := 0
    hostA := []
    hostP := []
    readsA := []
    readsP := [] }

end Sys2Proof.Machine
end

