-- ==== Sys2Proof/Machine/Ops.lean ====
section
/-! DEFINITION. The named operations over the state: channels, memory, command errors and model faults. -/

namespace Sys2Proof.Machine

/-! ### Four like things, and the two channels -/

/-- Entry `k`; an index past 3 reads entry 3 and is never used. -/
def Four.get {α : Type} (v : Four α) : Nat → α
  | 0 => v.e0
  | 1 => v.e1
  | 2 => v.e2
  | _ => v.e3

/-- Every entry replaced by a function of its index and itself. -/
def Four.mapIdx {α β : Type} (f : Nat → α → β) (v : Four α) : Four β :=
  { e0 := f 0 v.e0, e1 := f 1 v.e1, e2 := f 2 v.e2, e3 := f 3 v.e3 }

/-- The channel number, 0 or 1 (00_scope.md R4). -/
def Chan.num : Chan → Nat
  | .left => 0
  | .right => 1

/-- The part of the stage file that belongs to a channel. -/
def State.chain (s : State) : Chan → Chain
  | .left => s.chainL
  | .right => s.chainR

def State.setChain (s : State) (c : Chan) (v : Chain) : State :=
  match c with
  | .left => { s with chainL := v }
  | .right => { s with chainR := v }

/-! ### Byte order and the sample buffers -/

/-- Byte `n` of a word: bits [8n+7 : 8n] (20_memory.md R67). -/
def wordByte (w : Word) (n : Nat) : Byte := BitVec.ofNat 8 (w.toNat / 2 ^ (8 * n))

/-- The word of four bytes, byte 0 least significant (20_memory.md R67). -/
def ofBytes (b0 b1 b2 b3 : Byte) : Word :=
  BitVec.ofNat 32 (b0.toNat + b1.toNat * 2 ^ 8 + b2.toNat * 2 ^ 16 + b3.toNat * 2 ^ 24)

/-- The byte at an address. -/
def Memory.read (a : Nat) : Memory → Option Byte
  | [] => Memory.unlisted
  | c :: rest => if a = c.1 then some c.2 else if a < c.1 then Memory.unlisted else Memory.read a rest

/-- A memory with one byte stored, in the canonical form. -/
def Memory.write (a : Nat) (b : Byte) : Memory → Memory
  | [] => [(a, b)]
  | c :: rest =>
    if a = c.1 then (a, b) :: rest else if a < c.1 then (a, b) :: c :: rest else c :: Memory.write a b rest

/-- The word at an address: none where a byte of it has not been written since reset. -/
def Memory.readWord (m : Memory) (a : Nat) : Option Word :=
  match m.read a, m.read (a + 1), m.read (a + 2), m.read (a + 3) with
  | some b0, some b1, some b2, some b3 => some (ofBytes b0 b1 b2 b3)
  | _, _, _, _ => none

/-- A memory with one word stored at an address, its four bytes in the order of 20_memory.md R67. -/
def Memory.writeWord (m : Memory) (a : Nat) (w : Word) : Memory :=
  (((m.write a (wordByte w 0)).write (a + 1) (wordByte w 1)).write (a + 2) (wordByte w 2)).write (a + 3) (wordByte w 3)

/-- The byte address of `BUF[c][i]` (10_state.md R40). -/
def bufAddr (c : Chan) (i : Nat) : Nat := 0x2000 + 0x1000 * c.num + 4 * i

/-! ### Command errors: raising one and clearing it -/

/-- `raise Error(code)` (60_exceptions.md R201): STATUS keeps the first error's code, and nothing else happens. This is
all the hardware has for taking an exception (R211). -/
def raiseError (code : BitVec 4) (s : State) : State :=
  if s.err then s else { s with err := true, errCode := code }

/-- Host-A clearing the error (60_exceptions.md R212, 10_state.md R32). This is all the hardware has for returning
from an exception. -/
def clearError (s : State) : State := { s with err := false, errCode := 0#4 }

/-- ILLEGAL_COMMAND (60_exceptions.md R202). -/
def illegalCommand : BitVec 4 := 1#4

/-- BAD_LENGTH (60_exceptions.md R203). -/
def badLength : BitVec 4 := 2#4

/-- BAD_PREPARE (60_exceptions.md R204). -/
def badPrepare : BitVec 4 := 3#4

/-! ### Model faults and free values -/

/-- Record a model fault, which is never cleared (60_exceptions.md R206, R207). One already recorded stays as it is. -/
def record (f : Fault) (s : State) : State :=
  if f ∈ s.faults then s else { s with faults := s.faults ++ [f] }

/-- The free value number `k` after those already taken. -/
def freeWordAt (s : State) (k : Nat) : Word := Config.freeWord (s.freeCount + k)

/-- The coefficient set of five free values, from number `k` on. -/
def freeSetAt (s : State) (k : Nat) : CoeffSet :=
  { b0 := freeWordAt s k, b1 := freeWordAt s (k + 1), b2 := freeWordAt s (k + 2), a1 := freeWordAt s (k + 3),
    a2 := freeWordAt s (k + 4) }

/-- The state after `n` free values are taken. -/
def takeFree (n : Nat) (s : State) : State := { s with freeCount := s.freeCount + n }

/-- The word an engine or host read of `BUF[c][i]` returns, and the state it leaves. A word not written since reset is
a free value and is recorded as UnwrittenRead (60_exceptions.md R207). -/
def readBuf (c : Chan) (i : Nat) (s : State) : Word × State :=
  match s.mem.readWord (bufAddr c i) with
  | some w => (w, s)
  | none => (freeWordAt s 0, record (.unwrittenRead c i) (takeFree 1 s))

/-- `BUF[c][i]` written. -/
def writeBuf (c : Chan) (i : Nat) (w : Word) (s : State) : State :=
  { s with mem := s.mem.writeWord (bufAddr c i) w }

end Sys2Proof.Machine
end

