-- ==== Sys2Proof/Machine/Flags.lean ====
section
/-! DEFINITION. The status flags: STATUS.ERR with ERRCODE, and the stage bypass bits. There are no others (10_state.md R41). -/

namespace Sys2Proof.Machine

/-- STATUS as a word: ERR in bit 0, ERRCODE in bits [7:4], the other bits 0 (10_state.md R32). -/
def statusWord (s : State) : Word := BitVec.ofNat 32 ((if s.err then 1 else 0) + s.errCode.toNat * 2 ^ 4)

/-- The FLAGS word of a stage record: bypass in bit 0, the other bits 0 (10_state.md R24). -/
def flagsWord (bypass : Bool) : Word := if bypass then 1#32 else 0#32

/-- The peak stage's bypass bit, hardwired to 0 (10_state.md R26). -/
def peakBypass : Bool := false

/-- The bypass bit of stage `i` of a cut filter with stage count `n`: stages [0, n) are enabled and stages [n, 4)
bypassed (10_state.md R28, 41_cascade.md R150). -/
def slopeBypass (n i : Nat) : Bool := decide (n ≤ i)

end Sys2Proof.Machine
end

