-- ==== Sys2Proof/Machine/Stage.lean ====
section
/-! DEFINITION. The biquad stage, the cut filter and the channel chain: one sample through each, and the installation
of coefficients (41_cascade.md R140 to R148, R150). -/

namespace Sys2Proof.Machine

open Sys2Proof.F32

/-- `stage_step` (41_cascade.md R140): one sample through an enabled stage. Transposed direct form II, in the order and
grouping written there (R141). -/
def Biquad.step (st : Biquad) (x : F32) : F32 × Biquad :=
  let y := fadd (fmul st.cs.b0 x) st.s1
  let s1 := fadd (fsub (fmul st.cs.b1 x) (fmul st.cs.a1 y)) st.s2
  let s2 := fsub (fmul st.cs.b2 x) (fmul st.cs.a2 y)
  (y, { st with s1 := s1, s2 := s2 })

/-- One sample through a cut-filter stage: a bypassed stage is exactly the identity and reads and writes none of its
fields (41_cascade.md R143). -/
def Stage.step (st : Stage) (x : F32) : F32 × Stage :=
  if st.bypass then (x, st)
  else ((st.bq.step x).1, { st with bq := (st.bq.step x).2 })

/-- `cut_step` (41_cascade.md R144): the four stages in index order. -/
def Cut.step (f : Cut) (x : F32) : F32 × Cut :=
  let r0 := f.stages.e0.step x
  let r1 := f.stages.e1.step r0.1
  let r2 := f.stages.e2.step r1.1
  let r3 := f.stages.e3.step r2.1
  (r3.1, { f with stages := { e0 := r0.2, e1 := r1.2, e2 := r2.2, e3 := r3.2 } })

/-- `chain_step` (41_cascade.md R146): low-cut filter, peak stage, high-cut filter. -/
def Chain.step (h : Chain) (x : F32) : F32 × Chain :=
  let r0 := h.lowCut.step x
  let r1 := h.peak.step r0.1
  let r2 := h.highCut.step r1.1
  (r2.1, { lowCut := r0.2, peak := r1.2, highCut := r2.2 })

/-- `install` (41_cascade.md R148): the five coefficient words and nothing else. -/
def Biquad.install (cs : CoeffSet) (st : Biquad) : Biquad := { st with cs := cs }

/-- `setSlope` (41_cascade.md R150): stages [0, n) take their coefficient sets and are enabled, stages [n, 4) are
bypassed and keep their coefficients, and no delay line changes. -/
def Cut.setSlope (n : Nat) (seq : Four CoeffSet) (f : Cut) : Cut :=
  { stages := f.stages.mapIdx fun i st =>
      { bq := if slopeBypass n i then st.bq else st.bq.install (seq.get i), bypass := slopeBypass n i }
    count := BitVec.ofNat 3 n }

/-- A delay line set to +0.0 (42_control.md R172, R173). -/
def Biquad.clear (st : Biquad) : Biquad := { st with s1 := 0#32, s2 := 0#32 }

def Cut.clear (f : Cut) : Cut :=
  { f with stages := f.stages.mapIdx fun _ st => { st with bq := st.bq.clear } }

/-- Every delay line of a channel set to +0.0, those of bypassed stages included (42_control.md R172). -/
def Chain.clear (h : Chain) : Chain :=
  { lowCut := h.lowCut.clear, peak := h.peak.clear, highCut := h.highCut.clear }

/-- All 36 delay words set to +0.0 (42_control.md R172, R173). -/
def clearDelays (s : State) : State := { s with chainL := s.chainL.clear, chainR := s.chainR.clear }

/-- `setSlope` on a channel's low-cut filter. -/
def setLowCut (n : Nat) (seq : Four CoeffSet) (c : Chan) (s : State) : State :=
  s.setChain c { s.chain c with lowCut := (s.chain c).lowCut.setSlope n seq }

/-- `setSlope` on a channel's high-cut filter. -/
def setHighCut (n : Nat) (seq : Four CoeffSet) (c : Chan) (s : State) : State :=
  s.setChain c { s.chain c with highCut := (s.chain c).highCut.setSlope n seq }

/-- The peak-stage install of a channel (41_cascade.md R149). -/
def setPeak (cs : CoeffSet) (c : Chan) (s : State) : State :=
  s.setChain c { s.chain c with peak := (s.chain c).peak.install cs }

end Sys2Proof.Machine
end

