-- ==== Sys2Proof/Machine/Bus.lean ====
section
/-! DEFINITION. The address map and the host accesses to it, but for a write of CMD, which executes a command
(20_memory.md). -/

namespace Sys2Proof.Machine

/-- What a word of the address space is (20_memory.md R66). -/
inductive Loc where
  | id
  | status
  | cmd
  | srReq
  | maxblkReq
  | sr
  | maxblk
  | lowcutFreq
  | highcutFreq
  | peakFreq
  | peakGainDb
  | peakQ
  | lowcutSlope
  | highcutSlope
  | argSr
  | argFreq
  | argQ
  | argGainDb
  | designN
  | dout (k j : Nat)
  | stage (c : Chan) (slot j : Nat)
  | lcn (c : Chan)
  | hcn (c : Chan)
  | buf (c : Chan) (i : Nat)
  | reserved
  deriving DecidableEq, Repr

/-- The single registers, at their byte addresses (20_memory.md R66). -/
def registerMap : List (Nat × Loc) :=
  [ (0x0000, .id), (0x0004, .status), (0x0008, .cmd), (0x0010, .srReq), (0x0014, .maxblkReq), (0x0018, .sr),
    (0x001C, .maxblk), (0x0020, .lowcutFreq), (0x0024, .highcutFreq), (0x0028, .peakFreq), (0x002C, .peakGainDb),
    (0x0030, .peakQ), (0x0034, .lowcutSlope), (0x0038, .highcutSlope), (0x0040, .argSr), (0x0044, .argFreq),
    (0x0048, .argQ), (0x004C, .argGainDb), (0x0050, .designN) ]

/-- The aligned word address an access reaches: bits [1:0] are ignored (20_memory.md R68, R69). -/
def wordAddr (a : Addr) : Nat := a.toNat / 4 * 4

/-- The channel of a two-channel region, by the higher address bit. -/
def chanAt (b : Nat) : Chan := if b = 0 then .left else .right

/-- The word of a channel's part of the stage-file region, by its offset: 9 records of 8 words, then the two stage
counts at 0x180 and 0x184 (10_state.md R24, R27). -/
def stageLoc (c : Chan) (off : Nat) : Loc :=
  if off < 0x120 then .stage c (off / 0x20) (off % 0x20 / 4)
  else if off = 0x180 then .lcn c
  else if off = 0x184 then .hcn c
  else .reserved

/-- The word at an aligned byte address (20_memory.md R65, R66). -/
def locAt (b : Nat) : Loc :=
  if b < 0x80 then (registerMap.lookup b).getD .reserved
  else if b < 0x100 then
    (if (b - 0x80) % 0x20 / 4 < 5 then .dout ((b - 0x80) / 0x20) ((b - 0x80) % 0x20 / 4) else .reserved)
  else if b < 0x1000 then .reserved
  else if b < 0x1400 then stageLoc (chanAt ((b - 0x1000) / 0x200)) ((b - 0x1000) % 0x200)
  else if b < 0x2000 then .reserved
  else .buf (chanAt ((b - 0x2000) / 0x1000)) ((b - 0x2000) % 0x1000 / 4)

def locOf (a : Addr) : Loc := locAt (wordAddr a)

/-- Word `j` of a coefficient set: b0, b1, b2, a1, a2 (10_state.md R39). -/
def csWord (cs : CoeffSet) : Nat → Word
  | 0 => cs.b0
  | 1 => cs.b1
  | 2 => cs.b2
  | 3 => cs.a1
  | 4 => cs.a2
  | _ => 0#32

/-- Word `j` of a stage record: b0, b1, b2, a1, a2, s1, s2, FLAGS (10_state.md R24). -/
def recordWord (bq : Biquad) (bypass : Bool) (j : Nat) : Word :=
  if j < 5 then csWord bq.cs j
  else if j = 5 then bq.s1
  else if j = 6 then bq.s2
  else flagsWord bypass

/-- Word `j` of stage record `slot`: slots 0..3 are the low-cut stages, 4 the peak stage, 5..8 the high-cut stages
(10_state.md R23). -/
def slotWord (h : Chain) (slot j : Nat) : Word :=
  if slot < 4 then recordWord (h.lowCut.stages.get slot).bq (h.lowCut.stages.get slot).bypass j
  else if slot = 4 then recordWord h.peak peakBypass j
  else recordWord (h.highCut.stages.get (slot - 5)).bq (h.highCut.stages.get (slot - 5)).bypass j

/-- The ID register's value (10_state.md R31). -/
def idWord : Word := 0x57430001#32

/-- The value of a register of the seven that hold parameters; none for any other word (20_memory.md R63). -/
def paramWord (s : State) : Loc → Option Word
  | .lowcutFreq => some s.lowcutFreq
  | .highcutFreq => some s.highcutFreq
  | .peakFreq => some s.peakFreq
  | .peakGainDb => some s.peakGainDb
  | .peakQ => some s.peakQ
  | .lowcutSlope => some (s.lowcutSlope.setWidth 32)
  | .highcutSlope => some (s.highcutSlope.setWidth 32)
  | _ => none

/-- The value of a word outside the sample buffers: reserved bits, reserved words and CMD read 0 (20_memory.md R69,
R70). -/
def plainWord (s : State) (l : Loc) : Word :=
  match l with
  | .id => idWord
  | .status => statusWord s
  | .srReq => s.srReq
  | .maxblkReq => s.maxblkReq.setWidth 32
  | .sr => s.sr
  | .maxblk => s.maxblk.setWidth 32
  | .argSr => s.argSr
  | .argFreq => s.argFreq
  | .argQ => s.argQ
  | .argGainDb => s.argGainDb
  | .designN => s.designN.setWidth 32
  | .dout k j => csWord (s.dout.get k) j
  | .stage c slot j => slotWord (s.chain c) slot j
  | .lcn c => (s.chain c).lowCut.count.setWidth 32
  | .hcn c => (s.chain c).highCut.count.setWidth 32
  | _ => (paramWord s l).getD 0#32

/-- The word a Host-A read returns, and the state it leaves: no read has a side effect (20_memory.md R69, R71), but a
read of a buffer word not written since reset is recorded (60_exceptions.md R207). -/
def readLoc (l : Loc) (s : State) : Word × State :=
  match l with
  | .buf c i => readBuf c i s
  | l => (plainWord s l, s)

/-- A write of one of the seven parameter registers; any other word is left alone (10_state.md R36, 20_memory.md R63). -/
def writeParam (l : Loc) (v : Word) (s : State) : State :=
  match l with
  | .lowcutFreq => { s with lowcutFreq := v }
  | .highcutFreq => { s with highcutFreq := v }
  | .peakFreq => { s with peakFreq := v }
  | .peakGainDb => { s with peakGainDb := v }
  | .peakQ => { s with peakQ := v }
  | .lowcutSlope => { s with lowcutSlope := v.setWidth 2 }
  | .highcutSlope => { s with highcutSlope := v.setWidth 2 }
  | _ => s

/-- A Host-A write of a word other than CMD (20_memory.md R69): RO and reserved words are left alone (R70), WARL bits
are masked (10_state.md R29), and STATUS is cleared by a 1 in bit 0 (10_state.md R32). -/
def writeLoc (l : Loc) (v : Word) (s : State) : State :=
  match l with
  | .status => if v.getLsbD 0 then clearError s else s
  | .srReq => { s with srReq := v }
  | .maxblkReq => { s with maxblkReq := v.setWidth 11 }
  | .argSr => { s with argSr := v }
  | .argFreq => { s with argFreq := v }
  | .argQ => { s with argQ := v }
  | .argGainDb => { s with argGainDb := v }
  | .buf c i => writeBuf c i v s
  | l => writeParam l v s

/-- A Host-A read: the word returned joins the words read. -/
def hostARead (a : Addr) (s : State) : State :=
  let r := readLoc (locOf a) s
  { r.2 with readsA := r.1 :: s.readsA }

/-- A Host-P read: the seven parameter registers have their value and every other address reads 0 (20_memory.md R63). -/
def hostPRead (a : Addr) (s : State) : State :=
  { s with readsP := (paramWord s (locOf a)).getD 0#32 :: s.readsP }

/-- A Host-P write: the seven parameter registers are stored and every other address is ignored, CMD included
(20_memory.md R63). -/
def hostPWrite (a : Addr) (v : Word) (s : State) : State := writeParam (locOf a) v s

/-- Host-P's accesses up to the next turn it leaves to the others (20_memory.md R74, R75). -/
def paramTurnFrom : List ParamInput → State → State
  | [], s => { s with hostP := [] }
  | .yield :: rest, s => { s with hostP := rest }
  | .read a :: rest, s => paramTurnFrom rest (hostPRead a s)
  | .write a v :: rest, s => paramTurnFrom rest (hostPWrite a v s)

/-- What Host-P does between two steps of a command (20_memory.md R75, R76). -/
def paramTurn (s : State) : State := paramTurnFrom s.hostP s

/-- The reset event (70_reset_and_hazards.md R230): every piece of state the spec names takes its reset value. The
model's own fields stay (DESIGN CHOICE, log entry 11): what is recorded is never cleared (60_exceptions.md R206), and
the accesses still to come and the words read belong to the hosts. -/
def resetEvent (s : State) : State :=
  { State.reset with
    faults := s.faults, freeCount := s.freeCount, hostA := s.hostA, hostP := s.hostP, readsA := s.readsA,
    readsP := s.readsP }

end Sys2Proof.Machine
end

