-- ==== Sys2Proof/Machine/Interval.lean ====
section
/-! DEFINITION. Fixed-point interval arithmetic, used by the reference designer to enclose the exact real numbers of
40_designer.md. At precision `p`, the interval `⟨lo, hi⟩` stands for the real numbers `x` with `lo ≤ x * 2^p ≤ hi`. -/

namespace Sys2Proof

/-- An interval of fixed-point numbers. -/
structure Iv where
  lo : Int
  hi : Int
  deriving DecidableEq, Repr

namespace Iv

/-- Division rounded down. -/
def divDown (a : Int) (d : Nat) : Int := a / (d : Int)

/-- Division rounded up. -/
def divUp (a : Int) (d : Nat) : Int := -((-a) / (d : Int))

/-- The number `n / d` at precision `p`. -/
def frac (p : Nat) (n : Int) (d : Nat) : Iv := ⟨divDown (n * 2 ^ p) d, divUp (n * 2 ^ p) d⟩

def add (x y : Iv) : Iv := ⟨x.lo + y.lo, x.hi + y.hi⟩

def sub (x y : Iv) : Iv := ⟨x.lo - y.hi, x.hi - y.lo⟩

def neg (x : Iv) : Iv := ⟨-x.hi, -x.lo⟩

/-- The product, from the four products of ends. -/
def mul (p : Nat) (x y : Iv) : Iv :=
  let a := x.lo * y.lo
  let b := x.lo * y.hi
  let c := x.hi * y.lo
  let d := x.hi * y.hi
  ⟨divDown (min (min a b) (min c d)) (2 ^ p), divUp (max (max a b) (max c d)) (2 ^ p)⟩

/-- The square of a number: never below zero. -/
def sq (p : Nat) (x : Iv) : Iv :=
  let y := mul p x x
  ⟨max y.lo 0, y.hi⟩

/-- The product with the exact fraction `n / d`. -/
def scale (x : Iv) (n : Nat) (d : Nat) : Iv := ⟨divDown (x.lo * n) d, divUp (x.hi * n) d⟩

/-- The quotient by an interval of positive numbers; none where the divisor is not known to be positive. -/
def div (p : Nat) (x y : Iv) : Option Iv :=
  if 0 < y.lo then
    some ⟨divDown (x.lo * 2 ^ p) (if 0 ≤ x.lo then y.hi else y.lo).toNat,
          divUp (x.hi * 2 ^ p) (if 0 ≤ x.hi then y.lo else y.hi).toNat⟩
  else none

/-- The series `t k = 1 / e k + (y / d k) * t (k + 1)`, evaluated from its `n`-th tail, which lies within ±5. -/
def series (p : Nat) (e d : Nat → Nat) (y : Iv) : (n k : Nat) → Iv
  | 0, _ => ⟨-(5 * 2 ^ p), 5 * 2 ^ p⟩
  | n + 1, k => add (frac p 1 (e k)) (scale (mul p y (series p e d y n (k + 1))) 1 (d k))

/-- How many terms of a series are taken at precision `p`. -/
def terms (p : Nat) : Nat := p / 3 + 8

/-- The arctangent of `1 / m`, by its alternating series. -/
def arctanInv (p m : Nat) : Iv :=
  scale (series p (fun k => 2 * k + 1) (fun _ => 1) (frac p (-1) (m * m)) (terms p) 0) 1 m

/-- The logarithm of `(m + 1) / (m - 1)`, twice the area tangent of `1 / m`. -/
def logRatio (p m : Nat) : Iv :=
  scale (series p (fun k => 2 * k + 1) (fun _ => 1) (frac p 1 (m * m)) (terms p) 0) 2 m

/-- The number pi, by Machin's formula. -/
def pi (p : Nat) : Iv := sub (scale (arctanInv p 5) 16 1) (scale (arctanInv p 239) 4 1)

/-- The logarithm of 10: three logarithms of 2 and one of 5/4. -/
def log10 (p : Nat) : Iv := add (scale (logRatio p 3) 3 1) (logRatio p 9)

/-- The exponential of a number between -1.39 and 1.39. -/
def exp (p : Nat) (x : Iv) : Iv := series p (fun _ => 1) (fun k => k + 1) x (terms p) 0

/-- The cosine of a number between 0 and pi/2. -/
def cos (p : Nat) (x : Iv) : Iv :=
  series p (fun _ => 1) (fun k => (2 * k + 1) * (2 * k + 2)) (neg (sq p x)) (terms p) 0

/-- The sine of a number between 0 and pi/2. -/
def sin (p : Nat) (x : Iv) : Iv :=
  mul p x (series p (fun _ => 1) (fun k => (2 * k + 2) * (2 * k + 3)) (neg (sq p x)) (terms p) 0)

end Iv

end Sys2Proof
end

