-- ==== Sys2Proof/Machine/Designer.lean ====
section
/-! DEFINITION. The reference coefficient designer of 40_designer.md: each coefficient is the exact real value of its
formula (R112, R114 to R116), rounded once (R111).

The exact value is enclosed in an interval; where both ends round to one pattern, that pattern is the correctly
rounded value. Where they do not, the enclosure is made finer (log entry 3 says what happens after the finest).
With `theta = pi f / sr` and `w = 2 theta`, dividing numerator and denominator of the formulas R115 and R116 by
`cos^2 theta` or `sin^2 theta` gives them one denominator `1 + sin w cos phi_k`, since `1 / Q_k = 2 cos phi_k` with
`phi_k = (2k + 1) pi / (4 N)`; these are the forms enclosed here. -/

namespace Sys2Proof

/-- Enclosures of the five coefficients of one section. -/
structure IvSet where
  b0 : Iv
  b1 : Iv
  b2 : Iv
  a1 : Iv
  a2 : Iv
  deriving DecidableEq, Repr

/-- Enclosures of `sin w`, `cos w`, `sin^2 (w/2)` and `cos^2 (w/2)` for `w = 2 pi f / sr`. -/
structure Trig where
  sinW : Iv
  cosW : Iv
  sinSq : Iv
  cosSq : Iv
  deriving DecidableEq, Repr

namespace Designer

def one (p : Nat) : Iv := Iv.frac p 1 1

/-- The trigonometric values at `w = 2 pi f / sr`, for `0 < f < sr/2`. At `f = sr/4` the sine is exactly 1 and the
cosine exactly 0, and at `f = sr/12` and `f = 5 sr/12` the sine is exactly 1/2: these are the operands at which a
coefficient can be exactly 0. -/
def trig (p : Nat) (sr f : F32) : Trig :=
  let us := F32.mag sr
  let uf := F32.mag f
  if 4 * uf = us then
    { sinW := one p, cosW := Iv.frac p 0 1, sinSq := Iv.frac p 1 2, cosSq := Iv.frac p 1 2 }
  else
    let t := Iv.scale (Iv.pi p) uf us
    let s := Iv.sin p t
    let c := Iv.cos p t
    let s2 := Iv.sq p s
    let c2 := Iv.sq p c
    { sinW := if 12 * uf = us ∨ 12 * uf = 5 * us then Iv.frac p 1 2 else Iv.scale (Iv.mul p s c) 2 1
      cosW := Iv.sub c2 s2, sinSq := s2, cosSq := c2 }

/-- The five quotients of one section, where the denominator is known to be positive. -/
def quotients (p : Nat) (b0 b1 b2 a1 a2 den : Iv) : Option IvSet :=
  match Iv.div p b0 den, Iv.div p b1 den, Iv.div p b2 den, Iv.div p a1 den, Iv.div p a2 den with
  | some b0, some b1, some b2, some a1, some a2 => some { b0 := b0, b1 := b1, b2 := b2, a1 := a1, a2 := a2 }
  | _, _, _, _, _ => none

/-- `-2 cos w`, the numerator of `a1` of every section and of `b1` of a peaking one. -/
def minusTwoCos (t : Trig) : Iv := Iv.neg (Iv.scale t.cosW 2 1)

/-- The peaking-EQ coefficients (40_designer.md R112): `alpha = sin w / (2 Q)` and `A = 10^(g/40)`, where
`up = alpha A` and `down = alpha / A`. -/
def peakEncl (sr f q g : F32) (p : Nat) : Option IvSet :=
  let t := trig p sr f
  let x := Iv.mul p (Iv.log10 p) (Iv.frac p (F32.units g) (40 * 2 ^ 149))
  let alpha := Iv.scale t.sinW (2 ^ 149) (2 * F32.mag q)
  let up := Iv.mul p alpha (Iv.exp p x)
  let down := Iv.mul p alpha (Iv.exp p (Iv.neg x))
  let m := minusTwoCos t
  quotients p (Iv.add (one p) up) m (Iv.sub (one p) up) m (Iv.sub (one p) down) (Iv.add (one p) down)

/-- `sin w cos phi_k`, where `1 / Q_k = 2 cos phi_k` (40_designer.md R114). -/
def damping (p : Nat) (t : Trig) (n k : Nat) : Iv :=
  Iv.mul p t.sinW (Iv.cos p (Iv.scale (Iv.pi p) (2 * k + 1) (4 * n)))

/-- A high-pass section (40_designer.md R115). -/
def highpassEncl (sr f : F32) (n k : Nat) (p : Nat) : Option IvSet :=
  let t := trig p sr f
  let r := damping p t n k
  quotients p t.cosSq (Iv.neg (Iv.scale t.cosSq 2 1)) t.cosSq (minusTwoCos t) (Iv.sub (one p) r) (Iv.add (one p) r)

/-- A low-pass section (40_designer.md R116). -/
def lowpassEncl (sr f : F32) (n k : Nat) (p : Nat) : Option IvSet :=
  let t := trig p sr f
  let r := damping p t n k
  quotients p t.sinSq (Iv.scale t.sinSq 2 1) t.sinSq (minusTwoCos t) (Iv.sub (one p) r) (Iv.add (one p) r)

/-- RN32 of the number `x / 2^p`. -/
def roundAt (p : Nat) (x : Int) : F32 := F32.round (x * 2 ^ 149) (2 ^ p)

/-- The one pattern that every number of the interval rounds to, where there is one. -/
def settleIv (p : Nat) (x : Iv) : Option F32 :=
  if roundAt p x.lo = roundAt p x.hi then some (roundAt p x.lo) else none

/-- One section, where every coefficient is settled at this precision. -/
def settleSet (p : Nat) (e : Option IvSet) : Option CoeffSet := do
  let v ← e
  let b0 ← settleIv p v.b0
  let b1 ← settleIv p v.b1
  let b2 ← settleIv p v.b2
  let a1 ← settleIv p v.a1
  let a2 ← settleIv p v.a2
  pure { b0 := b0, b1 := b1, b2 := b2, a1 := a1, a2 := a2 }

/-- The exact values that no enclosure settles: 0, and a number halfway between two neighbouring patterns, which
rounds to the even one (log entry 3). -/
def snapIv (p : Nat) (x : Iv) : F32 :=
  if x.lo ≤ 0 ∧ 0 ≤ x.hi then 0#32
  else if (roundAt p x.lo).toNat % 2 = 0 then roundAt p x.lo else roundAt p x.hi

def snapSet (p : Nat) (e : Option IvSet) : CoeffSet :=
  match e with
  | none => CoeffSet.identity
  | some v =>
    { b0 := snapIv p v.b0, b1 := snapIv p v.b1, b2 := snapIv p v.b2, a1 := snapIv p v.a1, a2 := snapIv p v.a2 }

/-- The precisions tried, in order. -/
def precisions : List Nat := [96, 256, 1024]

/-- The section at the first precision that settles every coefficient. -/
def settle (encl : Nat → Option IvSet) : List Nat → Option CoeffSet
  | [] => none
  | p :: rest =>
    match settleSet p (encl p) with
    | some cs => some cs
    | none => settle encl rest

/-- The correctly rounded section (40_designer.md R111). -/
def section_ (encl : Nat → Option IvSet) : CoeffSet :=
  match settle encl precisions with
  | some cs => cs
  | none => snapSet 1024 (encl 1024)

def reference : Design where
  peak sr f q g := section_ (peakEncl sr f q g)
  highpass sr f n k := section_ (highpassEncl sr f n k)
  lowpass sr f n k := section_ (lowpassEncl sr f n k)

end Designer

/-- The designer this machine has: the reference value of the parameter `design` (40_designer.md R111, log entry 4). -/
def Config.design : Design := Designer.reference

end Sys2Proof
end

