-- ==== Sys2Proof/Machine/Operands.lean ====
section
/-! DEFINITION. The operand forms: channel masks, stage counts, the designer contracts and the snapshot. -/

namespace Sys2Proof.Machine

/-- `c in CH` (30_encoding.md R92). -/
def selects (ch : ChMask) : Chan → Bool
  | .left => ch.left
  | .right => ch.right

/-- `for c in CH`, channel 0 first (00_scope.md R13). -/
def forChannels (ch : ChMask) (f : Chan → State → State) (s : State) : State :=
  let s := if selects ch .left then f .left s else s
  if selects ch .right then f .right s else s

/-- Both channels. -/
def bothChannels : ChMask := { left := true, right := true }

/-- The stage count of a slope selector: N = SEL + 1 (00_scope.md R15). -/
def slopeCount (sel : BitVec 2) : Nat := sel.toNat + 1

/-- `sr` finite and greater than 0, and `0 < f < sr / 2`: the contract of the cut designers (40_designer.md R117).
An `f` that is not finite is out of contract (DEDUCED, log entry 10). -/
def cutContract (sr f : F32) : Bool :=
  F32.finitePos sr && F32.isFinite f && decide (0 < F32.units f) && decide (2 * F32.units f < F32.units sr)

/-- The contract of the peaking-EQ designer (40_designer.md R113): as `cutContract`, with `Q` finite and greater than 0
and `g` finite and within -24 to 24 dB. -/
def peakContract (sr f q g : F32) : Bool :=
  cutContract sr f && F32.finitePos q && F32.isFinite g
    && decide (-(24 * 2 ^ 149) ≤ F32.units g) && decide (F32.units g ≤ 24 * 2 ^ 149)

/-- The operands PREPARE accepts: SR_REQ finite and greater than 0, MAXBLK_REQ within 1..BUF_DEPTH (42_control.md R172). -/
def prepareAccepts (s : State) : Bool :=
  F32.finitePos s.srReq && decide (1 ≤ s.maxblkReq.toNat) && decide (s.maxblkReq.toNat ≤ Config.bufDepth)

/-- The block lengths PROCESS accepts: 1..MAXBLK (41_cascade.md R152). -/
def lengthAccepted (s : State) (len : Nat) : Bool := decide (1 ≤ len) && decide (len ≤ s.maxblk.toNat)

end Sys2Proof.Machine
end

