-- ==== Sys2Proof/Machine/Control.lean ====
section
/-! DEFINITION. The lifecycle and coordinator commands: NOP, PREPARE, RELEASE and UPDATE (42_control.md). -/

namespace Sys2Proof.Machine

/-- NOP (42_control.md R171). -/
def execNop (s : State) : Host.Outcome State Fault Refusal := .next s

/-- PREPARE (42_control.md R172). -/
def execPrepare (s : State) : Host.Outcome State Fault Refusal :=
  if prepareAccepts s then .next (clearDelays { s with sr := s.srReq, maxblk := s.maxblkReq })
  else .next (raiseError badPrepare s)

/-- RELEASE (42_control.md R173). -/
def execRelease (s : State) : Host.Outcome State Fault Refusal := .next (clearDelays s)

/-! ### The snapshot phase: seven read steps, in this order (42_control.md R174) -/

def latchPeakFreq (s : State) : State := { s with latch := { s.latch with pf := s.peakFreq } }

def latchPeakQ (s : State) : State := { s with latch := { s.latch with pq := s.peakQ } }

def latchPeakGain (s : State) : State := { s with latch := { s.latch with pg := s.peakGainDb } }

def latchLowFreq (s : State) : State := { s with latch := { s.latch with lf := s.lowcutFreq } }

def latchLowSlope (s : State) : State := { s with latch := { s.latch with ls := s.lowcutSlope } }

def latchHighFreq (s : State) : State := { s with latch := { s.latch with hf := s.highcutFreq } }

def latchHighSlope (s : State) : State := { s with latch := { s.latch with hs := s.highcutSlope } }

/-- The seven read steps, with Host-P's turn between each two (20_memory.md R75, R76; DESIGN CHOICE, log entry 12: in one
step of the model). -/
def snapshotPhase (s : State) : State :=
  let s := paramTurn (latchPeakFreq s)
  let s := paramTurn (latchPeakQ s)
  let s := paramTurn (latchPeakGain s)
  let s := paramTurn (latchLowFreq s)
  let s := paramTurn (latchLowSlope s)
  let s := paramTurn (latchHighFreq s)
  latchHighSlope s

/-! ### The design-and-install step (42_control.md R175) -/

/-- Four sections, `sect k` in entry `k`. -/
def sections (sect : Nat → CoeffSet) : Four CoeffSet :=
  { e0 := sect 0, e1 := sect 1, e2 := sect 2, e3 := sect 3 }

/-- The peak set a command writes: the designer's where `ok` says that every contract of the command holds, and
otherwise free values (60_exceptions.md R206). -/
def peakSet (ok : Bool) (d : Design) (sr f q g : F32) (s : State) : CoeffSet × State :=
  if ok then (d.peak sr f q g, s) else (freeSetAt s 0, takeFree 5 s)

/-- The `n` sections of one cut filter a command writes, by the designer `sect`; free values where a contract of the
command fails (60_exceptions.md R206). Entries from `n` on are not used. -/
def cutSets (ok : Bool) (sect : F32 → F32 → Nat → Nat → CoeffSet) (sr f : F32) (n : Nat) (s : State) :
    Four CoeffSet × State :=
  if ok then (sections (sect sr f n), s) else (sections fun k => freeSetAt s (5 * k), takeFree (5 * n) s)

/-- Record ContractViolation naming the command, where a contract failed (60_exceptions.md R206). -/
def recordUnless (ok : Bool) (cmd : Instr) (s : State) : State :=
  if ok then s else record (.contractViolation cmd) s

/-- Every contract of the latched snapshot holds (42_control.md R175). -/
def snapshotContract (s : State) : Bool :=
  peakContract s.sr s.latch.pf s.latch.pq s.latch.pg && cutContract s.sr s.latch.lf && cutContract s.sr s.latch.hf

/-- The atomic design-and-install step, with designer `d`, of the command `cmd`: the same sets go to both channels, and
DOUT, DESIGN_N, the ARG registers and every delay line are left alone (42_control.md R175). Where any contract of the
snapshot fails, no coefficient word written gets a value (60_exceptions.md R206; log entry 9). -/
def designInstall (d : Design) (cmd : Instr) (s : State) : State :=
  let ok := snapshotContract s
  let s0 := recordUnless ok cmd s
  let p := peakSet ok d s.sr s.latch.pf s.latch.pq s.latch.pg s0
  let l := cutSets ok d.highpass s.sr s.latch.lf (slopeCount s.latch.ls) p.2
  let h := cutSets ok d.lowpass s.sr s.latch.hf (slopeCount s.latch.hs) l.2
  forChannels bothChannels (setHighCut (slopeCount s.latch.hs) h.1)
    (forChannels bothChannels (setLowCut (slopeCount s.latch.ls) l.1)
      (forChannels bothChannels (setPeak p.1) h.2))

/-- The eight steps of UPDATE, as part of the command `cmd` (20_memory.md R75). -/
def updateSteps (d : Design) (cmd : Instr) (s : State) : State :=
  designInstall d cmd (paramTurn (snapshotPhase s))

/-- UPDATE (42_control.md R174, R175). -/
def execUpdate (s : State) : Host.Outcome State Fault Refusal :=
  .next (updateSteps Config.design .update s)

end Sys2Proof.Machine
end

