-- ==== Sys2Proof/Machine/Cascade.lean ====
section
/-! DEFINITION. The stage-file commands: SET.PEAK, SET.LC, SET.HC and PROCESS (41_cascade.md R149 to R152). -/

namespace Sys2Proof.Machine

/-- SET.PEAK (41_cascade.md R149). -/
def execSetPeak (ch : ChMask) (s : State) : Host.Outcome State Fault Refusal :=
  .next (forChannels ch (setPeak s.dout.e0) s)

/-- SET.LC (41_cascade.md R150). -/
def execSetLc (ch : ChMask) (n : Nat) (s : State) : Host.Outcome State Fault Refusal :=
  .next (forChannels ch (setLowCut n s.dout) s)

/-- SET.HC (41_cascade.md R151). -/
def execSetHc (ch : ChMask) (n : Nat) (s : State) : Host.Outcome State Fault Refusal :=
  .next (forChannels ch (setHighCut n s.dout) s)

/-- One sample of a block: `BUF[c][i] <- chain_step(c, BUF[c][i])` (41_cascade.md R152). -/
def processSample (c : Chan) (i : Nat) (s : State) : State :=
  let r := readBuf c i s
  let y := (r.2.chain c).step r.1
  writeBuf c i y.1 (r.2.setChain c y.2)

/-- `n` samples of a channel's block from index `i` on, in index order. -/
def processFrom (c : Chan) : (n i : Nat) → State → State
  | 0, _, s => s
  | n + 1, i, s => processFrom c n (i + 1) (processSample c i s)

/-- The atomic block step of PROCESS: the samples 0..LEN-1 of each selected channel (41_cascade.md R152). -/
def processBlock (ch : ChMask) (len : Nat) (s : State) : State :=
  forChannels ch (fun c s => processFrom c len 0 s) s

/-- PROCESS (41_cascade.md R152): the length is checked before anything else; U = 1 runs the eight steps of UPDATE
before the block step, with Host-P's turn between (20_memory.md R75). A contract violation there names this command
(DEDUCED, log entry 13). -/
def execProcess (ch : ChMask) (u : Bool) (len : Nat) (s : State) : Host.Outcome State Fault Refusal :=
  if lengthAccepted s len then
    .next (processBlock ch len
      (if u then paramTurn (updateSteps Config.design (.process ch u len) s) else s))
  else .next (raiseError badLength s)

end Sys2Proof.Machine
end

