-- ==== Sys2Proof/Machine/DesignCommands.lean ====
section
/-! DEFINITION. The design commands: DESIGN.PEAK, DESIGN.LC and DESIGN.HC (40_designer.md R120 to R122). -/

namespace Sys2Proof.Machine

/-- The first `n` entries of DOUT replaced, the others kept (40_designer.md R121). -/
def writeDout (n : Nat) (sets : Four CoeffSet) (s : State) : State :=
  { s with dout := s.dout.mapIdx fun k old => if k < n then sets.get k else old, designN := BitVec.ofNat 3 n }

/-- DESIGN.PEAK with designer `d` (40_designer.md R120). -/
def designPeakWith (d : Design) (s : State) : State :=
  let ok := peakContract s.argSr s.argFreq s.argQ s.argGainDb
  let s0 := recordUnless ok .designPeak s
  let p := peakSet ok d s.argSr s.argFreq s.argQ s.argGainDb s0
  writeDout 1 (sections fun _ => p.1) p.2

/-- A cut design command with section designer `sect` (40_designer.md R121, R122). -/
def designCutWith (sect : F32 → F32 → Nat → Nat → CoeffSet) (cmd : Instr) (n : Nat) (s : State) : State :=
  let ok := cutContract s.argSr s.argFreq
  let s0 := recordUnless ok cmd s
  let r := cutSets ok sect s.argSr s.argFreq n s0
  writeDout n r.1 r.2

/-- DESIGN.PEAK (40_designer.md R120). -/
def execDesignPeak (s : State) : Host.Outcome State Fault Refusal := .next (designPeakWith Config.design s)

/-- DESIGN.LC (40_designer.md R121). -/
def execDesignLc (n : Nat) (s : State) : Host.Outcome State Fault Refusal :=
  .next (designCutWith Config.design.highpass (.designLc n) n s)

/-- DESIGN.HC (40_designer.md R122). -/
def execDesignHc (n : Nat) (s : State) : Host.Outcome State Fault Refusal :=
  .next (designCutWith Config.design.lowpass (.designHc n) n s)

end Sys2Proof.Machine
end

