-- ==== Sys2Proof/Machine/Dispatch.lean ====
section
/-! DEFINITION. The dispatch of a command to its meaning, one arm per row of the opcode table (30_encoding.md R94). -/

namespace Sys2Proof.Machine

def exec (i : Instr) (s : State) : Host.Outcome State Fault Refusal :=
  match i with
  | .nop => Sys2Proof.Machine.execNop s
  | .prepare => Sys2Proof.Machine.execPrepare s
  | .release => Sys2Proof.Machine.execRelease s
  | .update => Sys2Proof.Machine.execUpdate s
  | .process ch u len => Sys2Proof.Machine.execProcess ch u len s
  | .designPeak => Sys2Proof.Machine.execDesignPeak s
  | .designLc n => Sys2Proof.Machine.execDesignLc n s
  | .designHc n => Sys2Proof.Machine.execDesignHc n s
  | .setPeak ch => Sys2Proof.Machine.execSetPeak ch s
  | .setLc ch n => Sys2Proof.Machine.execSetLc ch n s
  | .setHc ch n => Sys2Proof.Machine.execSetHc ch n s

end Sys2Proof.Machine
end

