-- ==== Sys2Proof/Machine/Issue.lean ====
section
/-! DEFINITION. The execution of a command word and Host-A's accesses (60_exceptions.md R200, 20_memory.md R69). -/

namespace Sys2Proof.Machine

/-- `execute(w)` (60_exceptions.md R200): a word that carries no command raises error 1. -/
def execute (w : Word) (s : State) : Host.Outcome State Fault Refusal :=
  match decode w with
  | .ok i => exec i s
  | .error _ => .next (raiseError illegalCommand s)

/-- `MemWrite` on Host-A's port (20_memory.md R69): a write of CMD executes its word. -/
def hostAWrite (a : Addr) (v : Word) (s : State) : Host.Outcome State Fault Refusal :=
  match locOf a with
  | .cmd => execute v s
  | l => .next (writeLoc l v s)

/-- The next access of Host-A, or the reset input. With none to come, nothing changes (log entry 7). -/
def controlTurn (s : State) : Host.Outcome State Fault Refusal :=
  match s.hostA with
  | [] => .next s
  | .reset :: rest => .next (resetEvent { s with hostA := rest })
  | .read a :: rest => .next (hostARead a { s with hostA := rest })
  | .write a v :: rest => hostAWrite a v { s with hostA := rest }

/-- One step of the total order of 20_memory.md R74: Host-P's next access, or where Host-P leaves the turn, Host-A's. -/
def turn (s : State) : Host.Outcome State Fault Refusal :=
  match s.hostP with
  | [] => controlTurn s
  | .yield :: rest => controlTurn { s with hostP := rest }
  | .read a :: rest => .next (hostPRead a { s with hostP := rest })
  | .write a v :: rest => .next (hostPWrite a v { s with hostP := rest })

/-- The byte address of CMD (20_memory.md R66). -/
def cmdAddr : Addr := 0x0008#14

/-- A state in which Host-A's next access writes the command word `w`, and Host-P leaves it the turn. -/
def issue (w : Word) (s : State) : State :=
  { s with hostA := .write cmdAddr w :: s.hostA, hostP := .yield :: s.hostP }

end Sys2Proof.Machine
end

