-- ==== Sys2Proof/Machine/Step.lean ====
section
/-! DEFINITION. One step of the machine. -/

namespace Sys2Proof.Machine

/-- One step: the next host access, a command being one access (20_memory.md R73 to R75). -/
def step (s : State) : Host.Outcome State Fault Refusal := turn s

/-- The state whose very next step executes the command word of `nbits` bits `w`. WC-BQ fetches nothing
(10_state.md R21): a command is the word of a CMD write, so the word is placed as Host-A's next access (log entry 7). -/
def State.withFetchWord (s : State) (nbits w : Nat) : State := issue (BitVec.ofNat 32 (w % 2 ^ nbits)) s

end Sys2Proof.Machine
end

