-- ==== Sys2Proof/Machine/Exact.lean ====
section
/-! DEFINITION. The exact real numbers the spec's rules speak of, for statements about the arithmetic and the designer.
No step of the machine uses them: they are what its computed values are compared with. -/

namespace Sys2Proof

/-- `real(a)`: the exact real value of a finite pattern (00_scope.md R10). -/
noncomputable def F32.real (a : F32) : ℝ := (F32.units a : ℝ) / 2 ^ 149

/-- `v` is RN32(r) (00_scope.md R10): +0.0 for 0; an infinity from the overflow threshold of roundTiesToEven on, which
is half a unit in the last place above the largest finite value; otherwise the nearest finite pattern, the even one of
two that are equally near, with the sign of `r`. -/
def F32.IsRN32 (r : ℝ) (v : F32) : Prop :=
  (r = 0 → v = 0x00000000#32) ∧
  (2 ^ 128 - 2 ^ 103 ≤ r → v = 0x7F800000#32) ∧
  (r ≤ -(2 ^ 128 - 2 ^ 103) → v = 0xFF800000#32) ∧
  (r ≠ 0 → |r| < 2 ^ 128 - 2 ^ 103 →
    F32.isFinite v = true ∧ (F32.sign v = true ↔ r < 0) ∧
    (∀ w : F32, F32.isFinite w = true → |F32.real v - r| ≤ |F32.real w - r|) ∧
    (∀ w : F32, F32.isFinite w = true → F32.real w ≠ F32.real v → |F32.real w - r| = |F32.real v - r| →
      v.toNat % 2 = 0))

/-- Five exact real coefficients. -/
structure Exact where
  b0 : ℝ
  b1 : ℝ
  b2 : ℝ
  a1 : ℝ
  a2 : ℝ

/-- Every word of a coefficient set is RN32 of the exact coefficient (40_designer.md R111). -/
def CoeffSet.Rounds (cs : CoeffSet) (e : Exact) : Prop :=
  F32.IsRN32 e.b0 cs.b0 ∧ F32.IsRN32 e.b1 cs.b1 ∧ F32.IsRN32 e.b2 cs.b2 ∧ F32.IsRN32 e.a1 cs.a1 ∧
  F32.IsRN32 e.a2 cs.a2

/-- The peaking-EQ formulas (40_designer.md R112), before rounding. -/
noncomputable def Exact.peak (sr f q g : ℝ) : Exact :=
  let G := (10 : ℝ) ^ (g / 20)
  let A := Real.sqrt G
  let w := 2 * Real.pi * f / sr
  let alpha := Real.sin w / (2 * q)
  let a0 := 1 + alpha / A
  { b0 := (1 + alpha * A) / a0
    b1 := -2 * Real.cos w / a0
    b2 := (1 - alpha * A) / a0
    a1 := -2 * Real.cos w / a0
    a2 := (1 - alpha / A) / a0 }

/-- `Q_k`, the quality of section `k` of the cut filter of stage count `n` (40_designer.md R114). -/
noncomputable def Exact.quality (n k : Nat) : ℝ := 1 / (2 * Real.cos ((2 * k + 1) * Real.pi / (4 * n)))

/-- The high-pass section formulas (40_designer.md R115), before rounding. -/
noncomputable def Exact.highpass (sr f : ℝ) (n k : Nat) : Exact :=
  let K := Real.tan (Real.pi * f / sr)
  let c1 := 1 / (1 + K / Exact.quality n k + K * K)
  { b0 := c1
    b1 := -2 * c1
    b2 := c1
    a1 := 2 * c1 * (K * K - 1)
    a2 := c1 * (1 - K / Exact.quality n k + K * K) }

/-- The low-pass section formulas (40_designer.md R116), before rounding. -/
noncomputable def Exact.lowpass (sr f : ℝ) (n k : Nat) : Exact :=
  let m := 1 / Real.tan (Real.pi * f / sr)
  let c1 := 1 / (1 + m / Exact.quality n k + m * m)
  { b0 := c1
    b1 := 2 * c1
    b2 := c1
    a1 := 2 * c1 * (1 - m * m)
    a2 := c1 * (1 - m / Exact.quality n k + m * m) }

/-- The transfer function of a coefficient set at `z` (00_scope.md R14), written with `u = 1 / z`. -/
noncomputable def Exact.transfer (e : Exact) (u : ℂ) : ℂ :=
  (e.b0 + e.b1 * u + e.b2 * u ^ 2) / (1 + e.a1 * u + e.a2 * u ^ 2)

/-- The designer `d` is the reference designer of 40_designer.md R111: correctly rounded on every in-contract
operand. -/
structure Design.IsReference (d : Design) (peakOk : F32 → F32 → F32 → F32 → Bool) (cutOk : F32 → F32 → Bool) : Prop where
  peak : ∀ sr f q g, peakOk sr f q g = true →
    (d.peak sr f q g).Rounds (Exact.peak (F32.real sr) (F32.real f) (F32.real q) (F32.real g))
  highpass : ∀ sr f n k, cutOk sr f = true → 1 ≤ n → n ≤ 4 → k < n →
    (d.highpass sr f n k).Rounds (Exact.highpass (F32.real sr) (F32.real f) n k)
  lowpass : ∀ sr f n k, cutOk sr f = true → 1 ≤ n → n ≤ 4 → k < n →
    (d.lowpass sr f n k).Rounds (Exact.lowpass (F32.real sr) (F32.real f) n k)

end Sys2Proof
end

