-- ==== Sys2Proof/Safety.lean ====
section
/-! DEFINITION. What statements mean by a safe run: no model fault recorded, and the invariant of the state the spec
states. -/

namespace Sys2Proof.Machine

/-- The invariant of a cut filter (10_state.md R27, R28): the stage count N is 1..4, stages [0, N) are enabled and
stages [N, 4) bypassed. -/
def Cut.Inv (f : Cut) : Prop :=
  1 ≤ f.count.toNat ∧ f.count.toNat ≤ 4 ∧
  ∀ i, i < 4 → (f.stages.get i).bypass = decide (f.count.toNat ≤ i)

def Chain.Inv (h : Chain) : Prop := h.lowCut.Inv ∧ h.highCut.Inv

/-- The legal values of STATUS: ERRCODE is 0 while ERR is 0, and 1, 2 or 3 while ERR is 1 (10_state.md R32,
60_exceptions.md R205). -/
def State.statusLegal (s : State) : Prop :=
  (s.err = false → s.errCode = 0#4) ∧ (s.err = true → 1 ≤ s.errCode.toNat ∧ s.errCode.toNat ≤ 3)

/-- The sample buffers hold whole words inside 0x2000 to 0x3FFF, in the canonical form (10_state.md R40,
20_memory.md R65, R68). -/
def Memory.inBuffers (m : Memory) : Prop :=
  m.wf = true ∧ (∀ c ∈ m, 0x2000 ≤ c.1 ∧ c.1 < 0x4000) ∧
  ∀ a, a % 4 = 0 → ∀ k, k < 4 → ((m.read a).isSome ↔ (m.read (a + k)).isSome)

/-- The invariant of the machine: the legal values the spec states for its registers (10_state.md R27, R28, R32, R35,
R38), and the form of the buffers. -/
structure State.Inv (s : State) : Prop where
  left    : s.chainL.Inv
  right   : s.chainR.Inv
  status  : s.statusLegal
  rate    : F32.finitePos s.sr = true
  block   : 1 ≤ s.maxblk.toNat ∧ s.maxblk.toNat ≤ Config.bufDepth
  designN : s.designN.toNat ≤ 4
  buffers : s.mem.inBuffers

/-! ### What statements say of a change -/

/-- `new` is `old` with every delay word +0.0 and every other word and both stage counts as they were, as the hosts read
them (10_state.md R24, R27). -/
def Chain.clearedFrom (old new : Chain) : Prop :=
  (∀ slot j, slot < 9 → j < 8 → slotWord new slot j = if j = 5 ∨ j = 6 then 0x00000000#32 else slotWord old slot j) ∧
  new.lowCut.count = old.lowCut.count ∧ new.highCut.count = old.highCut.count

/-- `new` is `old` after `setSlope` with the sections `sect 0` to `sect (n - 1)` (41_cascade.md R150): stages [0, n) hold
their section, are enabled and keep their delay line; stages [n, 4) are bypassed and keep everything else. -/
def Cut.slopedFrom (n : Nat) (sect : Nat → CoeffSet) (old new : Cut) : Prop :=
  new.count.toNat = n ∧
  ∀ i, i < 4 →
    (i < n → new.stages.get i =
      { bq := { (old.stages.get i).bq with cs := sect i }, bypass := false }) ∧
    (n ≤ i → new.stages.get i = { (old.stages.get i) with bypass := true })

/-- A zero word of either sign. -/
def zeroWord (x : F32) : Prop := x = 0x00000000#32 ∨ x = 0x80000000#32

/-- The five coefficients are finite. -/
def finiteSet (cs : CoeffSet) : Prop :=
  F32.isFinite cs.b0 = true ∧ F32.isFinite cs.b1 = true ∧ F32.isFinite cs.b2 = true ∧
  F32.isFinite cs.a1 = true ∧ F32.isFinite cs.a2 = true

/-- A biquad at rest: finite coefficients and a delay line of zeros of either sign (41_cascade.md R153). -/
def Biquad.quiet (b : Biquad) : Prop := finiteSet b.cs ∧ zeroWord b.s1 ∧ zeroWord b.s2

/-- Every enabled stage of a cut filter is at rest. -/
def Cut.quiet (f : Cut) : Prop := ∀ i, i < 4 → (f.stages.get i).bypass = false → (f.stages.get i).bq.quiet

/-- Every enabled stage of a channel is at rest. -/
def Chain.quiet (h : Chain) : Prop := h.lowCut.quiet ∧ h.peak.quiet ∧ h.highCut.quiet

/-- A channel's filter run over a list of samples, oldest first: the outputs and the chain it leaves
(41_cascade.md R146, R152). -/
def runChain (h : Chain) : List F32 → List F32 × Chain
  | [] => ([], h)
  | x :: rest => ((h.step x).1 :: (runChain (h.step x).2 rest).1, (runChain (h.step x).2 rest).2)

/-- The first `len` words of a channel's buffer, where they have been written. -/
def bufWords (s : State) (c : Chan) (len : Nat) : List (Option Word) :=
  (List.range len).map fun i => s.mem.readWord (bufAddr c i)

/-- A byte address outside the first `len` words of the buffers of the selected channels. -/
def outsideBlock (ch : ChMask) (len a : Nat) : Prop :=
  ∀ c, selects ch c = true → ∀ i, i < len → a < bufAddr c i ∨ bufAddr c i + 4 ≤ a

/-- What one access of Host-P does; leaving the turn does nothing (20_memory.md R63). -/
def paramAccess (s : State) : ParamInput → State
  | .read a => hostPRead a s
  | .write a v => hostPWrite a v s
  | .yield => s

/-- Accesses of Host-P, oldest first. -/
def paramAccesses (l : List ParamInput) (s : State) : State := l.foldl paramAccess s

/-- No model fault has been recorded: nothing the machine has computed rests on a free value (60_exceptions.md R206,
R207). -/
def State.clean (s : State) : Prop := s.faults = []

end Sys2Proof.Machine
end

