-- ==== Sys2Proof/Certificates/Slice0/Obligations.lean ====
section
/-! DEFINITION. The statements about the machine, each from the rule its docstring names. -/

open Sys2Proof Sys2Proof.Machine

/-! ### Encoding -/

/-- Decoding the word of any well-formed command gives the command back, with every operand (30_encoding.md R91, R92,
R94). -/
def Obligations.DecodeAfterEncode : Prop :=
  ∀ i : Instr, i.wf = true → decode (encode i) = .ok i

/-- A word that decodes is the word of the command it carries, and that command is well formed: no bit of a legal word
is dropped (30_encoding.md R91, R96). -/
def Obligations.EncodeAfterDecode : Prop :=
  ∀ (w : Word) (i : Instr), decode w = .ok i → i.wf = true ∧ encode i = w

/-- 30_encoding.md R96: a word is legal exactly when it matches exactly one row of the mask and match table R95, which is
then the row of the command it decodes to; a word that is not legal matches none. -/
def Obligations.LegalWordMatchesOneRow : Prop :=
  ∀ w : Word,
    ((∃ i, decode w = .ok i) ↔ (rows.filter fun r => r.hit w).length = 1) ∧
    (∀ i, decode w = .ok i → (rows.filter fun r => r.hit w).map (fun r => r.mnemonic) = [i.mnemonic]) ∧
    (∀ e, decode w = .error e → (rows.filter fun r => r.hit w) = [])

/-- The worked encodings of 30_encoding.md R100. -/
def Obligations.WorkedEncodings : Prop :=
  decode 0x00400134#32 = .ok (.process { left := true, right := true } true 64) ∧
  decode 0x00010014#32 = .ok (.process { left := true, right := false } false 1) ∧
  decode 0x000000C6#32 = .ok (.designLc 4) ∧
  decode 0x0000006A#32 = .ok (.setHc { left := false, right := true } 2) ∧
  decode 0x00000038#32 = .ok (.setPeak { left := true, right := true }) ∧
  decode 0x00000003#32 = .ok .update

/-! ### Issuing a command, and command errors -/

/-- 60_exceptions.md R200: a Host-A write of a legal word to CMD executes exactly the command it carries, whether Host-P
has no access to come or leaves the turn; and so does the step after `withFetchWord`. (That the accesses to come stand in
lists, that Host-P leaves the turn in its own, and what `withFetchWord` places are the model's choice, log entry 7.) -/
def Obligations.StepExecutesTheCommand : Prop :=
  ∀ (s : State) (w : Word) (i : Instr), decode w = .ok i →
    (∀ a rest, a.toNat / 4 = 2 → s.hostA = .write a w :: rest → s.hostP = [] →
      step s = exec i { s with hostA := rest }) ∧
    (∀ a rest p, a.toNat / 4 = 2 → s.hostA = .write a w :: rest → s.hostP = .yield :: p →
      step s = exec i { s with hostA := rest, hostP := p }) ∧
    step (s.withFetchWord 32 w.toNat) = exec i s

/-- 20_memory.md R73 and R74: one step is one host access, Host-P's first; where Host-P has none or leaves the turn, it is
Host-A's read or write, or the reset input. With none to come nothing changes (log entry 7, the model's choice). -/
def Obligations.StepTakesTheNextAccess : Prop :=
  ∀ s : State,
    (∀ a rest, s.hostP = .read a :: rest → step s = .next (hostPRead a { s with hostP := rest })) ∧
    (∀ a v rest, s.hostP = .write a v :: rest → step s = .next (hostPWrite a v { s with hostP := rest })) ∧
    (∀ p, s.hostP = [] ∧ p = [] ∨ s.hostP = .yield :: p →
      (∀ a rest, s.hostA = .read a :: rest → step s = .next (hostARead a { s with hostA := rest, hostP := p })) ∧
      (∀ a v rest, s.hostA = .write a v :: rest → step s = hostAWrite a v { s with hostA := rest, hostP := p }) ∧
      (∀ rest, s.hostA = .reset :: rest → step s = .next (resetEvent { s with hostA := rest, hostP := p })) ∧
      (s.hostA = [] → step s = .next { s with hostP := p }))

/-- 60_exceptions.md R202 with R201: a CMD word that matches no row raises error 1 and does nothing else; an error
already recorded keeps its code. So it is of Host-A's write, and of the step that takes that write, where Host-P has no
access to come or leaves the turn. (The lists of accesses to come are the model's choice, log entry 7.) -/
def Obligations.IllegalWordRaisesErrorOne : Prop :=
  ∀ (s : State) (w : Word) (a : Addr), (rows.filter fun r => r.hit w) = [] → a.toNat / 4 = 2 →
    (s.err = false → hostAWrite a w s = .next { s with err := true, errCode := 1#4 }) ∧
    (s.err = true → hostAWrite a w s = .next s) ∧
    ∀ rest p, s.hostA = .write a w :: rest → s.hostP = [] ∧ p = [] ∨ s.hostP = .yield :: p →
      (s.err = false → step s = .next { s with hostA := rest, hostP := p, err := true, errCode := 1#4 }) ∧
      (s.err = true → step s = .next { s with hostA := rest, hostP := p })

/-- 60_exceptions.md R201: raising an error sets ERR and ERRCODE only while ERR is 0, and changes nothing else. -/
def Obligations.RaiseErrorKeepsFirstCode : Prop :=
  ∀ (code : BitVec 4) (s : State),
    (s.err = false → raiseError code s = { s with err := true, errCode := code }) ∧
    (s.err = true → raiseError code s = s)

/-- 60_exceptions.md R212, 10_state.md R32: a Host-A write of STATUS with bit 0 = 1 sets ERR and ERRCODE to 0, and one
with bit 0 = 0 changes nothing. -/
def Obligations.StatusWriteClearsError : Prop :=
  ∀ (s : State) (v : Word) (a : Addr), a.toNat / 4 = 1 →
    (v.getLsbD 0 = true → hostAWrite a v s = .next { s with err := false, errCode := 0#4 }) ∧
    (v.getLsbD 0 = false → hostAWrite a v s = .next s)

/-- 60_exceptions.md R200: a command that raises an error raises it before it changes any state. Whenever a command
changes STATUS, it changes nothing else. -/
def Obligations.ErringCommandChangesOnlyStatus : Prop :=
  ∀ (i : Instr) (s t : State), exec i s = .next t → ¬ (t.err = s.err ∧ t.errCode = s.errCode) →
    s.err = false ∧ t = { s with err := true, errCode := t.errCode }

/-- 60_exceptions.md R212: STATUS.ERR does not block commands. Two states that differ only in STATUS are taken by any
command to two states that differ at most in STATUS. -/
def Obligations.ErrorStatusDoesNotBlock : Prop :=
  ∀ (i : Instr) (s : State) (e : Bool) (k : BitVec 4), ∃ t u,
    exec i s = .next t ∧ exec i { s with err := e, errCode := k } = .next u ∧
    u = { t with err := u.err, errCode := u.errCode }

/-- Every command of the set completes in every state: none ends in a fault or a refusal (60_exceptions.md R206, R211). -/
def Obligations.EveryCommandCompletes : Prop :=
  ∀ (i : Instr) (s : State), ∃ t, exec i s = .next t

/-! ### Lifecycle commands -/

/-- 42_control.md R171: NOP is the word 0x00000000 exactly, and changes no state. -/
def Obligations.NopChangesNothing : Prop :=
  (∀ w : Word, decode w = .ok .nop ↔ w = 0x00000000#32) ∧ ∀ s : State, exec .nop s = .next s

/-- 42_control.md R172: a PREPARE whose operands are accepted latches SR and MAXBLK and sets all 36 delay words to +0.0;
every other word of the stage file and every other piece of state is unchanged. -/
def Obligations.PrepareLatchesAndClears : Prop :=
  ∀ s : State, F32.isFinite s.srReq = true → 0 < F32.units s.srReq →
    1 ≤ s.maxblkReq.toNat → s.maxblkReq.toNat ≤ 1024 →
    ∃ t, exec .prepare s = .next t ∧
      t = { s with sr := s.srReq, maxblk := s.maxblkReq, chainL := t.chainL, chainR := t.chainR } ∧
      s.chainL.clearedFrom t.chainL ∧ s.chainR.clearedFrom t.chainR

/-- 60_exceptions.md R204 with R201: a PREPARE whose SR_REQ is not finite and greater than 0, or whose MAXBLK_REQ is 0 or
above 1024, raises error 3 and does nothing else. -/
def Obligations.PrepareRefusesBadOperands : Prop :=
  ∀ s : State,
    ¬ (F32.isFinite s.srReq = true ∧ 0 < F32.units s.srReq ∧ 1 ≤ s.maxblkReq.toNat ∧ s.maxblkReq.toNat ≤ 1024) →
    (s.err = false → exec .prepare s = .next { s with err := true, errCode := 3#4 }) ∧
    (s.err = true → exec .prepare s = .next s)

/-- 42_control.md R173: RELEASE is the word 0x00000002 exactly; it sets all 36 delay words to +0.0 and changes nothing
else; twice is once. -/
def Obligations.ReleaseClearsDelayLines : Prop :=
  (∀ w : Word, decode w = .ok .release ↔ w = 0x00000002#32) ∧
  ∀ s : State, ∃ t, exec .release s = .next t ∧ t = { s with chainL := t.chainL, chainR := t.chainR } ∧
    s.chainL.clearedFrom t.chainL ∧ s.chainR.clearedFrom t.chainR ∧ exec .release t = .next t

/-! ### UPDATE -/

/-- 42_control.md R174: with no Host-P access to come, the snapshot phase latches the seven parameter registers and
changes nothing else. -/
def Obligations.SnapshotLatchesParameters : Prop :=
  ∀ s : State, s.hostP = [] →
    snapshotPhase s = { s with latch := { pf := s.peakFreq, pq := s.peakQ, pg := s.peakGainDb, lf := s.lowcutFreq,
                                          ls := s.lowcutSlope, hf := s.highcutFreq, hs := s.highcutSlope } }

/-- 20_memory.md R75 and R76: each of the seven reads of the snapshot is a step of its own, and Host-P's accesses may fall
between any two of them. With the accesses `w1` to `w6` in the six places between the reads, each value latched is its
register's after the accesses before its own read, and nothing else changes but by those accesses. So whatever six values
the reads after the first are to see, some interleaving of writes gives them; the first read, PEAK_FREQ, has no step of
the command before it. (That the accesses stand in a list is the model's choice, log entries 7 and 12.) -/
def Obligations.SnapshotAdmitsEveryMix : Prop :=
  (∀ (s : State) (w1 w2 w3 w4 w5 w6 rest : List ParamInput), .yield ∉ w1 ++ w2 ++ w3 ++ w4 ++ w5 ++ w6 →
    let schedule := w1 ++ .yield :: (w2 ++ .yield :: (w3 ++ .yield :: (w4 ++ .yield :: (w5 ++ .yield ::
      (w6 ++ .yield :: rest)))))
    snapshotPhase { s with hostP := schedule } =
      { paramAccesses (w1 ++ w2 ++ w3 ++ w4 ++ w5 ++ w6) s with
        hostP := rest
        latch := { pf := s.peakFreq
                   pq := (paramAccesses w1 s).peakQ
                   pg := (paramAccesses (w1 ++ w2) s).peakGainDb
                   lf := (paramAccesses (w1 ++ w2 ++ w3) s).lowcutFreq
                   ls := (paramAccesses (w1 ++ w2 ++ w3 ++ w4) s).lowcutSlope
                   hf := (paramAccesses (w1 ++ w2 ++ w3 ++ w4 ++ w5) s).highcutFreq
                   hs := (paramAccesses (w1 ++ w2 ++ w3 ++ w4 ++ w5 ++ w6) s).highcutSlope } }) ∧
  ∀ (s : State) (pq pg lf hf : F32) (ls hs : BitVec 2), ∃ schedule : List ParamInput,
    (snapshotPhase { s with hostP := schedule }).latch =
      { pf := s.peakFreq, pq := pq, pg := pg, lf := lf, ls := ls, hf := hf, hs := hs }

/-- The read steps of UPDATE, with Host-P's accesses among them, change only the seven parameter registers, the latch and
what belongs to Host-P (20_memory.md R63, R75). -/
def Obligations.SnapshotPhaseFrame : Prop :=
  ∀ s : State, let u := paramTurn (snapshotPhase s)
    u = { s with
      lowcutFreq := u.lowcutFreq, highcutFreq := u.highcutFreq, peakFreq := u.peakFreq, peakGainDb := u.peakGainDb,
      peakQ := u.peakQ, lowcutSlope := u.lowcutSlope, highcutSlope := u.highcutSlope, latch := u.latch,
      hostP := u.hostP, readsP := u.readsP }

/-- 42_control.md R175: with `u` the state after the seven reads, an UPDATE whose latched snapshot is in contract installs
the designed peak set and the designed sections, sets the bypass bits and stage counts by the slopes, in both channels,
and changes nothing else: no delay line, not DOUT, not DESIGN_N, not an ARG register. -/
def Obligations.UpdateInstallsDesigns : Prop :=
  ∀ s : State, let u := paramTurn (snapshotPhase s)
    peakContract u.sr u.latch.pf u.latch.pq u.latch.pg = true → cutContract u.sr u.latch.lf = true →
    cutContract u.sr u.latch.hf = true →
    ∃ t, exec .update s = .next t ∧ t = { u with chainL := t.chainL, chainR := t.chainR } ∧
      ∀ c, (t.chain c).peak = { (s.chain c).peak with
              cs := Config.design.peak u.sr u.latch.pf u.latch.pq u.latch.pg } ∧
        (s.chain c).lowCut.slopedFrom (u.latch.ls.toNat + 1)
          (Config.design.highpass u.sr u.latch.lf (u.latch.ls.toNat + 1)) (t.chain c).lowCut ∧
        (s.chain c).highCut.slopedFrom (u.latch.hs.toNat + 1)
          (Config.design.lowpass u.sr u.latch.hf (u.latch.hs.toNat + 1)) (t.chain c).highCut

/-- 60_exceptions.md R206 for UPDATE: out of contract the command still completes, records ContractViolation, installs
coefficients of no stated value in both channels, and has the rest of its effect: bypass bits and stage counts by the
slopes, delay lines and everything else unchanged. -/
def Obligations.UpdateOutOfContract : Prop :=
  ∀ s : State, let u := paramTurn (snapshotPhase s)
    ¬ (peakContract u.sr u.latch.pf u.latch.pq u.latch.pg = true ∧ cutContract u.sr u.latch.lf = true ∧
       cutContract u.sr u.latch.hf = true) →
    ∃ (t : State) (p : CoeffSet) (l h : Nat → CoeffSet), exec .update s = .next t ∧
      t = { u with chainL := t.chainL, chainR := t.chainR, faults := t.faults, freeCount := t.freeCount } ∧
      .contractViolation .update ∈ t.faults ∧
      ∀ c, (t.chain c).peak = { (s.chain c).peak with cs := p } ∧
        (s.chain c).lowCut.slopedFrom (u.latch.ls.toNat + 1) l (t.chain c).lowCut ∧
        (s.chain c).highCut.slopedFrom (u.latch.hs.toNat + 1) h (t.chain c).highCut

/-- 42_control.md R176, the stereo link: after an UPDATE the two channels hold bit-identical coefficients in every enabled
stage, and identical bypass bits and stage counts. -/
def Obligations.UpdateLinksChannels : Prop :=
  ∀ s : State, ∃ t, exec .update s = .next t ∧
    t.chainL.peak.cs = t.chainR.peak.cs ∧ t.chainL.lowCut.count = t.chainR.lowCut.count ∧
    t.chainL.highCut.count = t.chainR.highCut.count ∧
    ∀ i, i < 4 →
      (t.chainL.lowCut.stages.get i).bypass = (t.chainR.lowCut.stages.get i).bypass ∧
      (t.chainL.highCut.stages.get i).bypass = (t.chainR.highCut.stages.get i).bypass ∧
      ((t.chainL.lowCut.stages.get i).bypass = false →
        (t.chainL.lowCut.stages.get i).bq.cs = (t.chainR.lowCut.stages.get i).bq.cs) ∧
      ((t.chainL.highCut.stages.get i).bypass = false →
        (t.chainL.highCut.stages.get i).bq.cs = (t.chainR.highCut.stages.get i).bq.cs)

/-- 42_control.md R178: repeating an UPDATE with unchanged parameters and SR, in contract, leaves the state unchanged. -/
def Obligations.UpdateRepeatedChangesNothing : Prop :=
  ∀ s : State, s.hostP = [] → peakContract s.sr s.peakFreq s.peakQ s.peakGainDb = true →
    cutContract s.sr s.lowcutFreq = true → cutContract s.sr s.highcutFreq = true →
    ∃ t, exec .update s = .next t ∧ exec .update t = .next t

/-! ### The design commands -/

/-- 40_designer.md R120: in contract, DESIGN.PEAK writes the peak design of the ARG registers to DOUT[0] and 1 to DESIGN_N,
and changes nothing else. -/
def Obligations.DesignPeakWritesDout : Prop :=
  ∀ s : State, peakContract s.argSr s.argFreq s.argQ s.argGainDb = true →
    exec .designPeak s = .next { s with
      dout := { s.dout with e0 := Config.design.peak s.argSr s.argFreq s.argQ s.argGainDb }, designN := 1#3 }

/-- 40_designer.md R121: in contract, DESIGN.LC writes the N high-pass sections of the ARG registers to DOUT[0..N-1] and N
to DESIGN_N, and changes nothing else. -/
def Obligations.DesignLcWritesDout : Prop :=
  ∀ (n : Nat) (s : State), 1 ≤ n → n ≤ 4 → cutContract s.argSr s.argFreq = true →
    ∃ t, exec (.designLc n) s = .next t ∧ t = { s with dout := t.dout, designN := t.designN } ∧ t.designN.toNat = n ∧
      ∀ k, k < 4 → (k < n → t.dout.get k = Config.design.highpass s.argSr s.argFreq n k) ∧
        (n ≤ k → t.dout.get k = s.dout.get k)

/-- 40_designer.md R122: as R121, with the low-pass sections. -/
def Obligations.DesignHcWritesDout : Prop :=
  ∀ (n : Nat) (s : State), 1 ≤ n → n ≤ 4 → cutContract s.argSr s.argFreq = true →
    ∃ t, exec (.designHc n) s = .next t ∧ t = { s with dout := t.dout, designN := t.designN } ∧ t.designN.toNat = n ∧
      ∀ k, k < 4 → (k < n → t.dout.get k = Config.design.lowpass s.argSr s.argFreq n k) ∧
        (n ≤ k → t.dout.get k = s.dout.get k)

/-- 60_exceptions.md R206 for the design commands: out of contract each still completes, records ContractViolation naming
itself, writes DESIGN_N and only its own DOUT entries, and changes nothing else the spec names. -/
def Obligations.DesignOutOfContract : Prop :=
  ∀ s : State,
    (peakContract s.argSr s.argFreq s.argQ s.argGainDb = false →
      ∃ t, exec .designPeak s = .next t ∧
        t = { s with dout := t.dout, designN := 1#3, faults := t.faults, freeCount := t.freeCount } ∧
        .contractViolation .designPeak ∈ t.faults ∧ ∀ k, 1 ≤ k → k < 4 → t.dout.get k = s.dout.get k) ∧
    (∀ n, 1 ≤ n → n ≤ 4 → cutContract s.argSr s.argFreq = false →
      (∃ t, exec (.designLc n) s = .next t ∧
        t = { s with dout := t.dout, designN := t.designN, faults := t.faults, freeCount := t.freeCount } ∧
        t.designN.toNat = n ∧ .contractViolation (.designLc n) ∈ t.faults ∧
        ∀ k, n ≤ k → k < 4 → t.dout.get k = s.dout.get k) ∧
      (∃ t, exec (.designHc n) s = .next t ∧
        t = { s with dout := t.dout, designN := t.designN, faults := t.faults, freeCount := t.freeCount } ∧
        t.designN.toNat = n ∧ .contractViolation (.designHc n) ∈ t.faults ∧
        ∀ k, n ≤ k → k < 4 → t.dout.get k = s.dout.get k))

/-- 40_designer.md R111 and R112: every coefficient of the reference peaking design is RN32 of the exact real value of
its formula, in contract, wherever the enclosure settles at one of the model's precisions. (The
precisions and what is done where none settles are the model's, log entry 3; of operands that do not settle this says nothing.) -/
def Obligations.PeakDesignCorrectlyRounded : Prop :=
  ∀ sr f q g : F32, peakContract sr f q g = true →
    (Designer.settle (Designer.peakEncl sr f q g) Designer.precisions).isSome = true →
    (Config.design.peak sr f q g).Rounds (Exact.peak (F32.real sr) (F32.real f) (F32.real q) (F32.real g))

/-- 40_designer.md R111, R114, R115 and R116: the same of every section of the reference cut designs, wherever its
enclosure settles at one of the model's precisions (log entry 3; of sections that do not settle this says nothing). -/
def Obligations.CutDesignsCorrectlyRounded : Prop :=
  ∀ (sr f : F32) (n k : Nat), cutContract sr f = true → n ≤ 4 → k < n →
    ((Designer.settle (Designer.highpassEncl sr f n k) Designer.precisions).isSome = true →
      (Config.design.highpass sr f n k).Rounds (Exact.highpass (F32.real sr) (F32.real f) n k)) ∧
    ((Designer.settle (Designer.lowpassEncl sr f n k) Designer.precisions).isSome = true →
      (Config.design.lowpass sr f n k).Rounds (Exact.lowpass (F32.real sr) (F32.real f) n k))

/-- Relations of 40_designer.md R119 that hold bit for bit of the reference designs: b2 = b0 in a cut section, and b1 is
twice b0 (negated in a high-pass one); the low-pass and high-pass sections of one design share a1 and a2; a1 = b1 in a
peaking set; and at 0 dB its b0 is 1.0 and b2 = a2. Two premises are the model's own and not R119's: that the enclosures
settle (log entry 3), and for the doubling that b0 is above the smallest normal number (log entry 15). -/
def Obligations.ExactRelationsOfDesigns : Prop :=
  ∀ sr f : F32,
    (∀ n k : Nat, cutContract sr f = true → n ≤ 4 → k < n →
      (Designer.settle (Designer.highpassEncl sr f n k) Designer.precisions).isSome = true →
      (Designer.settle (Designer.lowpassEncl sr f n k) Designer.precisions).isSome = true →
      (Config.design.highpass sr f n k).b2 = (Config.design.highpass sr f n k).b0 ∧
      (Config.design.lowpass sr f n k).b2 = (Config.design.lowpass sr f n k).b0 ∧
      (2 ^ 23 < F32.units (Config.design.highpass sr f n k).b0 →
        F32.units (Config.design.highpass sr f n k).b1 = -2 * F32.units (Config.design.highpass sr f n k).b0) ∧
      (2 ^ 23 < F32.units (Config.design.lowpass sr f n k).b0 →
        F32.units (Config.design.lowpass sr f n k).b1 = 2 * F32.units (Config.design.lowpass sr f n k).b0) ∧
      (Config.design.highpass sr f n k).a1 = (Config.design.lowpass sr f n k).a1 ∧
      (Config.design.highpass sr f n k).a2 = (Config.design.lowpass sr f n k).a2) ∧
    (∀ q g : F32, peakContract sr f q g = true →
      (Designer.settle (Designer.peakEncl sr f q g) Designer.precisions).isSome = true →
      (Config.design.peak sr f q g).a1 = (Config.design.peak sr f q g).b1 ∧
      (F32.units g = 0 → (Config.design.peak sr f q g).b0 = 0x3F800000#32 ∧
        (Config.design.peak sr f q g).b2 = (Config.design.peak sr f q g).a2))

/-- 40_designer.md R123: the exact peaking section has gain `10^(g/20)` at its centre frequency `w = 2 pi f / sr`, and gain 1
at DC and at Nyquist. -/
def Obligations.PeakGainAtCentre : Prop :=
  ∀ sr f q g : ℝ, 0 < f → 2 * f < sr → 0 < q →
    ‖(Exact.peak sr f q g).transfer (Complex.exp (-(2 * Real.pi * f / sr : ℝ) * Complex.I))‖ = (10 : ℝ) ^ (g / 20) ∧
    (Exact.peak sr f q g).transfer 1 = 1 ∧ (Exact.peak sr f q g).transfer (-1) = 1

/-- 40_designer.md R123: at every frequency strictly between DC and Nyquist, the response of a low-cut filter, the product of
its sections', approaches unity gain as its cutoff approaches 0 and full attenuation as it approaches `sr/2`; a high-cut
filter does the opposite. -/
def Obligations.CutResponseLimits : Prop :=
  ∀ (sr w : ℝ) (n : Nat), 0 < sr → 0 < w → w < Real.pi → 1 ≤ n → n ≤ 4 →
    let u := Complex.exp (-(w : ℂ) * Complex.I)
    let low := fun f => ∏ k ∈ Finset.range n, ‖(Exact.highpass sr f n k).transfer u‖
    let high := fun f => ∏ k ∈ Finset.range n, ‖(Exact.lowpass sr f n k).transfer u‖
    let toZero := nhdsWithin (0 : ℝ) (Set.Ioi 0)
    let toNyquist := nhdsWithin (sr / 2) (Set.Iio (sr / 2))
    Filter.Tendsto low toZero (nhds 1) ∧ Filter.Tendsto low toNyquist (nhds 0) ∧
    Filter.Tendsto high toZero (nhds 0) ∧ Filter.Tendsto high toNyquist (nhds 1)

/-! ### The SET commands -/

/-- 41_cascade.md R149: SET.PEAK installs DOUT[0] in the peak stage of each selected channel, keeps its delay line, and
changes nothing else. -/
def Obligations.SetPeakInstalls : Prop :=
  ∀ (ch : ChMask) (s : State), ∃ t, exec (.setPeak ch) s = .next t ∧
    t = { s with chainL := t.chainL, chainR := t.chainR } ∧
    ∀ c, (selects ch c = true →
        t.chain c = { s.chain c with peak := { (s.chain c).peak with cs := s.dout.e0 } }) ∧
      (selects ch c = false → t.chain c = s.chain c)

/-- 41_cascade.md R150: SET.LC sets the slope of the low-cut filter of each selected channel from DOUT[0..N-1], whatever its
stage count was, and changes nothing else; a second one changes nothing more. -/
def Obligations.SetLcSetsSlope : Prop :=
  ∀ (ch : ChMask) (n : Nat) (s : State), 1 ≤ n → n ≤ 4 → ∃ t, exec (.setLc ch n) s = .next t ∧
    t = { s with chainL := t.chainL, chainR := t.chainR } ∧
    (∀ c, (selects ch c = true → t.chain c = { s.chain c with lowCut := (t.chain c).lowCut } ∧
        (s.chain c).lowCut.slopedFrom n s.dout.get (t.chain c).lowCut) ∧
      (selects ch c = false → t.chain c = s.chain c)) ∧
    exec (.setLc ch n) t = .next t

/-- 41_cascade.md R151: SET.HC does the same to the high-cut filter. -/
def Obligations.SetHcSetsSlope : Prop :=
  ∀ (ch : ChMask) (n : Nat) (s : State), 1 ≤ n → n ≤ 4 → ∃ t, exec (.setHc ch n) s = .next t ∧
    t = { s with chainL := t.chainL, chainR := t.chainR } ∧
    (∀ c, (selects ch c = true → t.chain c = { s.chain c with highCut := (t.chain c).highCut } ∧
        (s.chain c).highCut.slopedFrom n s.dout.get (t.chain c).highCut) ∧
      (selects ch c = false → t.chain c = s.chain c)) ∧
    exec (.setHc ch n) t = .next t

/-! ### The stage and the block -/

/-- 41_cascade.md R140, R143, R144 and R146: one sample through an enabled stage, in the order and grouping of the rule; a
bypassed stage is exactly the identity and none of its fields changes; a cut filter is its four stages in index order, of
which, by the invariant of 10_state.md R28, those below the stage count are the enabled ones; a channel is its low-cut
filter, its peak stage and its high-cut filter in that order. -/
def Obligations.StageStepFormula : Prop :=
  (∀ (b : Biquad) (x : F32),
    let y := F32.fadd (F32.fmul b.cs.b0 x) b.s1
    b.step x = (y, { b with
      s1 := F32.fadd (F32.fsub (F32.fmul b.cs.b1 x) (F32.fmul b.cs.a1 y)) b.s2
      s2 := F32.fsub (F32.fmul b.cs.b2 x) (F32.fmul b.cs.a2 y) })) ∧
  (∀ (st : Stage) (x : F32),
    (st.bypass = false → st.step x = ((st.bq.step x).1, { st with bq := (st.bq.step x).2 })) ∧
    (st.bypass = true → st.step x = (x, st))) ∧
  (∀ (f : Cut) (x : F32),
    let r0 := (f.stages.get 0).step x
    let r1 := (f.stages.get 1).step r0.1
    let r2 := (f.stages.get 2).step r1.1
    let r3 := (f.stages.get 3).step r2.1
    (f.step x).1 = r3.1 ∧ (f.step x).2.stages.get 0 = r0.2 ∧ (f.step x).2.stages.get 1 = r1.2 ∧
    (f.step x).2.stages.get 2 = r2.2 ∧ (f.step x).2.stages.get 3 = r3.2 ∧ (f.step x).2.count = f.count) ∧
  (∀ f : Cut, f.Inv → ∀ i, i < 4 → ((f.stages.get i).bypass = false ↔ i < f.count.toNat)) ∧
  ∀ (h : Chain) (x : F32),
    let low := h.lowCut.step x
    let peak := h.peak.step low.1
    let high := h.highCut.step peak.1
    h.step x = (high.1, { lowCut := low.2, peak := peak.2, highCut := high.2 })

/-- 41_cascade.md R147: what an enabled stage with the identity set and a zero delay line does to a finite sample, to -0, to
an infinity and to a NaN. (That for -0 the delay word s1 is +0 is the model's reading of the rule, log entry 14.) -/
def Obligations.IdentityStageMapsSamples : Prop :=
  ∀ (b : Biquad) (x : F32), b.cs = CoeffSet.identity → zeroWord b.s1 → zeroWord b.s2 →
    (F32.isFinite x = true → x ≠ 0x80000000#32 → (b.step x).1 = x) ∧
    (x = 0x80000000#32 → b.s1 = 0x00000000#32 → (b.step x).1 = 0x00000000#32) ∧
    (F32.isFinite x = true → zeroWord (b.step x).2.s1 ∧ zeroWord (b.step x).2.s2) ∧
    (F32.isInf x = true → (b.step x).1 = x ∧ (b.step x).2.s1 = 0x7FC00000#32 ∧ (b.step x).2.s2 = 0x7FC00000#32) ∧
    (F32.isNaN x = true → (b.step x).1 = 0x7FC00000#32 ∧ (b.step x).2.s1 = 0x7FC00000#32 ∧
      (b.step x).2.s2 = 0x7FC00000#32)

/-- 70_reset_and_hazards.md R239: a NaN in a stage's delay word s1 makes every later output of the stage NaN, and stays. -/
def Obligations.NanPoisonsStage : Prop :=
  ∀ (b : Biquad) (xs : List F32) (x : F32), F32.isNaN b.s1 = true →
    let b' := xs.foldl (fun b x => (b.step x).2) b
    F32.isNaN b'.s1 = true ∧ (b'.step x).1 = 0x7FC00000#32

/-- 41_cascade.md R152 with U = 0: where the length is accepted and the block's words have been written, PROCESS replaces
each selected channel's words 0..LEN-1 by the outputs of its filter (`Chain.step`, which StageStepFormula spells out) run
over them in order, leaves the chain the run leaves, and changes nothing else: no other channel, no byte outside the
block, no other state. -/
def Obligations.ProcessFiltersBlock : Prop :=
  ∀ (ch : ChMask) (len : Nat) (s : State) (xs : Chan → List F32), 1 ≤ len → len ≤ s.maxblk.toNat →
    s.maxblk.toNat ≤ 1024 → (∀ c, selects ch c = true → bufWords s c len = (xs c).map some) →
    ∃ t, exec (.process ch false len) s = .next t ∧
      t = { s with mem := t.mem, chainL := t.chainL, chainR := t.chainR } ∧
      (∀ c, (selects ch c = true → bufWords t c len = (runChain (s.chain c) (xs c)).1.map some ∧
          t.chain c = (runChain (s.chain c) (xs c)).2) ∧
        (selects ch c = false → t.chain c = s.chain c)) ∧
      ∀ a, outsideBlock ch len a → t.mem.read a = s.mem.read a

/-- 60_exceptions.md R203 with R201: a PROCESS whose LEN is 0 or greater than MAXBLK raises error 2 and does nothing else,
with U = 0 and with U = 1. -/
def Obligations.ProcessRefusesBadLength : Prop :=
  ∀ (ch : ChMask) (u : Bool) (len : Nat) (s : State), len = 0 ∨ s.maxblk.toNat < len →
    (s.err = false → exec (.process ch u len) s = .next { s with err := true, errCode := 2#4 }) ∧
    (s.err = true → exec (.process ch u len) s = .next s)

/-- 41_cascade.md R152 with U = 1: where the length is accepted, PROCESS with U = 1 is UPDATE, then Host-P's turn, then
PROCESS with U = 0. Out of contract too it leaves what those three leave, in every field but the recorded faults; of
these, what is recorded of unwritten reads is the same (60_exceptions.md R210), and the contract violation is recorded as
PROCESS's (R206; that it names PROCESS and not UPDATE is the model's choice, log entry 13). -/
def Obligations.ProcessWithUpdateFirst : Prop :=
  ∀ (ch : ChMask) (len : Nat) (s : State), 1 ≤ len → len ≤ s.maxblk.toNat →
    ∃ t u, exec .update s = .next t ∧ exec (.process ch false len) (paramTurn t) = .next u ∧
      (snapshotContract (paramTurn (snapshotPhase s)) = true → exec (.process ch true len) s = .next u) ∧
      (snapshotContract (paramTurn (snapshotPhase s)) = false →
        ∃ v, exec (.process ch true len) s = .next v ∧ v = { u with faults := v.faults } ∧
          .contractViolation (.process ch true len) ∈ v.faults ∧
          ∀ c i, .unwrittenRead c i ∈ v.faults ↔ .unwrittenRead c i ∈ u.faults)

/-- 60_exceptions.md R207 for PROCESS: reading a buffer word that nothing has written since reset is recorded as
UnwrittenRead naming the word; the command completes, writes that word, and changes only the block, the chains, the
record and the count of free values. -/
def Obligations.ProcessRecordsUnwrittenRead : Prop :=
  ∀ (ch : ChMask) (len : Nat) (s : State) (c : Chan) (i : Nat), len ≤ s.maxblk.toNat → s.maxblk.toNat ≤ 1024 →
    selects ch c = true → i < len → s.mem.readWord (bufAddr c i) = none →
    ∃ t, exec (.process ch false len) s = .next t ∧
      t = { s with mem := t.mem, chainL := t.chainL, chainR := t.chainR, faults := t.faults, freeCount := t.freeCount } ∧
      .unwrittenRead c i ∈ t.faults ∧ (t.mem.readWord (bufAddr c i)).isSome = true ∧
      ∀ a, outsideBlock ch len a → t.mem.read a = s.mem.read a

/-- 10_state.md R25 and 41_cascade.md R145 for PROCESS with U = 0: the only words of the stage file it writes are the delay
words of enabled stages. Bypassed stages, coefficients, bypass bits and stage counts keep their values. -/
def Obligations.ProcessWritesOnlyEnabledDelayLines : Prop :=
  ∀ (ch : ChMask) (len : Nat) (s : State), ∃ t, exec (.process ch false len) s = .next t ∧ ∀ c,
    (t.chain c).peak.cs = (s.chain c).peak.cs ∧ (t.chain c).lowCut.count = (s.chain c).lowCut.count ∧
    (t.chain c).highCut.count = (s.chain c).highCut.count ∧
    ∀ i, i < 4 →
      (((s.chain c).lowCut.stages.get i).bypass = true →
        (t.chain c).lowCut.stages.get i = (s.chain c).lowCut.stages.get i) ∧
      (((s.chain c).highCut.stages.get i).bypass = true →
        (t.chain c).highCut.stages.get i = (s.chain c).highCut.stages.get i) ∧
      ((t.chain c).lowCut.stages.get i).bypass = ((s.chain c).lowCut.stages.get i).bypass ∧
      ((t.chain c).highCut.stages.get i).bypass = ((s.chain c).highCut.stages.get i).bypass ∧
      ((t.chain c).lowCut.stages.get i).bq.cs = ((s.chain c).lowCut.stages.get i).bq.cs ∧
      ((t.chain c).highCut.stages.get i).bq.cs = ((s.chain c).highCut.stages.get i).bq.cs

/-- 41_cascade.md R153, silence: where every enabled stage of the selected channels has finite coefficients and a delay line
of zeros, a block of zeros gives zeros and leaves every such delay line at zero, of either sign throughout. -/
def Obligations.SilenceGivesSilence : Prop :=
  ∀ (ch : ChMask) (len : Nat) (s : State), 1 ≤ len → len ≤ s.maxblk.toNat → s.maxblk.toNat ≤ 1024 →
    (∀ c, selects ch c = true → (s.chain c).quiet ∧
      ∀ i, i < len → ∃ x, s.mem.readWord (bufAddr c i) = some x ∧ zeroWord x) →
    ∃ t, exec (.process ch false len) s = .next t ∧
      ∀ c, selects ch c = true → (t.chain c).quiet ∧
        ∀ i, i < len → ∃ y, t.mem.readWord (bufAddr c i) = some y ∧ zeroWord y

/-! ### Arithmetic -/

/-- 00_scope.md R11, multiplication: of two finite patterns, the product rounded by RN32, or where it is 0 a zero with the
exclusive-or of the signs. -/
def Obligations.FmulCorrectlyRounded : Prop :=
  ∀ a b : F32, F32.isFinite a = true → F32.isFinite b = true →
    (F32.real a * F32.real b ≠ 0 → F32.IsRN32 (F32.real a * F32.real b) (F32.fmul a b)) ∧
    (F32.real a * F32.real b = 0 →
      F32.fmul a b = if F32.sign a = F32.sign b then 0x00000000#32 else 0x80000000#32)

/-- 00_scope.md R11, addition and subtraction: of two finite patterns, the sum or difference rounded by RN32, or where it is
0 the signed zero that roundTiesToEven gives. -/
def Obligations.FaddFsubCorrectlyRounded : Prop :=
  ∀ a b : F32, F32.isFinite a = true → F32.isFinite b = true →
    (F32.real a + F32.real b ≠ 0 → F32.IsRN32 (F32.real a + F32.real b) (F32.fadd a b)) ∧
    (F32.real a + F32.real b = 0 →
      F32.fadd a b = if F32.sign a = true ∧ F32.sign b = true then 0x80000000#32 else 0x00000000#32) ∧
    (F32.real a - F32.real b ≠ 0 → F32.IsRN32 (F32.real a - F32.real b) (F32.fsub a b)) ∧
    (F32.real a - F32.real b = 0 →
      F32.fsub a b = if F32.sign a = true ∧ F32.sign b = false then 0x80000000#32 else 0x00000000#32)

/-- 00_scope.md R11, NaN and infinities: every NaN result of the three operations is the canonical NaN 0x7FC00000; exactly
these operands give one: a NaN, infinities that cancel in a sum or difference, a zero times an infinity. With an infinite
operand and no NaN result the sum, difference and product are the signed infinity. -/
def Obligations.NanResultsAreCanonical : Prop :=
  ∀ a b : F32,
    (F32.isNaN (F32.fadd a b) = true → F32.fadd a b = 0x7FC00000#32) ∧
    (F32.isNaN (F32.fsub a b) = true → F32.fsub a b = 0x7FC00000#32) ∧
    (F32.isNaN (F32.fmul a b) = true → F32.fmul a b = 0x7FC00000#32) ∧
    (F32.isNaN (F32.fadd a b) = true ↔ F32.isNaN a = true ∨ F32.isNaN b = true ∨
      (F32.isInf a = true ∧ F32.isInf b = true ∧ F32.sign a ≠ F32.sign b)) ∧
    (F32.isNaN (F32.fsub a b) = true ↔ F32.isNaN a = true ∨ F32.isNaN b = true ∨
      (F32.isInf a = true ∧ F32.isInf b = true ∧ F32.sign a = F32.sign b)) ∧
    (F32.isNaN (F32.fmul a b) = true ↔ F32.isNaN a = true ∨ F32.isNaN b = true ∨
      (zeroWord a ∧ F32.isInf b = true) ∨ (F32.isInf a = true ∧ zeroWord b)) ∧
    (F32.isInf a = true → F32.isNaN b = false →
      (¬ (F32.isInf b = true ∧ F32.sign a ≠ F32.sign b) → F32.fadd a b = a ∧ F32.fadd b a = a) ∧
      (¬ (F32.isInf b = true ∧ F32.sign a = F32.sign b) →
        F32.fsub a b = a ∧ F32.fsub b a = if F32.sign a then 0x7F800000#32 else 0xFF800000#32) ∧
      (¬ zeroWord b → let p := if F32.sign a = F32.sign b then 0x7F800000#32 else 0xFF800000#32
        F32.fmul a b = p ∧ F32.fmul b a = p))

/-! ### Host accesses -/

/-- 20_memory.md R70: a write of a read-only word or a reserved address by either host has no effect and reports no error,
and a read of a reserved address returns 0. -/
def Obligations.ReadOnlyAndReservedWords : Prop :=
  ∀ (a : Addr) (v : Word) (s : State), let b := a.toNat / 4 * 4
    ((b = 0x0000 ∨ b = 0x000C ∨ b = 0x0018 ∨ b = 0x001C ∨ b = 0x003C ∨ (0x0050 ≤ b ∧ b < 0x2000)) →
      hostAWrite a v s = .next s ∧ hostPWrite a v s = s) ∧
    ((b = 0x000C ∨ b = 0x003C ∨ (0x0054 ≤ b ∧ b < 0x0080) ∨ (0x0080 ≤ b ∧ b < 0x0100 ∧ 0x14 ≤ b % 0x20) ∨
        (0x0100 ≤ b ∧ b < 0x1000) ∨ (0x1120 ≤ b ∧ b < 0x1180) ∨ (0x1188 ≤ b ∧ b < 0x1200) ∨
        (0x1320 ≤ b ∧ b < 0x1380) ∨ (0x1388 ≤ b ∧ b < 0x2000)) →
      hostARead a s = { s with readsA := 0x00000000#32 :: s.readsA } ∧
      hostPRead a s = { s with readsP := 0x00000000#32 :: s.readsP })

/-- 10_state.md R31 to R38: what a Host-A read of each register returns. STATUS has ERR in bit 0, ERRCODE in bits [7:4] and 0
in every other bit; CMD reads 0. -/
def Obligations.RegisterReadValues : Prop :=
  ∀ (a : Addr) (s : State), let b := a.toNat / 4 * 4
    let reads := fun v : Word => hostARead a s = { s with readsA := v :: s.readsA }
    (b = 0x0000 → reads 0x57430001#32) ∧
    (b = 0x0004 → ∃ w : Word, reads w ∧ w.getLsbD 0 = s.err ∧ w.extractLsb' 4 4 = s.errCode ∧
      ∀ k, (1 ≤ k ∧ k < 4) ∨ 8 ≤ k → w.getLsbD k = false) ∧
    (b = 0x0008 → reads 0x00000000#32) ∧
    (b = 0x0010 → reads s.srReq) ∧ (b = 0x0014 → reads (BitVec.ofNat 32 s.maxblkReq.toNat)) ∧
    (b = 0x0018 → reads s.sr) ∧ (b = 0x001C → reads (BitVec.ofNat 32 s.maxblk.toNat)) ∧
    (b = 0x0020 → reads s.lowcutFreq) ∧ (b = 0x0024 → reads s.highcutFreq) ∧ (b = 0x0028 → reads s.peakFreq) ∧
    (b = 0x002C → reads s.peakGainDb) ∧ (b = 0x0030 → reads s.peakQ) ∧
    (b = 0x0034 → reads (BitVec.ofNat 32 s.lowcutSlope.toNat)) ∧
    (b = 0x0038 → reads (BitVec.ofNat 32 s.highcutSlope.toNat)) ∧
    (b = 0x0040 → reads s.argSr) ∧ (b = 0x0044 → reads s.argFreq) ∧ (b = 0x0048 → reads s.argQ) ∧
    (b = 0x004C → reads s.argGainDb) ∧ (b = 0x0050 → reads (BitVec.ofNat 32 s.designN.toNat))

/-- 10_state.md R34, R36 and R37: what a Host-A write of each RW register stores, WARL bits masked; it changes nothing
else. -/
def Obligations.RegisterWritesStore : Prop :=
  ∀ (a : Addr) (v : Word) (s : State), let b := a.toNat / 4 * 4
    (b = 0x0010 → hostAWrite a v s = .next { s with srReq := v }) ∧
    (b = 0x0014 → hostAWrite a v s = .next { s with maxblkReq := BitVec.ofNat 11 v.toNat }) ∧
    (b = 0x0020 → hostAWrite a v s = .next { s with lowcutFreq := v }) ∧
    (b = 0x0024 → hostAWrite a v s = .next { s with highcutFreq := v }) ∧
    (b = 0x0028 → hostAWrite a v s = .next { s with peakFreq := v }) ∧
    (b = 0x002C → hostAWrite a v s = .next { s with peakGainDb := v }) ∧
    (b = 0x0030 → hostAWrite a v s = .next { s with peakQ := v }) ∧
    (b = 0x0034 → hostAWrite a v s = .next { s with lowcutSlope := BitVec.ofNat 2 v.toNat }) ∧
    (b = 0x0038 → hostAWrite a v s = .next { s with highcutSlope := BitVec.ofNat 2 v.toNat }) ∧
    (b = 0x0040 → hostAWrite a v s = .next { s with argSr := v }) ∧
    (b = 0x0044 → hostAWrite a v s = .next { s with argFreq := v }) ∧
    (b = 0x0048 → hostAWrite a v s = .next { s with argQ := v }) ∧
    (b = 0x004C → hostAWrite a v s = .next { s with argGainDb := v })

/-- 10_state.md R23, R24, R27 and R39: the addresses at which Host-A reads each word of the stage file (b0, b1, b2, a1, a2,
s1, s2, FLAGS of the low-cut stages, the peak stage and the high-cut stages), the stage counts and DOUT. FLAGS has the
bypass bit in bit 0 and zeros above; the peak stage's is 0 (R26); words 5 to 7 of a DOUT entry are 0. -/
def Obligations.StageFileAndDoutAddresses : Prop :=
  ∀ s : State,
    let reads := fun (at_ : Nat) (v : Word) =>
      ∀ a : Addr, a.toNat = at_ → hostARead a s = { s with readsA := v :: s.readsA }
    let readsSet := fun (base : Nat) (cs : CoeffSet) =>
      reads base cs.b0 ∧ reads (base + 0x04) cs.b1 ∧ reads (base + 0x08) cs.b2 ∧ reads (base + 0x0C) cs.a1 ∧
      reads (base + 0x10) cs.a2
    let readsStage := fun (base : Nat) (bq : Biquad) (bypass : Bool) =>
      readsSet base bq.cs ∧ reads (base + 0x14) bq.s1 ∧ reads (base + 0x18) bq.s2 ∧
      reads (base + 0x1C) (if bypass then 0x00000001#32 else 0x00000000#32)
    (∀ c : Chan, let base := 0x1000 + 0x200 * c.num
      (∀ i, i < 4 → let st := (s.chain c).lowCut.stages.get i
        readsStage (base + 0x20 * i) st.bq st.bypass) ∧
      readsStage (base + 0x20 * 4) (s.chain c).peak false ∧
      (∀ i, i < 4 → let st := (s.chain c).highCut.stages.get i
        readsStage (base + 0x20 * (5 + i)) st.bq st.bypass) ∧
      reads (base + 0x180) (BitVec.ofNat 32 (s.chain c).lowCut.count.toNat) ∧
      reads (base + 0x184) (BitVec.ofNat 32 (s.chain c).highCut.count.toNat)) ∧
    ∀ k, k < 4 → let base := 0x0080 + 0x20 * k
      readsSet base (s.dout.get k) ∧ reads (base + 0x14) 0x00000000#32 ∧ reads (base + 0x18) 0x00000000#32 ∧
      reads (base + 0x1C) 0x00000000#32

/-- 20_memory.md R71: no Host-A read has a side effect. It adds the word read, and for a buffer word that nothing has
written since reset also the model's record, which names the word (60_exceptions.md R207). -/
def Obligations.ReadsHaveNoSideEffect : Prop :=
  ∀ (a : Addr) (s : State), ∃ w, let t := hostARead a s
    t = { s with readsA := w :: s.readsA, faults := t.faults, freeCount := t.freeCount } ∧
    (a.toNat < 0x2000 ∨ (s.mem.readWord (a.toNat / 4 * 4)).isSome = true →
      t = { s with readsA := w :: s.readsA }) ∧
    ∀ (c : Chan) (i : Nat), i < 1024 → a.toNat / 4 * 4 = 0x2000 + 0x1000 * c.num + 4 * i →
      s.mem.readWord (a.toNat / 4 * 4) = none → .unwrittenRead c i ∈ t.faults

/-- 20_memory.md R74 for a sample buffer: a Host-A write of a buffer word stores the whole word and nothing else; a read of
it then returns that word, and every byte of the buffers outside it is unchanged. -/
def Obligations.BufferWriteThenRead : Prop :=
  ∀ (a : Addr) (v : Word) (s : State), 0x2000 ≤ a.toNat →
    ∃ t, hostAWrite a v s = .next t ∧ t = { s with mem := t.mem } ∧
      (hostARead a t).readsA = v :: s.readsA ∧ (hostARead a t).faults = s.faults ∧
      ∀ d, d < a.toNat / 4 * 4 ∨ a.toNat / 4 * 4 + 4 ≤ d → t.mem.read d = s.mem.read d

/-- 20_memory.md R63: Host-P's port reaches only the seven parameter registers. Its write of one has the effect of Host-A's,
and its read of one returns the value Host-A's would; its write of any other address is ignored, CMD included, and its
read of any other address returns 0. -/
def Obligations.HostPReachesOnlyParameters : Prop :=
  ∀ (s : State) (a : Addr) (v : Word) (rest : List ParamInput),
    let b := a.toNat / 4 * 4
    let s' := { s with hostP := rest }
    (s.hostP = .write a v :: rest →
      (0x0020 ≤ b → b < 0x003C → step s = hostAWrite a v s') ∧ (b < 0x0020 ∨ 0x003C ≤ b → step s = .next s')) ∧
    (s.hostP = .read a :: rest →
      ∃ w, step s = .next { s' with readsP := w :: s.readsP } ∧
        (0x0020 ≤ b → b < 0x003C → hostARead a s' = { s' with readsA := w :: s.readsA }) ∧
        (b < 0x0020 ∨ 0x003C ≤ b → w = 0x00000000#32))

/-- 70_reset_and_hazards.md R230 with 10_state.md R44: reset sets every piece of state to its reset value, the buffers to
nothing written. Of the snapshot latch, which R43 leaves unspecified, this says nothing. What the model records and the
hosts' accesses and reads are not state of WC-BQ: that reset keeps them is the model's choice (log entry 11), and so is
how the reset input comes to be taken (log entry 7). -/
def Obligations.ResetSetsEveryRegister : Prop :=
  ∀ (s : State) (rest : List ControlInput) (p : List ParamInput), s.hostA = .reset :: rest →
    s.hostP = [] ∧ p = [] ∨ s.hostP = .yield :: p →
    ∃ t, step s = .next t ∧ t.hostA = rest ∧ t.hostP = p ∧ t.readsA = s.readsA ∧ t.readsP = s.readsP ∧
      t.faults = s.faults ∧ t.freeCount = s.freeCount ∧
      t.err = false ∧ t.errCode = 0#4 ∧ t.srReq = 0x472C4400#32 ∧ t.sr = 0x472C4400#32 ∧
      t.maxblkReq.toNat = 1024 ∧ t.maxblk.toNat = 1024 ∧ t.lowcutFreq = 0x41A00000#32 ∧
      t.highcutFreq = 0x469C4000#32 ∧ t.peakFreq = 0x443B8000#32 ∧ t.peakGainDb = 0#32 ∧ t.peakQ = 0x3F800000#32 ∧
      t.lowcutSlope = 0#2 ∧ t.highcutSlope = 0#2 ∧ t.argSr = 0#32 ∧ t.argFreq = 0#32 ∧ t.argQ = 0#32 ∧
      t.argGainDb = 0#32 ∧ t.designN = 0#3 ∧ (∀ k, k < 4 → t.dout.get k = CoeffSet.identity) ∧
      (∀ c, (t.chain c).lowCut.count = 1#3 ∧ (t.chain c).highCut.count = 1#3 ∧
        ∀ slot j, slot < 9 → j < 8 → slotWord (t.chain c) slot j =
          if j = 0 then 0x3F800000#32
          else if j = 7 ∧ slot ≠ 0 ∧ slot ≠ 4 ∧ slot ≠ 5 then 1#32 else 0#32) ∧
      ∀ a, t.mem.read a = none

/-! ### Rules of the whole machine -/

/-- The reset state meets the invariant (10_state.md R28, R44). -/
def Obligations.ResetMeetsInvariant : Prop :=
  State.reset.Inv

/-- 10_state.md R28 with R27, R32, R35 and R38: from every state that meets the invariant, every step gives a state that
meets it. The invariant: the cut-filter invariant of all four filters, the legal values of STATUS, SR, MAXBLK and
DESIGN_N, and the canonical form of the buffers. -/
def Obligations.StepKeepsInvariant : Prop :=
  ∀ s t : State, s.Inv → step s = .next t → t.Inv

/-- 60_exceptions.md R206 and R207: a recorded model fault is never cleared, by any step. -/
def Obligations.RecordedFaultsStay : Prop :=
  ∀ (s t : State) (f : Fault), step s = .next t → f ∈ s.faults → f ∈ t.faults

/-- Who writes each register. Of the commands: SR and MAXBLK only PREPARE (10_state.md R35); DESIGN_N and DOUT only the
design commands (R38, R39); STATUS only the two that can raise an error; the buffers only PROCESS (R40); the latch only
UPDATE and PROCESS with U = 1 (R43); the stage file neither NOP nor a design command; and no command writes SR_REQ,
MAXBLK_REQ or an ARG register (R34, R37), nor a parameter register, which changes during UPDATE by Host-P's accesses only.
Of the hosts: Host-A's write of a word other than CMD can clear STATUS and store the registers of R34, R36 and R37 and the
buffers, Host-P's the seven parameter registers, and nothing else (20_memory.md R62, R63). (The reset input writes
everything, ResetSetsEveryRegister.) -/
def Obligations.CommandsWriteOnlyTheirRegisters : Prop :=
  (∀ (i : Instr) (s t : State), exec i s = .next t →
    (i ≠ .prepare → t.sr = s.sr ∧ t.maxblk = s.maxblk) ∧
    (i ≠ .designPeak → (∀ n, i ≠ .designLc n ∧ i ≠ .designHc n) → t.dout = s.dout ∧ t.designN = s.designN) ∧
    (i ≠ .prepare → (∀ ch u len, i ≠ .process ch u len) → t.err = s.err ∧ t.errCode = s.errCode) ∧
    ((∀ ch u len, i ≠ .process ch u len) → t.mem = s.mem) ∧
    (i = .nop ∨ i = .designPeak ∨ (∃ n, i = .designLc n ∨ i = .designHc n) →
      t.chainL = s.chainL ∧ t.chainR = s.chainR) ∧
    t.srReq = s.srReq ∧ t.maxblkReq = s.maxblkReq ∧ t.argSr = s.argSr ∧ t.argFreq = s.argFreq ∧ t.argQ = s.argQ ∧
    t.argGainDb = s.argGainDb ∧ t.hostA = s.hostA ∧ t.readsA = s.readsA ∧
    (i ≠ .update ∧ (∀ ch len, i ≠ .process ch true len) → t.latch = s.latch) ∧
    (i ≠ .update ∧ (∀ ch len, i ≠ .process ch true len) ∨ s.hostP = [] →
      t.lowcutFreq = s.lowcutFreq ∧ t.highcutFreq = s.highcutFreq ∧ t.peakFreq = s.peakFreq ∧
      t.peakGainDb = s.peakGainDb ∧ t.peakQ = s.peakQ ∧ t.lowcutSlope = s.lowcutSlope ∧
      t.highcutSlope = s.highcutSlope ∧ t.hostP = s.hostP ∧ t.readsP = s.readsP)) ∧
  ∀ (a : Addr) (v : Word) (s : State),
    (a.toNat / 4 ≠ 2 → ∃ t, hostAWrite a v s = .next t ∧
      t = { s with
        err := t.err, errCode := t.errCode, srReq := t.srReq, maxblkReq := t.maxblkReq, lowcutFreq := t.lowcutFreq,
        highcutFreq := t.highcutFreq, peakFreq := t.peakFreq, peakGainDb := t.peakGainDb, peakQ := t.peakQ,
        lowcutSlope := t.lowcutSlope, highcutSlope := t.highcutSlope, argSr := t.argSr, argFreq := t.argFreq,
        argQ := t.argQ, argGainDb := t.argGainDb, mem := t.mem } ∧
      (t.err = s.err ∧ t.errCode = s.errCode ∨ a.toNat / 4 = 1 ∧ t.err = false ∧ t.errCode = 0#4) ∧
      (a.toNat < 0x2000 → t.mem = s.mem)) ∧
    ∃ t, hostPWrite a v s = t ∧
      t = { s with
        lowcutFreq := t.lowcutFreq, highcutFreq := t.highcutFreq, peakFreq := t.peakFreq, peakGainDb := t.peakGainDb,
        peakQ := t.peakQ, lowcutSlope := t.lowcutSlope, highcutSlope := t.highcutSlope }

/-- 10_state.md R41 and R25: the bypass bits, stage counts and coefficients of the cut filters are written only by SET.LC,
SET.HC and UPDATE (PROCESS with U = 1 runs UPDATE). -/
def Obligations.BypassBitsHaveFewWriters : Prop :=
  ∀ (i : Instr) (s t : State), exec i s = .next t → i ≠ .update → (∀ ch n, i ≠ .setLc ch n ∧ i ≠ .setHc ch n) →
    (∀ ch len, i ≠ .process ch true len) → ∀ c k, k < 4 →
    (t.chain c).lowCut.count = (s.chain c).lowCut.count ∧ (t.chain c).highCut.count = (s.chain c).highCut.count ∧
    ((t.chain c).lowCut.stages.get k).bypass = ((s.chain c).lowCut.stages.get k).bypass ∧
    ((t.chain c).highCut.stages.get k).bypass = ((s.chain c).highCut.stages.get k).bypass ∧
    ((t.chain c).lowCut.stages.get k).bq.cs = ((s.chain c).lowCut.stages.get k).bq.cs ∧
    ((t.chain c).highCut.stages.get k).bq.cs = ((s.chain c).highCut.stages.get k).bq.cs
end

