-- ==== Sys2Proof/Laws/Memory.lean ====
section
/-! SUPPORT. The sample buffers: a read after a write, and that every memory operation keeps the canonical form. -/

namespace Sys2Proof.Machine

/-! ### One byte -/

theorem Memory.read_write_self (m : Memory) (a : Nat) (b : Byte) : (m.write a b).read a = some b := by
  induction m with
  | nil => simp [Memory.write, Memory.read]
  | cons c rest ih =>
    unfold Memory.write
    split
    · simp [Memory.read]
    · split
      · simp [Memory.read]
      · simp_all [Memory.read]

theorem Memory.read_write_other (m : Memory) (a d : Nat) (b : Byte) (h : d ≠ a) :
    (m.write a b).read d = m.read d := by
  induction m with
  | nil => simp [Memory.write, Memory.read, h]
  | cons c rest ih =>
    unfold Memory.write
    split
    · rename_i hac
      simp [Memory.read, ← hac, h]
    · split
      · rename_i hne hlt
        by_cases hd : d < a
        · have h1 : d ≠ c.1 := by omega
          have h2 : d < c.1 := by omega
          simp [Memory.read, h, hd, h1, h2]
        · simp [Memory.read, h, hd]
      · simp [Memory.read, ih]

/-- The byte at `d` after a byte is stored at `a`. -/
theorem Memory.read_write (m : Memory) (a d : Nat) (b : Byte) :
    (m.write a b).read d = if d = a then some b else m.read d := by
  by_cases h : d = a
  · subst h; simp [Memory.read_write_self]
  · simp [h, Memory.read_write_other m a d b h]

/-! ### The canonical form -/

theorem Memory.wf_tail {c : Host.Cell} {m : Memory} (h : Memory.wf (c :: m) = true) : Memory.wf m = true := by
  cases m with
  | nil => rfl
  | cons d rest => simp [Memory.wf] at h; exact h.2

theorem Memory.wf_cons {c : Host.Cell} {m : Memory} (h : Memory.wf m = true)
    (hlt : ∀ d ∈ m.head?, c.1 < d.1) : Memory.wf (c :: m) = true := by
  cases m with
  | nil => rfl
  | cons d rest => simp [Memory.wf, h, hlt d (by simp)]

theorem Memory.wf_head_lt {c : Host.Cell} {m : Memory} (h : Memory.wf (c :: m) = true) :
    ∀ d ∈ m.head?, c.1 < d.1 := by
  cases m with
  | nil => simp
  | cons d rest => simp [Memory.wf] at h ⊢; exact h.1

theorem Memory.write_head (m : Memory) (a : Nat) (b : Byte) (lo : Nat) (ha : lo < a)
    (h : ∀ d ∈ m.head?, lo < d.1) : ∀ d ∈ (m.write a b).head?, lo < d.1 := by
  cases m with
  | nil => simp [Memory.write, ha]
  | cons c rest =>
    unfold Memory.write
    split
    · simp [ha]
    · split
      · simp [ha]
      · simpa using h

/-- A store of one byte keeps the canonical form. -/
theorem Memory.wf_write (m : Memory) (a : Nat) (b : Byte) (h : m.wf = true) : (m.write a b).wf = true := by
  induction m with
  | nil => rfl
  | cons c rest ih =>
    unfold Memory.write
    split
    · rename_i hac
      exact Memory.wf_cons (Memory.wf_tail h) (by simpa [hac] using Memory.wf_head_lt h)
    · split
      · rename_i hlt
        exact Memory.wf_cons h (by simpa using hlt)
      · rename_i hne hnlt
        exact Memory.wf_cons (ih (Memory.wf_tail h))
          (Memory.write_head rest a b c.1 (by omega) (Memory.wf_head_lt h))

theorem Memory.wf_writeWord (m : Memory) (a : Nat) (w : Word) (h : m.wf = true) : (m.writeWord a w).wf = true := by
  unfold Memory.writeWord
  exact Memory.wf_write _ _ _ (Memory.wf_write _ _ _ (Memory.wf_write _ _ _ (Memory.wf_write _ _ _ h)))

/-- The keys of a memory after a store: the old ones and the new one. -/
theorem Memory.mem_write {m : Memory} {a : Nat} {b : Byte} {c : Host.Cell} (h : c ∈ m.write a b) :
    c = (a, b) ∨ c ∈ m := by
  induction m with
  | nil => simp [Memory.write] at h; exact Or.inl h
  | cons d rest ih =>
    unfold Memory.write at h
    split at h
    · simp at h; rcases h with h | h <;> simp [h]
    · split at h
      · simp at h; rcases h with h | h | h <;> simp [h]
      · simp at h
        rcases h with h | h
        · simp [h]
        · rcases ih h with h | h <;> simp [h]

/-! ### One word -/

theorem ofBytes_wordByte (w : Word) :
    ofBytes (wordByte w 0) (wordByte w 1) (wordByte w 2) (wordByte w 3) = w := by
  apply BitVec.eq_of_toNat_eq
  have := w.isLt
  simp only [ofBytes, wordByte, BitVec.toNat_ofNat]
  omega

theorem Memory.readWord_writeWord_self (m : Memory) (a : Nat) (w : Word) : (m.writeWord a w).readWord a = some w := by
  simp [Memory.readWord, Memory.writeWord, Memory.read_write, ofBytes_wordByte]

/-- Every byte outside a stored word reads as before. -/
theorem Memory.read_writeWord_other (m : Memory) (a d : Nat) (w : Word) (h : d < a ∨ a + 4 ≤ d) :
    (m.writeWord a w).read d = m.read d := by
  simp [Memory.writeWord, Memory.read_write, show ¬ d = a + 3 by omega, show ¬ d = a + 2 by omega,
    show ¬ d = a + 1 by omega, show ¬ d = a by omega]

theorem Memory.readWord_writeWord_other (m : Memory) (a d : Nat) (w : Word) (h : a + 4 ≤ d ∨ d + 4 ≤ a) :
    (m.writeWord a w).readWord d = m.readWord d := by
  unfold Memory.readWord
  rw [Memory.read_writeWord_other m a d w (by omega), Memory.read_writeWord_other m a (d + 1) w (by omega),
    Memory.read_writeWord_other m a (d + 2) w (by omega), Memory.read_writeWord_other m a (d + 3) w (by omega)]

/-- A stored word has all four of its bytes. -/
theorem Memory.read_writeWord_isSome (m : Memory) (a k : Nat) (w : Word) (h : k < 4) :
    ((m.writeWord a w).read (a + k)).isSome := by
  have : k = 0 ∨ k = 1 ∨ k = 2 ∨ k = 3 := by omega
  rcases this with rfl | rfl | rfl | rfl <;> simp [Memory.writeWord, Memory.read_write]

/-- A store of an aligned word inside the buffers keeps their form. -/
theorem Memory.inBuffers_writeWord (m : Memory) (a : Nat) (w : Word) (h : m.inBuffers)
    (ha : a % 4 = 0) (lo : 0x2000 ≤ a) (hi : a < 0x4000) : (m.writeWord a w).inBuffers := by
  refine ⟨Memory.wf_writeWord m a w h.1, ?_, ?_⟩
  · intro c hc
    unfold Memory.writeWord at hc
    rcases Memory.mem_write hc with rfl | hc
    · constructor <;> simp <;> omega
    rcases Memory.mem_write hc with rfl | hc
    · constructor <;> simp <;> omega
    rcases Memory.mem_write hc with rfl | hc
    · constructor <;> simp <;> omega
    rcases Memory.mem_write hc with rfl | hc
    · constructor <;> simp <;> omega
    exact h.2.1 c hc
  · intro d hd k hk
    by_cases e : d = a
    · subst e
      have h0 := Memory.read_writeWord_isSome m d 0 w (by omega)
      have h1 := Memory.read_writeWord_isSome m d k w hk
      rw [Nat.add_zero] at h0
      simp [h0, h1]
    · rw [Memory.read_writeWord_other m a d w (by omega), Memory.read_writeWord_other m a (d + k) w (by omega)]
      exact h.2.2 d hd k hk

theorem bufAddr_aligned (c : Chan) (i : Nat) : bufAddr c i % 4 = 0 := by
  unfold bufAddr; omega

theorem bufAddr_range (c : Chan) (i : Nat) (h : i < 1024) : 0x2000 ≤ bufAddr c i ∧ bufAddr c i < 0x4000 := by
  cases c <;> simp [bufAddr, Chan.num] <;> omega

/-- Two different buffer words do not overlap. -/
theorem bufAddr_apart (c d : Chan) (i j : Nat) (hi : i < 1024) (hj : j < 1024) (h : ¬ (c = d ∧ i = j)) :
    bufAddr c i + 4 ≤ bufAddr d j ∨ bufAddr d j + 4 ≤ bufAddr c i := by
  cases c <;> cases d <;> simp [bufAddr, Chan.num] at * <;> omega

end Sys2Proof.Machine
end

