-- ==== Sys2Proof/Laws/State.lean ====
section
/-! SUPPORT. One lemma per field for each operation that updates the state, and the reads of a channel after an update. -/

namespace Sys2Proof.Machine

/-! ### `setChain` -/

@[simp] theorem setChain_err (s : State) (c : Chan) (v : Chain) : (s.setChain c v).err = s.err := by cases c <;> rfl
@[simp] theorem setChain_errCode (s : State) (c : Chan) (v : Chain) : (s.setChain c v).errCode = s.errCode := by cases c <;> rfl
@[simp] theorem setChain_srReq (s : State) (c : Chan) (v : Chain) : (s.setChain c v).srReq = s.srReq := by cases c <;> rfl
@[simp] theorem setChain_maxblkReq (s : State) (c : Chan) (v : Chain) : (s.setChain c v).maxblkReq = s.maxblkReq := by cases c <;> rfl
@[simp] theorem setChain_sr (s : State) (c : Chan) (v : Chain) : (s.setChain c v).sr = s.sr := by cases c <;> rfl
@[simp] theorem setChain_maxblk (s : State) (c : Chan) (v : Chain) : (s.setChain c v).maxblk = s.maxblk := by cases c <;> rfl
@[simp] theorem setChain_lowcutFreq (s : State) (c : Chan) (v : Chain) : (s.setChain c v).lowcutFreq = s.lowcutFreq := by cases c <;> rfl
@[simp] theorem setChain_highcutFreq (s : State) (c : Chan) (v : Chain) : (s.setChain c v).highcutFreq = s.highcutFreq := by cases c <;> rfl
@[simp] theorem setChain_peakFreq (s : State) (c : Chan) (v : Chain) : (s.setChain c v).peakFreq = s.peakFreq := by cases c <;> rfl
@[simp] theorem setChain_peakGainDb (s : State) (c : Chan) (v : Chain) : (s.setChain c v).peakGainDb = s.peakGainDb := by cases c <;> rfl
@[simp] theorem setChain_peakQ (s : State) (c : Chan) (v : Chain) : (s.setChain c v).peakQ = s.peakQ := by cases c <;> rfl
@[simp] theorem setChain_lowcutSlope (s : State) (c : Chan) (v : Chain) : (s.setChain c v).lowcutSlope = s.lowcutSlope := by cases c <;> rfl
@[simp] theorem setChain_highcutSlope (s : State) (c : Chan) (v : Chain) : (s.setChain c v).highcutSlope = s.highcutSlope := by cases c <;> rfl
@[simp] theorem setChain_argSr (s : State) (c : Chan) (v : Chain) : (s.setChain c v).argSr = s.argSr := by cases c <;> rfl
@[simp] theorem setChain_argFreq (s : State) (c : Chan) (v : Chain) : (s.setChain c v).argFreq = s.argFreq := by cases c <;> rfl
@[simp] theorem setChain_argQ (s : State) (c : Chan) (v : Chain) : (s.setChain c v).argQ = s.argQ := by cases c <;> rfl
@[simp] theorem setChain_argGainDb (s : State) (c : Chan) (v : Chain) : (s.setChain c v).argGainDb = s.argGainDb := by cases c <;> rfl
@[simp] theorem setChain_designN (s : State) (c : Chan) (v : Chain) : (s.setChain c v).designN = s.designN := by cases c <;> rfl
@[simp] theorem setChain_dout (s : State) (c : Chan) (v : Chain) : (s.setChain c v).dout = s.dout := by cases c <;> rfl
@[simp] theorem setChain_mem (s : State) (c : Chan) (v : Chain) : (s.setChain c v).mem = s.mem := by cases c <;> rfl
@[simp] theorem setChain_latch (s : State) (c : Chan) (v : Chain) : (s.setChain c v).latch = s.latch := by cases c <;> rfl
@[simp] theorem setChain_faults (s : State) (c : Chan) (v : Chain) : (s.setChain c v).faults = s.faults := by cases c <;> rfl
@[simp] theorem setChain_freeCount (s : State) (c : Chan) (v : Chain) : (s.setChain c v).freeCount = s.freeCount := by cases c <;> rfl
@[simp] theorem setChain_hostA (s : State) (c : Chan) (v : Chain) : (s.setChain c v).hostA = s.hostA := by cases c <;> rfl
@[simp] theorem setChain_hostP (s : State) (c : Chan) (v : Chain) : (s.setChain c v).hostP = s.hostP := by cases c <;> rfl
@[simp] theorem setChain_readsA (s : State) (c : Chan) (v : Chain) : (s.setChain c v).readsA = s.readsA := by cases c <;> rfl
@[simp] theorem setChain_readsP (s : State) (c : Chan) (v : Chain) : (s.setChain c v).readsP = s.readsP := by cases c <;> rfl

/-! ### `clearDelays` -/

@[simp] theorem clearDelays_err (s : State) : (clearDelays s).err = s.err := rfl
@[simp] theorem clearDelays_errCode (s : State) : (clearDelays s).errCode = s.errCode := rfl
@[simp] theorem clearDelays_srReq (s : State) : (clearDelays s).srReq = s.srReq := rfl
@[simp] theorem clearDelays_maxblkReq (s : State) : (clearDelays s).maxblkReq = s.maxblkReq := rfl
@[simp] theorem clearDelays_sr (s : State) : (clearDelays s).sr = s.sr := rfl
@[simp] theorem clearDelays_maxblk (s : State) : (clearDelays s).maxblk = s.maxblk := rfl
@[simp] theorem clearDelays_lowcutFreq (s : State) : (clearDelays s).lowcutFreq = s.lowcutFreq := rfl
@[simp] theorem clearDelays_highcutFreq (s : State) : (clearDelays s).highcutFreq = s.highcutFreq := rfl
@[simp] theorem clearDelays_peakFreq (s : State) : (clearDelays s).peakFreq = s.peakFreq := rfl
@[simp] theorem clearDelays_peakGainDb (s : State) : (clearDelays s).peakGainDb = s.peakGainDb := rfl
@[simp] theorem clearDelays_peakQ (s : State) : (clearDelays s).peakQ = s.peakQ := rfl
@[simp] theorem clearDelays_lowcutSlope (s : State) : (clearDelays s).lowcutSlope = s.lowcutSlope := rfl
@[simp] theorem clearDelays_highcutSlope (s : State) : (clearDelays s).highcutSlope = s.highcutSlope := rfl
@[simp] theorem clearDelays_argSr (s : State) : (clearDelays s).argSr = s.argSr := rfl
@[simp] theorem clearDelays_argFreq (s : State) : (clearDelays s).argFreq = s.argFreq := rfl
@[simp] theorem clearDelays_argQ (s : State) : (clearDelays s).argQ = s.argQ := rfl
@[simp] theorem clearDelays_argGainDb (s : State) : (clearDelays s).argGainDb = s.argGainDb := rfl
@[simp] theorem clearDelays_designN (s : State) : (clearDelays s).designN = s.designN := rfl
@[simp] theorem clearDelays_dout (s : State) : (clearDelays s).dout = s.dout := rfl
@[simp] theorem clearDelays_chainL (s : State) : (clearDelays s).chainL = s.chainL.clear := rfl
@[simp] theorem clearDelays_chainR (s : State) : (clearDelays s).chainR = s.chainR.clear := rfl
@[simp] theorem clearDelays_mem (s : State) : (clearDelays s).mem = s.mem := rfl
@[simp] theorem clearDelays_latch (s : State) : (clearDelays s).latch = s.latch := rfl
@[simp] theorem clearDelays_faults (s : State) : (clearDelays s).faults = s.faults := rfl
@[simp] theorem clearDelays_freeCount (s : State) : (clearDelays s).freeCount = s.freeCount := rfl
@[simp] theorem clearDelays_hostA (s : State) : (clearDelays s).hostA = s.hostA := rfl
@[simp] theorem clearDelays_hostP (s : State) : (clearDelays s).hostP = s.hostP := rfl
@[simp] theorem clearDelays_readsA (s : State) : (clearDelays s).readsA = s.readsA := rfl
@[simp] theorem clearDelays_readsP (s : State) : (clearDelays s).readsP = s.readsP := rfl

/-! ### `raiseError` -/

@[simp] theorem raiseError_srReq (code : BitVec 4) (s : State) : (raiseError code s).srReq = s.srReq := by unfold raiseError; split <;> rfl
@[simp] theorem raiseError_maxblkReq (code : BitVec 4) (s : State) : (raiseError code s).maxblkReq = s.maxblkReq := by unfold raiseError; split <;> rfl
@[simp] theorem raiseError_sr (code : BitVec 4) (s : State) : (raiseError code s).sr = s.sr := by unfold raiseError; split <;> rfl
@[simp] theorem raiseError_maxblk (code : BitVec 4) (s : State) : (raiseError code s).maxblk = s.maxblk := by unfold raiseError; split <;> rfl
@[simp] theorem raiseError_lowcutFreq (code : BitVec 4) (s : State) : (raiseError code s).lowcutFreq = s.lowcutFreq := by unfold raiseError; split <;> rfl
@[simp] theorem raiseError_highcutFreq (code : BitVec 4) (s : State) : (raiseError code s).highcutFreq = s.highcutFreq := by unfold raiseError; split <;> rfl
@[simp] theorem raiseError_peakFreq (code : BitVec 4) (s : State) : (raiseError code s).peakFreq = s.peakFreq := by unfold raiseError; split <;> rfl
@[simp] theorem raiseError_peakGainDb (code : BitVec 4) (s : State) : (raiseError code s).peakGainDb = s.peakGainDb := by unfold raiseError; split <;> rfl
@[simp] theorem raiseError_peakQ (code : BitVec 4) (s : State) : (raiseError code s).peakQ = s.peakQ := by unfold raiseError; split <;> rfl
@[simp] theorem raiseError_lowcutSlope (code : BitVec 4) (s : State) : (raiseError code s).lowcutSlope = s.lowcutSlope := by unfold raiseError; split <;> rfl
@[simp] theorem raiseError_highcutSlope (code : BitVec 4) (s : State) : (raiseError code s).highcutSlope = s.highcutSlope := by unfold raiseError; split <;> rfl
@[simp] theorem raiseError_argSr (code : BitVec 4) (s : State) : (raiseError code s).argSr = s.argSr := by unfold raiseError; split <;> rfl
@[simp] theorem raiseError_argFreq (code : BitVec 4) (s : State) : (raiseError code s).argFreq = s.argFreq := by unfold raiseError; split <;> rfl
@[simp] theorem raiseError_argQ (code : BitVec 4) (s : State) : (raiseError code s).argQ = s.argQ := by unfold raiseError; split <;> rfl
@[simp] theorem raiseError_argGainDb (code : BitVec 4) (s : State) : (raiseError code s).argGainDb = s.argGainDb := by unfold raiseError; split <;> rfl
@[simp] theorem raiseError_designN (code : BitVec 4) (s : State) : (raiseError code s).designN = s.designN := by unfold raiseError; split <;> rfl
@[simp] theorem raiseError_dout (code : BitVec 4) (s : State) : (raiseError code s).dout = s.dout := by unfold raiseError; split <;> rfl
@[simp] theorem raiseError_chainL (code : BitVec 4) (s : State) : (raiseError code s).chainL = s.chainL := by unfold raiseError; split <;> rfl
@[simp] theorem raiseError_chainR (code : BitVec 4) (s : State) : (raiseError code s).chainR = s.chainR := by unfold raiseError; split <;> rfl
@[simp] theorem raiseError_mem (code : BitVec 4) (s : State) : (raiseError code s).mem = s.mem := by unfold raiseError; split <;> rfl
@[simp] theorem raiseError_latch (code : BitVec 4) (s : State) : (raiseError code s).latch = s.latch := by unfold raiseError; split <;> rfl
@[simp] theorem raiseError_faults (code : BitVec 4) (s : State) : (raiseError code s).faults = s.faults := by unfold raiseError; split <;> rfl
@[simp] theorem raiseError_freeCount (code : BitVec 4) (s : State) : (raiseError code s).freeCount = s.freeCount := by unfold raiseError; split <;> rfl
@[simp] theorem raiseError_hostA (code : BitVec 4) (s : State) : (raiseError code s).hostA = s.hostA := by unfold raiseError; split <;> rfl
@[simp] theorem raiseError_hostP (code : BitVec 4) (s : State) : (raiseError code s).hostP = s.hostP := by unfold raiseError; split <;> rfl
@[simp] theorem raiseError_readsA (code : BitVec 4) (s : State) : (raiseError code s).readsA = s.readsA := by unfold raiseError; split <;> rfl
@[simp] theorem raiseError_readsP (code : BitVec 4) (s : State) : (raiseError code s).readsP = s.readsP := by unfold raiseError; split <;> rfl

/-! ### `clearError` -/

@[simp] theorem clearError_err (s : State) : (clearError s).err = false := rfl
@[simp] theorem clearError_errCode (s : State) : (clearError s).errCode = 0#4 := rfl
@[simp] theorem clearError_srReq (s : State) : (clearError s).srReq = s.srReq := rfl
@[simp] theorem clearError_maxblkReq (s : State) : (clearError s).maxblkReq = s.maxblkReq := rfl
@[simp] theorem clearError_sr (s : State) : (clearError s).sr = s.sr := rfl
@[simp] theorem clearError_maxblk (s : State) : (clearError s).maxblk = s.maxblk := rfl
@[simp] theorem clearError_lowcutFreq (s : State) : (clearError s).lowcutFreq = s.lowcutFreq := rfl
@[simp] theorem clearError_highcutFreq (s : State) : (clearError s).highcutFreq = s.highcutFreq := rfl
@[simp] theorem clearError_peakFreq (s : State) : (clearError s).peakFreq = s.peakFreq := rfl
@[simp] theorem clearError_peakGainDb (s : State) : (clearError s).peakGainDb = s.peakGainDb := rfl
@[simp] theorem clearError_peakQ (s : State) : (clearError s).peakQ = s.peakQ := rfl
@[simp] theorem clearError_lowcutSlope (s : State) : (clearError s).lowcutSlope = s.lowcutSlope := rfl
@[simp] theorem clearError_highcutSlope (s : State) : (clearError s).highcutSlope = s.highcutSlope := rfl
@[simp] theorem clearError_argSr (s : State) : (clearError s).argSr = s.argSr := rfl
@[simp] theorem clearError_argFreq (s : State) : (clearError s).argFreq = s.argFreq := rfl
@[simp] theorem clearError_argQ (s : State) : (clearError s).argQ = s.argQ := rfl
@[simp] theorem clearError_argGainDb (s : State) : (clearError s).argGainDb = s.argGainDb := rfl
@[simp] theorem clearError_designN (s : State) : (clearError s).designN = s.designN := rfl
@[simp] theorem clearError_dout (s : State) : (clearError s).dout = s.dout := rfl
@[simp] theorem clearError_chainL (s : State) : (clearError s).chainL = s.chainL := rfl
@[simp] theorem clearError_chainR (s : State) : (clearError s).chainR = s.chainR := rfl
@[simp] theorem clearError_mem (s : State) : (clearError s).mem = s.mem := rfl
@[simp] theorem clearError_latch (s : State) : (clearError s).latch = s.latch := rfl
@[simp] theorem clearError_faults (s : State) : (clearError s).faults = s.faults := rfl
@[simp] theorem clearError_freeCount (s : State) : (clearError s).freeCount = s.freeCount := rfl
@[simp] theorem clearError_hostA (s : State) : (clearError s).hostA = s.hostA := rfl
@[simp] theorem clearError_hostP (s : State) : (clearError s).hostP = s.hostP := rfl
@[simp] theorem clearError_readsA (s : State) : (clearError s).readsA = s.readsA := rfl
@[simp] theorem clearError_readsP (s : State) : (clearError s).readsP = s.readsP := rfl

/-! ### `record` -/

@[simp] theorem record_err (f : Fault) (s : State) : (record f s).err = s.err := by unfold record; split <;> rfl
@[simp] theorem record_errCode (f : Fault) (s : State) : (record f s).errCode = s.errCode := by unfold record; split <;> rfl
@[simp] theorem record_srReq (f : Fault) (s : State) : (record f s).srReq = s.srReq := by unfold record; split <;> rfl
@[simp] theorem record_maxblkReq (f : Fault) (s : State) : (record f s).maxblkReq = s.maxblkReq := by unfold record; split <;> rfl
@[simp] theorem record_sr (f : Fault) (s : State) : (record f s).sr = s.sr := by unfold record; split <;> rfl
@[simp] theorem record_maxblk (f : Fault) (s : State) : (record f s).maxblk = s.maxblk := by unfold record; split <;> rfl
@[simp] theorem record_lowcutFreq (f : Fault) (s : State) : (record f s).lowcutFreq = s.lowcutFreq := by unfold record; split <;> rfl
@[simp] theorem record_highcutFreq (f : Fault) (s : State) : (record f s).highcutFreq = s.highcutFreq := by unfold record; split <;> rfl
@[simp] theorem record_peakFreq (f : Fault) (s : State) : (record f s).peakFreq = s.peakFreq := by unfold record; split <;> rfl
@[simp] theorem record_peakGainDb (f : Fault) (s : State) : (record f s).peakGainDb = s.peakGainDb := by unfold record; split <;> rfl
@[simp] theorem record_peakQ (f : Fault) (s : State) : (record f s).peakQ = s.peakQ := by unfold record; split <;> rfl
@[simp] theorem record_lowcutSlope (f : Fault) (s : State) : (record f s).lowcutSlope = s.lowcutSlope := by unfold record; split <;> rfl
@[simp] theorem record_highcutSlope (f : Fault) (s : State) : (record f s).highcutSlope = s.highcutSlope := by unfold record; split <;> rfl
@[simp] theorem record_argSr (f : Fault) (s : State) : (record f s).argSr = s.argSr := by unfold record; split <;> rfl
@[simp] theorem record_argFreq (f : Fault) (s : State) : (record f s).argFreq = s.argFreq := by unfold record; split <;> rfl
@[simp] theorem record_argQ (f : Fault) (s : State) : (record f s).argQ = s.argQ := by unfold record; split <;> rfl
@[simp] theorem record_argGainDb (f : Fault) (s : State) : (record f s).argGainDb = s.argGainDb := by unfold record; split <;> rfl
@[simp] theorem record_designN (f : Fault) (s : State) : (record f s).designN = s.designN := by unfold record; split <;> rfl
@[simp] theorem record_dout (f : Fault) (s : State) : (record f s).dout = s.dout := by unfold record; split <;> rfl
@[simp] theorem record_chainL (f : Fault) (s : State) : (record f s).chainL = s.chainL := by unfold record; split <;> rfl
@[simp] theorem record_chainR (f : Fault) (s : State) : (record f s).chainR = s.chainR := by unfold record; split <;> rfl
@[simp] theorem record_mem (f : Fault) (s : State) : (record f s).mem = s.mem := by unfold record; split <;> rfl
@[simp] theorem record_latch (f : Fault) (s : State) : (record f s).latch = s.latch := by unfold record; split <;> rfl
@[simp] theorem record_freeCount (f : Fault) (s : State) : (record f s).freeCount = s.freeCount := by unfold record; split <;> rfl
@[simp] theorem record_hostA (f : Fault) (s : State) : (record f s).hostA = s.hostA := by unfold record; split <;> rfl
@[simp] theorem record_hostP (f : Fault) (s : State) : (record f s).hostP = s.hostP := by unfold record; split <;> rfl
@[simp] theorem record_readsA (f : Fault) (s : State) : (record f s).readsA = s.readsA := by unfold record; split <;> rfl
@[simp] theorem record_readsP (f : Fault) (s : State) : (record f s).readsP = s.readsP := by unfold record; split <;> rfl

/-! ### `takeFree` -/

@[simp] theorem takeFree_err (n : Nat) (s : State) : (takeFree n s).err = s.err := rfl
@[simp] theorem takeFree_errCode (n : Nat) (s : State) : (takeFree n s).errCode = s.errCode := rfl
@[simp] theorem takeFree_srReq (n : Nat) (s : State) : (takeFree n s).srReq = s.srReq := rfl
@[simp] theorem takeFree_maxblkReq (n : Nat) (s : State) : (takeFree n s).maxblkReq = s.maxblkReq := rfl
@[simp] theorem takeFree_sr (n : Nat) (s : State) : (takeFree n s).sr = s.sr := rfl
@[simp] theorem takeFree_maxblk (n : Nat) (s : State) : (takeFree n s).maxblk = s.maxblk := rfl
@[simp] theorem takeFree_lowcutFreq (n : Nat) (s : State) : (takeFree n s).lowcutFreq = s.lowcutFreq := rfl
@[simp] theorem takeFree_highcutFreq (n : Nat) (s : State) : (takeFree n s).highcutFreq = s.highcutFreq := rfl
@[simp] theorem takeFree_peakFreq (n : Nat) (s : State) : (takeFree n s).peakFreq = s.peakFreq := rfl
@[simp] theorem takeFree_peakGainDb (n : Nat) (s : State) : (takeFree n s).peakGainDb = s.peakGainDb := rfl
@[simp] theorem takeFree_peakQ (n : Nat) (s : State) : (takeFree n s).peakQ = s.peakQ := rfl
@[simp] theorem takeFree_lowcutSlope (n : Nat) (s : State) : (takeFree n s).lowcutSlope = s.lowcutSlope := rfl
@[simp] theorem takeFree_highcutSlope (n : Nat) (s : State) : (takeFree n s).highcutSlope = s.highcutSlope := rfl
@[simp] theorem takeFree_argSr (n : Nat) (s : State) : (takeFree n s).argSr = s.argSr := rfl
@[simp] theorem takeFree_argFreq (n : Nat) (s : State) : (takeFree n s).argFreq = s.argFreq := rfl
@[simp] theorem takeFree_argQ (n : Nat) (s : State) : (takeFree n s).argQ = s.argQ := rfl
@[simp] theorem takeFree_argGainDb (n : Nat) (s : State) : (takeFree n s).argGainDb = s.argGainDb := rfl
@[simp] theorem takeFree_designN (n : Nat) (s : State) : (takeFree n s).designN = s.designN := rfl
@[simp] theorem takeFree_dout (n : Nat) (s : State) : (takeFree n s).dout = s.dout := rfl
@[simp] theorem takeFree_chainL (n : Nat) (s : State) : (takeFree n s).chainL = s.chainL := rfl
@[simp] theorem takeFree_chainR (n : Nat) (s : State) : (takeFree n s).chainR = s.chainR := rfl
@[simp] theorem takeFree_mem (n : Nat) (s : State) : (takeFree n s).mem = s.mem := rfl
@[simp] theorem takeFree_latch (n : Nat) (s : State) : (takeFree n s).latch = s.latch := rfl
@[simp] theorem takeFree_faults (n : Nat) (s : State) : (takeFree n s).faults = s.faults := rfl
@[simp] theorem takeFree_freeCount (n : Nat) (s : State) : (takeFree n s).freeCount = s.freeCount + n := rfl
@[simp] theorem takeFree_hostA (n : Nat) (s : State) : (takeFree n s).hostA = s.hostA := rfl
@[simp] theorem takeFree_hostP (n : Nat) (s : State) : (takeFree n s).hostP = s.hostP := rfl
@[simp] theorem takeFree_readsA (n : Nat) (s : State) : (takeFree n s).readsA = s.readsA := rfl
@[simp] theorem takeFree_readsP (n : Nat) (s : State) : (takeFree n s).readsP = s.readsP := rfl

/-! ### `writeBuf` -/

@[simp] theorem writeBuf_err (c : Chan) (i : Nat) (w : Word) (s : State) : (writeBuf c i w s).err = s.err := rfl
@[simp] theorem writeBuf_errCode (c : Chan) (i : Nat) (w : Word) (s : State) : (writeBuf c i w s).errCode = s.errCode := rfl
@[simp] theorem writeBuf_srReq (c : Chan) (i : Nat) (w : Word) (s : State) : (writeBuf c i w s).srReq = s.srReq := rfl
@[simp] theorem writeBuf_maxblkReq (c : Chan) (i : Nat) (w : Word) (s : State) : (writeBuf c i w s).maxblkReq = s.maxblkReq := rfl
@[simp] theorem writeBuf_sr (c : Chan) (i : Nat) (w : Word) (s : State) : (writeBuf c i w s).sr = s.sr := rfl
@[simp] theorem writeBuf_maxblk (c : Chan) (i : Nat) (w : Word) (s : State) : (writeBuf c i w s).maxblk = s.maxblk := rfl
@[simp] theorem writeBuf_lowcutFreq (c : Chan) (i : Nat) (w : Word) (s : State) : (writeBuf c i w s).lowcutFreq = s.lowcutFreq := rfl
@[simp] theorem writeBuf_highcutFreq (c : Chan) (i : Nat) (w : Word) (s : State) : (writeBuf c i w s).highcutFreq = s.highcutFreq := rfl
@[simp] theorem writeBuf_peakFreq (c : Chan) (i : Nat) (w : Word) (s : State) : (writeBuf c i w s).peakFreq = s.peakFreq := rfl
@[simp] theorem writeBuf_peakGainDb (c : Chan) (i : Nat) (w : Word) (s : State) : (writeBuf c i w s).peakGainDb = s.peakGainDb := rfl
@[simp] theorem writeBuf_peakQ (c : Chan) (i : Nat) (w : Word) (s : State) : (writeBuf c i w s).peakQ = s.peakQ := rfl
@[simp] theorem writeBuf_lowcutSlope (c : Chan) (i : Nat) (w : Word) (s : State) : (writeBuf c i w s).lowcutSlope = s.lowcutSlope := rfl
@[simp] theorem writeBuf_highcutSlope (c : Chan) (i : Nat) (w : Word) (s : State) : (writeBuf c i w s).highcutSlope = s.highcutSlope := rfl
@[simp] theorem writeBuf_argSr (c : Chan) (i : Nat) (w : Word) (s : State) : (writeBuf c i w s).argSr = s.argSr := rfl
@[simp] theorem writeBuf_argFreq (c : Chan) (i : Nat) (w : Word) (s : State) : (writeBuf c i w s).argFreq = s.argFreq := rfl
@[simp] theorem writeBuf_argQ (c : Chan) (i : Nat) (w : Word) (s : State) : (writeBuf c i w s).argQ = s.argQ := rfl
@[simp] theorem writeBuf_argGainDb (c : Chan) (i : Nat) (w : Word) (s : State) : (writeBuf c i w s).argGainDb = s.argGainDb := rfl
@[simp] theorem writeBuf_designN (c : Chan) (i : Nat) (w : Word) (s : State) : (writeBuf c i w s).designN = s.designN := rfl
@[simp] theorem writeBuf_dout (c : Chan) (i : Nat) (w : Word) (s : State) : (writeBuf c i w s).dout = s.dout := rfl
@[simp] theorem writeBuf_chainL (c : Chan) (i : Nat) (w : Word) (s : State) : (writeBuf c i w s).chainL = s.chainL := rfl
@[simp] theorem writeBuf_chainR (c : Chan) (i : Nat) (w : Word) (s : State) : (writeBuf c i w s).chainR = s.chainR := rfl
@[simp] theorem writeBuf_mem (c : Chan) (i : Nat) (w : Word) (s : State) : (writeBuf c i w s).mem = s.mem.writeWord (bufAddr c i) w := rfl
@[simp] theorem writeBuf_latch (c : Chan) (i : Nat) (w : Word) (s : State) : (writeBuf c i w s).latch = s.latch := rfl
@[simp] theorem writeBuf_faults (c : Chan) (i : Nat) (w : Word) (s : State) : (writeBuf c i w s).faults = s.faults := rfl
@[simp] theorem writeBuf_freeCount (c : Chan) (i : Nat) (w : Word) (s : State) : (writeBuf c i w s).freeCount = s.freeCount := rfl
@[simp] theorem writeBuf_hostA (c : Chan) (i : Nat) (w : Word) (s : State) : (writeBuf c i w s).hostA = s.hostA := rfl
@[simp] theorem writeBuf_hostP (c : Chan) (i : Nat) (w : Word) (s : State) : (writeBuf c i w s).hostP = s.hostP := rfl
@[simp] theorem writeBuf_readsA (c : Chan) (i : Nat) (w : Word) (s : State) : (writeBuf c i w s).readsA = s.readsA := rfl
@[simp] theorem writeBuf_readsP (c : Chan) (i : Nat) (w : Word) (s : State) : (writeBuf c i w s).readsP = s.readsP := rfl

/-! ### `setPeak` -/

@[simp] theorem setPeak_err (cs : CoeffSet) (c : Chan) (s : State) : (setPeak cs c s).err = s.err := by cases c <;> rfl
@[simp] theorem setPeak_errCode (cs : CoeffSet) (c : Chan) (s : State) : (setPeak cs c s).errCode = s.errCode := by cases c <;> rfl
@[simp] theorem setPeak_srReq (cs : CoeffSet) (c : Chan) (s : State) : (setPeak cs c s).srReq = s.srReq := by cases c <;> rfl
@[simp] theorem setPeak_maxblkReq (cs : CoeffSet) (c : Chan) (s : State) : (setPeak cs c s).maxblkReq = s.maxblkReq := by cases c <;> rfl
@[simp] theorem setPeak_sr (cs : CoeffSet) (c : Chan) (s : State) : (setPeak cs c s).sr = s.sr := by cases c <;> rfl
@[simp] theorem setPeak_maxblk (cs : CoeffSet) (c : Chan) (s : State) : (setPeak cs c s).maxblk = s.maxblk := by cases c <;> rfl
@[simp] theorem setPeak_lowcutFreq (cs : CoeffSet) (c : Chan) (s : State) : (setPeak cs c s).lowcutFreq = s.lowcutFreq := by cases c <;> rfl
@[simp] theorem setPeak_highcutFreq (cs : CoeffSet) (c : Chan) (s : State) : (setPeak cs c s).highcutFreq = s.highcutFreq := by cases c <;> rfl
@[simp] theorem setPeak_peakFreq (cs : CoeffSet) (c : Chan) (s : State) : (setPeak cs c s).peakFreq = s.peakFreq := by cases c <;> rfl
@[simp] theorem setPeak_peakGainDb (cs : CoeffSet) (c : Chan) (s : State) : (setPeak cs c s).peakGainDb = s.peakGainDb := by cases c <;> rfl
@[simp] theorem setPeak_peakQ (cs : CoeffSet) (c : Chan) (s : State) : (setPeak cs c s).peakQ = s.peakQ := by cases c <;> rfl
@[simp] theorem setPeak_lowcutSlope (cs : CoeffSet) (c : Chan) (s : State) : (setPeak cs c s).lowcutSlope = s.lowcutSlope := by cases c <;> rfl
@[simp] theorem setPeak_highcutSlope (cs : CoeffSet) (c : Chan) (s : State) : (setPeak cs c s).highcutSlope = s.highcutSlope := by cases c <;> rfl
@[simp] theorem setPeak_argSr (cs : CoeffSet) (c : Chan) (s : State) : (setPeak cs c s).argSr = s.argSr := by cases c <;> rfl
@[simp] theorem setPeak_argFreq (cs : CoeffSet) (c : Chan) (s : State) : (setPeak cs c s).argFreq = s.argFreq := by cases c <;> rfl
@[simp] theorem setPeak_argQ (cs : CoeffSet) (c : Chan) (s : State) : (setPeak cs c s).argQ = s.argQ := by cases c <;> rfl
@[simp] theorem setPeak_argGainDb (cs : CoeffSet) (c : Chan) (s : State) : (setPeak cs c s).argGainDb = s.argGainDb := by cases c <;> rfl
@[simp] theorem setPeak_designN (cs : CoeffSet) (c : Chan) (s : State) : (setPeak cs c s).designN = s.designN := by cases c <;> rfl
@[simp] theorem setPeak_dout (cs : CoeffSet) (c : Chan) (s : State) : (setPeak cs c s).dout = s.dout := by cases c <;> rfl
@[simp] theorem setPeak_mem (cs : CoeffSet) (c : Chan) (s : State) : (setPeak cs c s).mem = s.mem := by cases c <;> rfl
@[simp] theorem setPeak_latch (cs : CoeffSet) (c : Chan) (s : State) : (setPeak cs c s).latch = s.latch := by cases c <;> rfl
@[simp] theorem setPeak_faults (cs : CoeffSet) (c : Chan) (s : State) : (setPeak cs c s).faults = s.faults := by cases c <;> rfl
@[simp] theorem setPeak_freeCount (cs : CoeffSet) (c : Chan) (s : State) : (setPeak cs c s).freeCount = s.freeCount := by cases c <;> rfl
@[simp] theorem setPeak_hostA (cs : CoeffSet) (c : Chan) (s : State) : (setPeak cs c s).hostA = s.hostA := by cases c <;> rfl
@[simp] theorem setPeak_hostP (cs : CoeffSet) (c : Chan) (s : State) : (setPeak cs c s).hostP = s.hostP := by cases c <;> rfl
@[simp] theorem setPeak_readsA (cs : CoeffSet) (c : Chan) (s : State) : (setPeak cs c s).readsA = s.readsA := by cases c <;> rfl
@[simp] theorem setPeak_readsP (cs : CoeffSet) (c : Chan) (s : State) : (setPeak cs c s).readsP = s.readsP := by cases c <;> rfl

/-! ### `setLowCut` -/

@[simp] theorem setLowCut_err (n : Nat) (seq : Four CoeffSet) (c : Chan) (s : State) : (setLowCut n seq c s).err = s.err := by cases c <;> rfl
@[simp] theorem setLowCut_errCode (n : Nat) (seq : Four CoeffSet) (c : Chan) (s : State) : (setLowCut n seq c s).errCode = s.errCode := by cases c <;> rfl
@[simp] theorem setLowCut_srReq (n : Nat) (seq : Four CoeffSet) (c : Chan) (s : State) : (setLowCut n seq c s).srReq = s.srReq := by cases c <;> rfl
@[simp] theorem setLowCut_maxblkReq (n : Nat) (seq : Four CoeffSet) (c : Chan) (s : State) : (setLowCut n seq c s).maxblkReq = s.maxblkReq := by cases c <;> rfl
@[simp] theorem setLowCut_sr (n : Nat) (seq : Four CoeffSet) (c : Chan) (s : State) : (setLowCut n seq c s).sr = s.sr := by cases c <;> rfl
@[simp] theorem setLowCut_maxblk (n : Nat) (seq : Four CoeffSet) (c : Chan) (s : State) : (setLowCut n seq c s).maxblk = s.maxblk := by cases c <;> rfl
@[simp] theorem setLowCut_lowcutFreq (n : Nat) (seq : Four CoeffSet) (c : Chan) (s : State) : (setLowCut n seq c s).lowcutFreq = s.lowcutFreq := by cases c <;> rfl
@[simp] theorem setLowCut_highcutFreq (n : Nat) (seq : Four CoeffSet) (c : Chan) (s : State) : (setLowCut n seq c s).highcutFreq = s.highcutFreq := by cases c <;> rfl
@[simp] theorem setLowCut_peakFreq (n : Nat) (seq : Four CoeffSet) (c : Chan) (s : State) : (setLowCut n seq c s).peakFreq = s.peakFreq := by cases c <;> rfl
@[simp] theorem setLowCut_peakGainDb (n : Nat) (seq : Four CoeffSet) (c : Chan) (s : State) : (setLowCut n seq c s).peakGainDb = s.peakGainDb := by cases c <;> rfl
@[simp] theorem setLowCut_peakQ (n : Nat) (seq : Four CoeffSet) (c : Chan) (s : State) : (setLowCut n seq c s).peakQ = s.peakQ := by cases c <;> rfl
@[simp] theorem setLowCut_lowcutSlope (n : Nat) (seq : Four CoeffSet) (c : Chan) (s : State) : (setLowCut n seq c s).lowcutSlope = s.lowcutSlope := by cases c <;> rfl
@[simp] theorem setLowCut_highcutSlope (n : Nat) (seq : Four CoeffSet) (c : Chan) (s : State) : (setLowCut n seq c s).highcutSlope = s.highcutSlope := by cases c <;> rfl
@[simp] theorem setLowCut_argSr (n : Nat) (seq : Four CoeffSet) (c : Chan) (s : State) : (setLowCut n seq c s).argSr = s.argSr := by cases c <;> rfl
@[simp] theorem setLowCut_argFreq (n : Nat) (seq : Four CoeffSet) (c : Chan) (s : State) : (setLowCut n seq c s).argFreq = s.argFreq := by cases c <;> rfl
@[simp] theorem setLowCut_argQ (n : Nat) (seq : Four CoeffSet) (c : Chan) (s : State) : (setLowCut n seq c s).argQ = s.argQ := by cases c <;> rfl
@[simp] theorem setLowCut_argGainDb (n : Nat) (seq : Four CoeffSet) (c : Chan) (s : State) : (setLowCut n seq c s).argGainDb = s.argGainDb := by cases c <;> rfl
@[simp] theorem setLowCut_designN (n : Nat) (seq : Four CoeffSet) (c : Chan) (s : State) : (setLowCut n seq c s).designN = s.designN := by cases c <;> rfl
@[simp] theorem setLowCut_dout (n : Nat) (seq : Four CoeffSet) (c : Chan) (s : State) : (setLowCut n seq c s).dout = s.dout := by cases c <;> rfl
@[simp] theorem setLowCut_mem (n : Nat) (seq : Four CoeffSet) (c : Chan) (s : State) : (setLowCut n seq c s).mem = s.mem := by cases c <;> rfl
@[simp] theorem setLowCut_latch (n : Nat) (seq : Four CoeffSet) (c : Chan) (s : State) : (setLowCut n seq c s).latch = s.latch := by cases c <;> rfl
@[simp] theorem setLowCut_faults (n : Nat) (seq : Four CoeffSet) (c : Chan) (s : State) : (setLowCut n seq c s).faults = s.faults := by cases c <;> rfl
@[simp] theorem setLowCut_freeCount (n : Nat) (seq : Four CoeffSet) (c : Chan) (s : State) : (setLowCut n seq c s).freeCount = s.freeCount := by cases c <;> rfl
@[simp] theorem setLowCut_hostA (n : Nat) (seq : Four CoeffSet) (c : Chan) (s : State) : (setLowCut n seq c s).hostA = s.hostA := by cases c <;> rfl
@[simp] theorem setLowCut_hostP (n : Nat) (seq : Four CoeffSet) (c : Chan) (s : State) : (setLowCut n seq c s).hostP = s.hostP := by cases c <;> rfl
@[simp] theorem setLowCut_readsA (n : Nat) (seq : Four CoeffSet) (c : Chan) (s : State) : (setLowCut n seq c s).readsA = s.readsA := by cases c <;> rfl
@[simp] theorem setLowCut_readsP (n : Nat) (seq : Four CoeffSet) (c : Chan) (s : State) : (setLowCut n seq c s).readsP = s.readsP := by cases c <;> rfl

/-! ### `setHighCut` -/

@[simp] theorem setHighCut_err (n : Nat) (seq : Four CoeffSet) (c : Chan) (s : State) : (setHighCut n seq c s).err = s.err := by cases c <;> rfl
@[simp] theorem setHighCut_errCode (n : Nat) (seq : Four CoeffSet) (c : Chan) (s : State) : (setHighCut n seq c s).errCode = s.errCode := by cases c <;> rfl
@[simp] theorem setHighCut_srReq (n : Nat) (seq : Four CoeffSet) (c : Chan) (s : State) : (setHighCut n seq c s).srReq = s.srReq := by cases c <;> rfl
@[simp] theorem setHighCut_maxblkReq (n : Nat) (seq : Four CoeffSet) (c : Chan) (s : State) : (setHighCut n seq c s).maxblkReq = s.maxblkReq := by cases c <;> rfl
@[simp] theorem setHighCut_sr (n : Nat) (seq : Four CoeffSet) (c : Chan) (s : State) : (setHighCut n seq c s).sr = s.sr := by cases c <;> rfl
@[simp] theorem setHighCut_maxblk (n : Nat) (seq : Four CoeffSet) (c : Chan) (s : State) : (setHighCut n seq c s).maxblk = s.maxblk := by cases c <;> rfl
@[simp] theorem setHighCut_lowcutFreq (n : Nat) (seq : Four CoeffSet) (c : Chan) (s : State) : (setHighCut n seq c s).lowcutFreq = s.lowcutFreq := by cases c <;> rfl
@[simp] theorem setHighCut_highcutFreq (n : Nat) (seq : Four CoeffSet) (c : Chan) (s : State) : (setHighCut n seq c s).highcutFreq = s.highcutFreq := by cases c <;> rfl
@[simp] theorem setHighCut_peakFreq (n : Nat) (seq : Four CoeffSet) (c : Chan) (s : State) : (setHighCut n seq c s).peakFreq = s.peakFreq := by cases c <;> rfl
@[simp] theorem setHighCut_peakGainDb (n : Nat) (seq : Four CoeffSet) (c : Chan) (s : State) : (setHighCut n seq c s).peakGainDb = s.peakGainDb := by cases c <;> rfl
@[simp] theorem setHighCut_peakQ (n : Nat) (seq : Four CoeffSet) (c : Chan) (s : State) : (setHighCut n seq c s).peakQ = s.peakQ := by cases c <;> rfl
@[simp] theorem setHighCut_lowcutSlope (n : Nat) (seq : Four CoeffSet) (c : Chan) (s : State) : (setHighCut n seq c s).lowcutSlope = s.lowcutSlope := by cases c <;> rfl
@[simp] theorem setHighCut_highcutSlope (n : Nat) (seq : Four CoeffSet) (c : Chan) (s : State) : (setHighCut n seq c s).highcutSlope = s.highcutSlope := by cases c <;> rfl
@[simp] theorem setHighCut_argSr (n : Nat) (seq : Four CoeffSet) (c : Chan) (s : State) : (setHighCut n seq c s).argSr = s.argSr := by cases c <;> rfl
@[simp] theorem setHighCut_argFreq (n : Nat) (seq : Four CoeffSet) (c : Chan) (s : State) : (setHighCut n seq c s).argFreq = s.argFreq := by cases c <;> rfl
@[simp] theorem setHighCut_argQ (n : Nat) (seq : Four CoeffSet) (c : Chan) (s : State) : (setHighCut n seq c s).argQ = s.argQ := by cases c <;> rfl
@[simp] theorem setHighCut_argGainDb (n : Nat) (seq : Four CoeffSet) (c : Chan) (s : State) : (setHighCut n seq c s).argGainDb = s.argGainDb := by cases c <;> rfl
@[simp] theorem setHighCut_designN (n : Nat) (seq : Four CoeffSet) (c : Chan) (s : State) : (setHighCut n seq c s).designN = s.designN := by cases c <;> rfl
@[simp] theorem setHighCut_dout (n : Nat) (seq : Four CoeffSet) (c : Chan) (s : State) : (setHighCut n seq c s).dout = s.dout := by cases c <;> rfl
@[simp] theorem setHighCut_mem (n : Nat) (seq : Four CoeffSet) (c : Chan) (s : State) : (setHighCut n seq c s).mem = s.mem := by cases c <;> rfl
@[simp] theorem setHighCut_latch (n : Nat) (seq : Four CoeffSet) (c : Chan) (s : State) : (setHighCut n seq c s).latch = s.latch := by cases c <;> rfl
@[simp] theorem setHighCut_faults (n : Nat) (seq : Four CoeffSet) (c : Chan) (s : State) : (setHighCut n seq c s).faults = s.faults := by cases c <;> rfl
@[simp] theorem setHighCut_freeCount (n : Nat) (seq : Four CoeffSet) (c : Chan) (s : State) : (setHighCut n seq c s).freeCount = s.freeCount := by cases c <;> rfl
@[simp] theorem setHighCut_hostA (n : Nat) (seq : Four CoeffSet) (c : Chan) (s : State) : (setHighCut n seq c s).hostA = s.hostA := by cases c <;> rfl
@[simp] theorem setHighCut_hostP (n : Nat) (seq : Four CoeffSet) (c : Chan) (s : State) : (setHighCut n seq c s).hostP = s.hostP := by cases c <;> rfl
@[simp] theorem setHighCut_readsA (n : Nat) (seq : Four CoeffSet) (c : Chan) (s : State) : (setHighCut n seq c s).readsA = s.readsA := by cases c <;> rfl
@[simp] theorem setHighCut_readsP (n : Nat) (seq : Four CoeffSet) (c : Chan) (s : State) : (setHighCut n seq c s).readsP = s.readsP := by cases c <;> rfl

/-! ### `writeDout` -/

@[simp] theorem writeDout_err (n : Nat) (sets : Four CoeffSet) (s : State) : (writeDout n sets s).err = s.err := rfl
@[simp] theorem writeDout_errCode (n : Nat) (sets : Four CoeffSet) (s : State) : (writeDout n sets s).errCode = s.errCode := rfl
@[simp] theorem writeDout_srReq (n : Nat) (sets : Four CoeffSet) (s : State) : (writeDout n sets s).srReq = s.srReq := rfl
@[simp] theorem writeDout_maxblkReq (n : Nat) (sets : Four CoeffSet) (s : State) : (writeDout n sets s).maxblkReq = s.maxblkReq := rfl
@[simp] theorem writeDout_sr (n : Nat) (sets : Four CoeffSet) (s : State) : (writeDout n sets s).sr = s.sr := rfl
@[simp] theorem writeDout_maxblk (n : Nat) (sets : Four CoeffSet) (s : State) : (writeDout n sets s).maxblk = s.maxblk := rfl
@[simp] theorem writeDout_lowcutFreq (n : Nat) (sets : Four CoeffSet) (s : State) : (writeDout n sets s).lowcutFreq = s.lowcutFreq := rfl
@[simp] theorem writeDout_highcutFreq (n : Nat) (sets : Four CoeffSet) (s : State) : (writeDout n sets s).highcutFreq = s.highcutFreq := rfl
@[simp] theorem writeDout_peakFreq (n : Nat) (sets : Four CoeffSet) (s : State) : (writeDout n sets s).peakFreq = s.peakFreq := rfl
@[simp] theorem writeDout_peakGainDb (n : Nat) (sets : Four CoeffSet) (s : State) : (writeDout n sets s).peakGainDb = s.peakGainDb := rfl
@[simp] theorem writeDout_peakQ (n : Nat) (sets : Four CoeffSet) (s : State) : (writeDout n sets s).peakQ = s.peakQ := rfl
@[simp] theorem writeDout_lowcutSlope (n : Nat) (sets : Four CoeffSet) (s : State) : (writeDout n sets s).lowcutSlope = s.lowcutSlope := rfl
@[simp] theorem writeDout_highcutSlope (n : Nat) (sets : Four CoeffSet) (s : State) : (writeDout n sets s).highcutSlope = s.highcutSlope := rfl
@[simp] theorem writeDout_argSr (n : Nat) (sets : Four CoeffSet) (s : State) : (writeDout n sets s).argSr = s.argSr := rfl
@[simp] theorem writeDout_argFreq (n : Nat) (sets : Four CoeffSet) (s : State) : (writeDout n sets s).argFreq = s.argFreq := rfl
@[simp] theorem writeDout_argQ (n : Nat) (sets : Four CoeffSet) (s : State) : (writeDout n sets s).argQ = s.argQ := rfl
@[simp] theorem writeDout_argGainDb (n : Nat) (sets : Four CoeffSet) (s : State) : (writeDout n sets s).argGainDb = s.argGainDb := rfl
@[simp] theorem writeDout_designN (n : Nat) (sets : Four CoeffSet) (s : State) : (writeDout n sets s).designN = BitVec.ofNat 3 n := rfl
@[simp] theorem writeDout_dout (n : Nat) (sets : Four CoeffSet) (s : State) : (writeDout n sets s).dout = s.dout.mapIdx fun k old => if k < n then sets.get k else old := rfl
@[simp] theorem writeDout_chainL (n : Nat) (sets : Four CoeffSet) (s : State) : (writeDout n sets s).chainL = s.chainL := rfl
@[simp] theorem writeDout_chainR (n : Nat) (sets : Four CoeffSet) (s : State) : (writeDout n sets s).chainR = s.chainR := rfl
@[simp] theorem writeDout_mem (n : Nat) (sets : Four CoeffSet) (s : State) : (writeDout n sets s).mem = s.mem := rfl
@[simp] theorem writeDout_latch (n : Nat) (sets : Four CoeffSet) (s : State) : (writeDout n sets s).latch = s.latch := rfl
@[simp] theorem writeDout_faults (n : Nat) (sets : Four CoeffSet) (s : State) : (writeDout n sets s).faults = s.faults := rfl
@[simp] theorem writeDout_freeCount (n : Nat) (sets : Four CoeffSet) (s : State) : (writeDout n sets s).freeCount = s.freeCount := rfl
@[simp] theorem writeDout_hostA (n : Nat) (sets : Four CoeffSet) (s : State) : (writeDout n sets s).hostA = s.hostA := rfl
@[simp] theorem writeDout_hostP (n : Nat) (sets : Four CoeffSet) (s : State) : (writeDout n sets s).hostP = s.hostP := rfl
@[simp] theorem writeDout_readsA (n : Nat) (sets : Four CoeffSet) (s : State) : (writeDout n sets s).readsA = s.readsA := rfl
@[simp] theorem writeDout_readsP (n : Nat) (sets : Four CoeffSet) (s : State) : (writeDout n sets s).readsP = s.readsP := rfl

/-! ### A channel after an update -/

@[simp] theorem setChain_chain_self (s : State) (c : Chan) (v : Chain) : (s.setChain c v).chain c = v := by
  cases c <;> rfl

theorem setChain_chain_other (s : State) (c d : Chan) (v : Chain) (h : d ≠ c) :
    (s.setChain c v).chain d = s.chain d := by
  cases c <;> cases d <;> first | rfl | exact absurd rfl h

@[simp] theorem clearDelays_chain (s : State) (c : Chan) : (clearDelays s).chain c = (s.chain c).clear := by
  cases c <;> rfl

@[simp] theorem raiseError_chain (code : BitVec 4) (s : State) (c : Chan) :
    (raiseError code s).chain c = s.chain c := by
  cases c <;> simp [State.chain]

@[simp] theorem record_chain (f : Fault) (s : State) (c : Chan) : (record f s).chain c = s.chain c := by
  cases c <;> simp [State.chain]

@[simp] theorem takeFree_chain (n : Nat) (s : State) (c : Chan) : (takeFree n s).chain c = s.chain c := by
  cases c <;> rfl

@[simp] theorem writeBuf_chain (c d : Chan) (i : Nat) (w : Word) (s : State) :
    (writeBuf c i w s).chain d = s.chain d := by
  cases d <;> rfl

/-! ### The updates as single record updates -/

theorem raiseError_eq (code : BitVec 4) (s : State) :
    raiseError code s = { s with err := true, errCode := if s.err then s.errCode else code } := by
  unfold raiseError
  cases h : s.err
  · rfl
  · cases s; simp_all

theorem record_eq (f : Fault) (s : State) : record f s = { s with faults := (record f s).faults } := by
  unfold record; split <;> rfl

theorem mem_record (f : Fault) (s : State) : f ∈ (record f s).faults := by
  unfold record; split <;> simp_all

theorem record_keeps (f g : Fault) (s : State) (h : g ∈ s.faults) : g ∈ (record f s).faults := by
  unfold record; split <;> simp_all

theorem mem_record_iff (f g : Fault) (s : State) : g ∈ (record f s).faults ↔ g ∈ s.faults ∨ g = f := by
  unfold record; split
  · constructor
    · exact Or.inl
    · rintro (h | rfl) <;> assumption
  · simp

end Sys2Proof.Machine
end

