-- ==== Sys2Proof/Laws/Ops.lean ====
section
/-! SUPPORT. What each shared operation can do, said once: the channel loops, Host-P's turn and the snapshot, the installed
sets, the design-and-install step and the error it raises. -/

namespace Sys2Proof.Machine

/-! ### Channels -/

/-- A loop over the selected channels that replaces each one's chain by a function of it. -/
theorem forChannels_setChain (ch : ChMask) (g : Chain → Chain) (s : State) :
    forChannels ch (fun c s => s.setChain c (g (s.chain c))) s =
      { s with chainL := if ch.left then g s.chainL else s.chainL, chainR := if ch.right then g s.chainR else s.chainR } := by
  obtain ⟨l, r⟩ := ch
  cases l <;> cases r <;> rfl

theorem forChannels_setPeak (ch : ChMask) (cs : CoeffSet) (s : State) :
    forChannels ch (setPeak cs) s =
      { s with
        chainL := if ch.left then { s.chainL with peak := s.chainL.peak.install cs } else s.chainL
        chainR := if ch.right then { s.chainR with peak := s.chainR.peak.install cs } else s.chainR } :=
  forChannels_setChain ch (fun h => { h with peak := h.peak.install cs }) s

theorem forChannels_setLowCut (ch : ChMask) (n : Nat) (seq : Four CoeffSet) (s : State) :
    forChannels ch (setLowCut n seq) s =
      { s with
        chainL := if ch.left then { s.chainL with lowCut := s.chainL.lowCut.setSlope n seq } else s.chainL
        chainR := if ch.right then { s.chainR with lowCut := s.chainR.lowCut.setSlope n seq } else s.chainR } :=
  forChannels_setChain ch (fun h => { h with lowCut := h.lowCut.setSlope n seq }) s

theorem forChannels_setHighCut (ch : ChMask) (n : Nat) (seq : Four CoeffSet) (s : State) :
    forChannels ch (setHighCut n seq) s =
      { s with
        chainL := if ch.left then { s.chainL with highCut := s.chainL.highCut.setSlope n seq } else s.chainL
        chainR := if ch.right then { s.chainR with highCut := s.chainR.highCut.setSlope n seq } else s.chainR } :=
  forChannels_setChain ch (fun h => { h with highCut := h.highCut.setSlope n seq }) s

/-! ### Stage counts and slopes -/

theorem slopeCount_range (sel : BitVec 2) : 1 ≤ slopeCount sel ∧ slopeCount sel ≤ 4 := by
  have := sel.isLt
  unfold slopeCount
  omega

theorem count_toNat {n : Nat} (h : n ≤ 4) : (BitVec.ofNat 3 n).toNat = n := by
  rw [BitVec.toNat_ofNat, Nat.mod_eq_of_lt (by omega)]

/-- Entry `i` after every entry is replaced. -/
theorem Four.get_mapIdx {α β : Type} (f : Nat → α → β) (v : Four α) {i : Nat} (h : i < 4) :
    (v.mapIdx f).get i = f i (v.get i) := by
  have : i = 0 ∨ i = 1 ∨ i = 2 ∨ i = 3 := by omega
  rcases this with rfl | rfl | rfl | rfl <;> rfl

theorem sections_get (sect : Nat → CoeffSet) {i : Nat} (h : i < 4) : (sections sect).get i = sect i := by
  have : i = 0 ∨ i = 1 ∨ i = 2 ∨ i = 3 := by omega
  rcases this with rfl | rfl | rfl | rfl <;> rfl

/-- Everything `setSlope` does to a stage. -/
theorem setSlope_stage (n : Nat) (seq : Four CoeffSet) (f : Cut) {i : Nat} (h : i < 4) :
    (f.setSlope n seq).stages.get i =
      if n ≤ i then { f.stages.get i with bypass := true }
      else { bq := { (f.stages.get i).bq with cs := seq.get i }, bypass := false } := by
  unfold Cut.setSlope
  rw [Four.get_mapIdx _ _ h]
  by_cases h : n ≤ i <;> simp [slopeBypass, Biquad.install, h]

theorem setSlope_count (n : Nat) (seq : Four CoeffSet) (f : Cut) (h : n ≤ 4) : (f.setSlope n seq).count.toNat = n :=
  count_toNat h

theorem setSlope_slopedFrom (n : Nat) (seq : Four CoeffSet) (f : Cut) (h : n ≤ 4) :
    f.slopedFrom n seq.get (f.setSlope n seq) := by
  refine ⟨setSlope_count n seq f h, fun i hi => ⟨fun hn => ?_, fun hn => ?_⟩⟩
  · rw [setSlope_stage n seq f hi, if_neg (by omega)]
  · rw [setSlope_stage n seq f hi, if_pos hn]

/-- After `setSlope` with a legal stage count the cut filter meets its invariant (10_state.md R28). -/
theorem setSlope_inv (n : Nat) (seq : Four CoeffSet) (f : Cut) (h1 : 1 ≤ n) (h4 : n ≤ 4) : (f.setSlope n seq).Inv := by
  refine ⟨by rw [setSlope_count n seq f h4]; exact h1, by rw [setSlope_count n seq f h4]; exact h4, fun i hi => ?_⟩
  rw [setSlope_stage n seq f hi, setSlope_count n seq f h4]
  split <;> simp_all

/-! ### Host-P -/

/-- A Host-P write stores at most one parameter register. -/
theorem writeParam_frame (l : Loc) (v : Word) (s : State) :
    let t := writeParam l v s
    t = { s with lowcutFreq := t.lowcutFreq, highcutFreq := t.highcutFreq, peakFreq := t.peakFreq,
                 peakGainDb := t.peakGainDb, peakQ := t.peakQ, lowcutSlope := t.lowcutSlope,
                 highcutSlope := t.highcutSlope } := by
  cases l <;> rfl

/-- Two states that agree on all but the parameter registers, the latch and what belongs to Host-P. -/
def ParamFrame (s t : State) : Prop :=
  t = { s with
    lowcutFreq := t.lowcutFreq, highcutFreq := t.highcutFreq, peakFreq := t.peakFreq, peakGainDb := t.peakGainDb,
    peakQ := t.peakQ, lowcutSlope := t.lowcutSlope, highcutSlope := t.highcutSlope, latch := t.latch,
    hostP := t.hostP, readsP := t.readsP }

theorem ParamFrame.refl (s : State) : ParamFrame s s := rfl

theorem ParamFrame.trans {s t u : State} (h1 : ParamFrame s t) (h2 : ParamFrame t u) : ParamFrame s u := by
  unfold ParamFrame at *
  rw [h1] at h2
  exact h2

theorem writeParam_paramFrame (l : Loc) (v : Word) (s : State) : ParamFrame s (writeParam l v s) := by
  cases l <;> rfl

theorem paramTurnFrom_frame (l : List ParamInput) (s : State) : ParamFrame s (paramTurnFrom l s) := by
  induction l generalizing s with
  | nil => rfl
  | cons p rest ih =>
    cases p with
    | yield => rfl
    | read a => exact ParamFrame.trans (t := hostPRead a s) rfl (ih _)
    | write a v => exact ParamFrame.trans (t := hostPWrite a v s) (writeParam_paramFrame _ _ _) (ih _)

theorem paramTurn_frame (s : State) : ParamFrame s (paramTurn s) := paramTurnFrom_frame s.hostP s

/-- With no access to come, Host-P's turn does nothing. -/
theorem paramTurn_idle {s : State} (h : s.hostP = []) : paramTurn s = s := by
  unfold paramTurn
  rw [h]
  show { s with hostP := [] } = s
  rw [← h]

/-- The accesses of Host-P neither read nor write the latch or the accesses still to come. -/
theorem paramAccesses_with (l : List ParamInput) (s : State) (h : List ParamInput) (sn : Snapshot) :
    paramAccesses l { s with hostP := h, latch := sn } = { paramAccesses l s with hostP := h, latch := sn } := by
  induction l generalizing s with
  | nil => rfl
  | cons p rest ih =>
    cases p with
    | yield => exact ih s
    | read a =>
      have hr : hostPRead a { s with hostP := h, latch := sn } = { hostPRead a s with hostP := h, latch := sn } := by
        unfold hostPRead; cases locOf a <;> rfl
      exact (congrArg (paramAccesses rest) hr).trans (ih _)
    | write a v =>
      have hw : hostPWrite a v { s with hostP := h, latch := sn } = { hostPWrite a v s with hostP := h, latch := sn } := by
        unfold hostPWrite; cases locOf a <;> rfl
      exact (congrArg (paramAccesses rest) hw).trans (ih _)

theorem paramAccesses_append (l m : List ParamInput) (s : State) :
    paramAccesses (l ++ m) s = paramAccesses m (paramAccesses l s) := List.foldl_append

/-- Host-P's turn makes its accesses up to the turn it leaves. -/
theorem paramTurnFrom_segment {w : List ParamInput} (hw : .yield ∉ w) (rest : List ParamInput) (s : State) :
    paramTurnFrom (w ++ .yield :: rest) s = { paramAccesses w s with hostP := rest } := by
  induction w generalizing s with
  | nil => rfl
  | cons p tail ih =>
    have ht := ih (fun h => hw (List.mem_cons_of_mem _ h))
    cases p with
    | yield => exact absurd List.mem_cons_self hw
    | read a => exact ht (hostPRead a s)
    | write a v => exact ht (hostPWrite a v s)

/-- The seven read steps change only the parameter registers, the latch and what belongs to Host-P. -/
theorem snapshotPhase_frame (s : State) : ParamFrame s (snapshotPhase s) := by
  unfold snapshotPhase
  refine ParamFrame.trans ?_ (rfl : ParamFrame _ (latchHighSlope _))
  refine ParamFrame.trans ?_ (paramTurn_frame _)
  refine ParamFrame.trans ?_ (rfl : ParamFrame _ (latchHighFreq _))
  refine ParamFrame.trans ?_ (paramTurn_frame _)
  refine ParamFrame.trans ?_ (rfl : ParamFrame _ (latchLowSlope _))
  refine ParamFrame.trans ?_ (paramTurn_frame _)
  refine ParamFrame.trans ?_ (rfl : ParamFrame _ (latchLowFreq _))
  refine ParamFrame.trans ?_ (paramTurn_frame _)
  refine ParamFrame.trans ?_ (rfl : ParamFrame _ (latchPeakGain _))
  refine ParamFrame.trans ?_ (paramTurn_frame _)
  refine ParamFrame.trans ?_ (rfl : ParamFrame _ (latchPeakQ _))
  refine ParamFrame.trans ?_ (paramTurn_frame _)
  exact (rfl : ParamFrame _ (latchPeakFreq _))

/-! ### Free values and recorded faults -/

theorem recordUnless_eq (ok : Bool) (cmd : Instr) (s : State) :
    recordUnless ok cmd s = { s with faults := (recordUnless ok cmd s).faults } := by
  unfold recordUnless
  split
  · rfl
  · exact record_eq _ s

theorem recordUnless_true (cmd : Instr) (s : State) : recordUnless true cmd s = s := rfl

theorem mem_recordUnless_false (cmd : Instr) (s : State) : .contractViolation cmd ∈ (recordUnless false cmd s).faults :=
  mem_record _ s

theorem recordUnless_keeps (ok : Bool) (cmd : Instr) (g : Fault) (s : State) (h : g ∈ s.faults) :
    g ∈ (recordUnless ok cmd s).faults := by
  unfold recordUnless
  split
  · exact h
  · exact record_keeps _ g s h

theorem peakSet_state (ok : Bool) (d : Design) (sr f q g : F32) (s : State) :
    (peakSet ok d sr f q g s).2 = { s with freeCount := (peakSet ok d sr f q g s).2.freeCount } := by
  cases ok <;> rfl

theorem cutSets_state (ok : Bool) (sect : F32 → F32 → Nat → Nat → CoeffSet) (sr f : F32) (n : Nat) (s : State) :
    (cutSets ok sect sr f n s).2 = { s with freeCount := (cutSets ok sect sr f n s).2.freeCount } := by
  cases ok <;> rfl

@[simp] theorem peakSet_inContract (d : Design) (sr f q g : F32) (s : State) :
    peakSet true d sr f q g s = (d.peak sr f q g, s) := rfl

@[simp] theorem cutSets_inContract (sect : F32 → F32 → Nat → Nat → CoeffSet) (sr f : F32) (n : Nat) (s : State) :
    cutSets true sect sr f n s = (sections (sect sr f n), s) := rfl

/-! ### The design-and-install step -/

/-- The chain a channel has after the three installs of UPDATE. -/
def Chain.installed (nl nh : Nat) (p : CoeffSet) (l h : Four CoeffSet) (c : Chain) : Chain :=
  { lowCut := c.lowCut.setSlope nl l, peak := c.peak.install p, highCut := c.highCut.setSlope nh h }

/-- Everything the design-and-install step does. In contract nothing is recorded, no free value is taken and the sets are
the designer's. -/
theorem designInstall_eq (d : Design) (cmd : Instr) (s : State) :
    ∃ (p : CoeffSet) (l h : Four CoeffSet) (k : Nat),
      designInstall d cmd s =
        { s with
          chainL := s.chainL.installed (slopeCount s.latch.ls) (slopeCount s.latch.hs) p l h
          chainR := s.chainR.installed (slopeCount s.latch.ls) (slopeCount s.latch.hs) p l h
          faults := (recordUnless (snapshotContract s) cmd s).faults
          freeCount := k } ∧
      (snapshotContract s = true →
        p = d.peak s.sr s.latch.pf s.latch.pq s.latch.pg ∧
        l = sections (d.highpass s.sr s.latch.lf (slopeCount s.latch.ls)) ∧
        h = sections (d.lowpass s.sr s.latch.hf (slopeCount s.latch.hs)) ∧ k = s.freeCount) := by
  unfold designInstall
  simp only [forChannels_setPeak, forChannels_setLowCut, forChannels_setHighCut, bothChannels]
  generalize snapshotContract s = ok
  have e0 := recordUnless_eq ok cmd s
  generalize recordUnless ok cmd s = s0 at e0 ⊢
  generalize hp : peakSet ok d s.sr s.latch.pf s.latch.pq s.latch.pg s0 = p
  have e1 := peakSet_state ok d s.sr s.latch.pf s.latch.pq s.latch.pg s0
  rw [hp] at e1
  generalize hl : cutSets ok d.highpass s.sr s.latch.lf (slopeCount s.latch.ls) p.2 = l
  have e2 := cutSets_state ok d.highpass s.sr s.latch.lf (slopeCount s.latch.ls) p.2
  rw [hl] at e2
  generalize hh : cutSets ok d.lowpass s.sr s.latch.hf (slopeCount s.latch.hs) l.2 = h
  have e3 := cutSets_state ok d.lowpass s.sr s.latch.hf (slopeCount s.latch.hs) l.2
  rw [hh] at e3
  refine ⟨p.1, l.1, h.1, h.2.freeCount, ?_, ?_⟩
  · rw [e3, e2, e1, e0]; rfl
  · rintro rfl
    rw [peakSet_inContract] at hp
    rw [cutSets_inContract] at hl hh
    subst hp hl hh
    exact ⟨rfl, rfl, rfl, by rw [e0]⟩

/-- The command an UPDATE is part of names its record and decides nothing else. -/
theorem designInstall_cmd (d : Design) (cmd cmd' : Instr) (s : State) :
    designInstall d cmd s = { designInstall d cmd' s with faults := (recordUnless (snapshotContract s) cmd s).faults } := by
  unfold designInstall
  simp only [forChannels_setPeak, forChannels_setLowCut, forChannels_setHighCut, bothChannels]
  rw [recordUnless_eq _ cmd, recordUnless_eq _ cmd']
  cases snapshotContract s <;> rfl

/-- Host-P's turn and the snapshot phase, field by field where a later step reads one. -/
theorem paramTurn_faults (s : State) : (paramTurn s).faults = s.faults := by rw [paramTurn_frame s]
theorem paramTurn_maxblk (s : State) : (paramTurn s).maxblk = s.maxblk := by rw [paramTurn_frame s]
theorem snapshotPhase_maxblk (s : State) : (snapshotPhase s).maxblk = s.maxblk := by rw [snapshotPhase_frame s]

/-- Everything the eight steps of UPDATE can do, in contract or not: with `u` the state after the reads. -/
theorem updateSteps_cases (d : Design) (cmd : Instr) (s : State) :
    ∃ (p : CoeffSet) (l h : Four CoeffSet) (k : Nat) (fs : List Fault),
      updateSteps d cmd s =
        { paramTurn (snapshotPhase s) with
          chainL := s.chainL.installed (slopeCount (paramTurn (snapshotPhase s)).latch.ls)
            (slopeCount (paramTurn (snapshotPhase s)).latch.hs) p l h
          chainR := s.chainR.installed (slopeCount (paramTurn (snapshotPhase s)).latch.ls)
            (slopeCount (paramTurn (snapshotPhase s)).latch.hs) p l h
          faults := fs
          freeCount := k } ∧
      (∀ g ∈ s.faults, g ∈ fs) ∧
      (snapshotContract (paramTurn (snapshotPhase s)) = false → .contractViolation cmd ∈ fs) := by
  obtain ⟨p, l, h, k, he, -⟩ := designInstall_eq d cmd (paramTurn (snapshotPhase s))
  have hf := ParamFrame.trans (snapshotPhase_frame s) (paramTurn_frame _)
  have e1 : (paramTurn (snapshotPhase s)).chainL = s.chainL := by rw [hf]
  have e2 : (paramTurn (snapshotPhase s)).chainR = s.chainR := by rw [hf]
  have e3 : (paramTurn (snapshotPhase s)).faults = s.faults := by rw [hf]
  refine ⟨p, l, h, k, (recordUnless (snapshotContract (paramTurn (snapshotPhase s))) cmd
    (paramTurn (snapshotPhase s))).faults, ?_, fun g hg => ?_, fun hc => ?_⟩
  · unfold updateSteps; rw [he, e1, e2]
  · exact recordUnless_keeps _ _ _ _ (by rw [e3]; exact hg)
  · rw [hc]; exact mem_recordUnless_false _ _

end Sys2Proof.Machine
end

