-- ==== Sys2Proof/Laws/Block.lean ====
section
/-! SUPPORT. The block step of PROCESS: what one sample does to a channel, and what a block does, in the case where its
words have been written and in every case. -/

namespace Sys2Proof.Machine

/-! ### One sample through a channel -/

theorem stage_step_bypass (st : Stage) (x : F32) : (st.step x).2.bypass = st.bypass := by
  unfold Stage.step; split <;> rfl

theorem stage_step_cs (st : Stage) (x : F32) : (st.step x).2.bq.cs = st.bq.cs := by
  unfold Stage.step; split <;> rfl

theorem stage_step_bypassed (st : Stage) (x : F32) (h : st.bypass = true) : st.step x = (x, st) := by
  unfold Stage.step; rw [if_pos h]

/-- Two stages that differ at most in an enabled delay line. -/
structure Stage.SameSetting (a b : Stage) : Prop where
  bypass   : b.bypass = a.bypass
  cs       : b.bq.cs = a.bq.cs
  bypassed : a.bypass = true → b = a

/-- Two chains that differ at most in the delay lines of enabled stages. -/
structure Chain.SameSetting (a b : Chain) : Prop where
  peak      : b.peak.cs = a.peak.cs
  lowCount  : b.lowCut.count = a.lowCut.count
  highCount : b.highCut.count = a.highCut.count
  low       : ∀ i, Stage.SameSetting (a.lowCut.stages.get i) (b.lowCut.stages.get i)
  high      : ∀ i, Stage.SameSetting (a.highCut.stages.get i) (b.highCut.stages.get i)

theorem Stage.SameSetting.refl (a : Stage) : a.SameSetting a := ⟨rfl, rfl, fun _ => rfl⟩

theorem Stage.SameSetting.trans {a b c : Stage} (h : a.SameSetting b) (g : b.SameSetting c) : a.SameSetting c :=
  ⟨g.bypass.trans h.bypass, g.cs.trans h.cs, fun e => (g.bypassed (h.bypass.trans e)).trans (h.bypassed e)⟩

theorem Chain.SameSetting.refl (a : Chain) : a.SameSetting a :=
  ⟨rfl, rfl, rfl, fun _ => Stage.SameSetting.refl _, fun _ => Stage.SameSetting.refl _⟩

theorem Chain.SameSetting.trans {a b c : Chain} (h : a.SameSetting b) (g : b.SameSetting c) : a.SameSetting c :=
  ⟨g.peak.trans h.peak, g.lowCount.trans h.lowCount, g.highCount.trans h.highCount,
    fun i => (h.low i).trans (g.low i), fun i => (h.high i).trans (g.high i)⟩

theorem stage_step_same (st : Stage) (x : F32) : st.SameSetting (st.step x).2 :=
  ⟨stage_step_bypass st x, stage_step_cs st x, fun h => by rw [stage_step_bypassed st x h]⟩

theorem cut_step_same (f : Cut) (x : F32) :
    (f.step x).2.count = f.count ∧ ∀ i, (f.stages.get i).SameSetting ((f.step x).2.stages.get i) := by
  refine ⟨rfl, fun i => ?_⟩
  match i with
  | 0 => exact stage_step_same _ _
  | 1 => exact stage_step_same _ _
  | 2 => exact stage_step_same _ _
  | _ + 3 => exact stage_step_same _ _

/-- A sample changes no coefficient, bypass bit or stage count, and nothing of a bypassed stage (41_cascade.md R145). -/
theorem chain_step_same (h : Chain) (x : F32) : h.SameSetting (h.step x).2 :=
  ⟨rfl, rfl, rfl, (cut_step_same _ _).2, (cut_step_same _ _).2⟩

theorem runChain_same (h : Chain) (xs : List F32) : h.SameSetting (runChain h xs).2 := by
  induction xs generalizing h with
  | nil => exact Chain.SameSetting.refl h
  | cons x rest ih => exact (chain_step_same h x).trans (ih _)

/-- Chains that differ at most in delay lines meet the invariant of the cut filters together. -/
theorem Chain.SameSetting.inv {a b : Chain} (h : a.SameSetting b) (ha : a.Inv) : b.Inv := by
  constructor
  · refine ⟨by rw [h.lowCount]; exact ha.1.1, by rw [h.lowCount]; exact ha.1.2.1, fun i hi => ?_⟩
    rw [(h.low i).bypass, h.lowCount]; exact ha.1.2.2 i hi
  · refine ⟨by rw [h.highCount]; exact ha.2.1, by rw [h.highCount]; exact ha.2.2.1, fun i hi => ?_⟩
    rw [(h.high i).bypass, h.highCount]; exact ha.2.2.2 i hi

/-! ### One sample of a block -/

theorem processSample_written {c : Chan} {i : Nat} {s : State} {x : Word}
    (h : s.mem.readWord (bufAddr c i) = some x) :
    processSample c i s = writeBuf c i ((s.chain c).step x).1 (s.setChain c ((s.chain c).step x).2) := by
  simp [processSample, readBuf, h]

/-- Everything a sample of a block can do, whether or not its word has been written. -/
theorem processSample_cases (c : Chan) (i : Nat) (s : State) :
    ∃ (x : Word) (fs : List Fault) (k : Nat),
      processSample c i s =
        { s.setChain c ((s.chain c).step x).2 with
          mem := s.mem.writeWord (bufAddr c i) ((s.chain c).step x).1, faults := fs, freeCount := k } ∧
      (∀ g ∈ s.faults, g ∈ fs) ∧
      (∀ w, s.mem.readWord (bufAddr c i) = some w → x = w ∧ fs = s.faults ∧ k = s.freeCount) ∧
      (s.mem.readWord (bufAddr c i) = none → .unwrittenRead c i ∈ fs) := by
  unfold processSample readBuf
  split
  · rename_i w hw
    refine ⟨w, s.faults, s.freeCount, by cases c <;> rfl, fun g hg => hg, ?_, ?_⟩
    · intro v hv; rw [hw] at hv; cases hv; exact ⟨rfl, rfl, rfl⟩
    · intro hn; rw [hw] at hn; cases hn
  · rename_i hw
    refine ⟨freeWordAt s 0, (record (.unwrittenRead c i) (takeFree 1 s)).faults, s.freeCount + 1, ?_, ?_, ?_, ?_⟩
    · simp only [record_chain, takeFree_chain]
      rw [record_eq]
      cases c <;> rfl
    · intro g hg; exact record_keeps _ _ _ hg
    · intro v hv; rw [hw] at hv; cases hv
    · intro _; exact mem_record _ _

/-! ### A channel's block -/

/-- The words `ys` stored in a channel's buffer from index `i` on. -/
def storeWords (c : Chan) : (i : Nat) → List Word → Memory → Memory
  | _, [], m => m
  | i, y :: rest, m => storeWords c (i + 1) rest (m.writeWord (bufAddr c i) y)

theorem storeWords_read_other (c : Chan) (ys : List Word) (i a : Nat) (m : Memory)
    (h : ∀ j, i ≤ j → j < i + ys.length → a < bufAddr c j ∨ bufAddr c j + 4 ≤ a) :
    (storeWords c i ys m).read a = m.read a := by
  induction ys generalizing i m with
  | nil => rfl
  | cons y rest ih =>
    rw [storeWords, ih (i + 1) _ fun j h1 h2 => h j (by omega) (by simp at *; omega)]
    exact Memory.read_writeWord_other _ _ _ _ (h i (by omega) (by simp))

theorem storeWords_readWord_other (c d : Chan) (ys : List Word) (i k : Nat) (m : Memory) (hi : i + ys.length ≤ 1024)
    (hk : k < 1024) (h : c ≠ d ∨ k < i ∨ i + ys.length ≤ k) :
    (storeWords c i ys m).readWord (bufAddr d k) = m.readWord (bufAddr d k) := by
  have apart : ∀ j, i ≤ j → j < i + ys.length → bufAddr c j + 4 ≤ bufAddr d k ∨ bufAddr d k + 4 ≤ bufAddr c j := by
    intro j h1 h2
    exact bufAddr_apart c d j k (by omega) hk (by rintro ⟨rfl, rfl⟩; rcases h with h | h | h <;> [exact h rfl; omega; omega])
  unfold Memory.readWord
  rw [storeWords_read_other c ys i _ m fun j h1 h2 => by have := apart j h1 h2; omega,
    storeWords_read_other c ys i _ m fun j h1 h2 => by have := apart j h1 h2; omega,
    storeWords_read_other c ys i _ m fun j h1 h2 => by have := apart j h1 h2; omega,
    storeWords_read_other c ys i _ m fun j h1 h2 => by have := apart j h1 h2; omega]

theorem storeWords_readWord (c : Chan) (ys : List Word) (i k : Nat) (m : Memory) (hi : i + ys.length ≤ 1024)
    (hk : k < ys.length) : (storeWords c i ys m).readWord (bufAddr c (i + k)) = ys[k]? := by
  induction ys generalizing i k m with
  | nil => simp at hk
  | cons y rest ih =>
    simp only [List.length_cons] at hi hk
    rw [storeWords]
    cases k with
    | zero =>
      rw [storeWords_readWord_other c c rest (i + 1) (i + 0) _ (by omega) (by omega) (by omega)]
      simp [Memory.readWord_writeWord_self]
    | succ k =>
      rw [show i + (k + 1) = i + 1 + k by omega, ih (i + 1) k _ (by omega) (by omega)]
      simp

theorem storeWords_inBuffers (c : Chan) (ys : List Word) (i : Nat) (m : Memory) (hi : i + ys.length ≤ 1024)
    (h : m.inBuffers) : (storeWords c i ys m).inBuffers := by
  induction ys generalizing i m with
  | nil => exact h
  | cons y rest ih =>
    simp only [List.length_cons] at hi
    have := bufAddr_range c i (by omega)
    exact ih (i + 1) _ (by omega) (Memory.inBuffers_writeWord m _ y h (bufAddr_aligned c i) this.1 this.2)

/-- Everything a channel's block can do, whether or not its words have been written: it filters some list of samples,
which are the block's words where they have been written. -/
theorem processFrom_cases (c : Chan) (n i : Nat) (s : State) (hi : i + n ≤ 1024) :
    ∃ (xs : List Word) (fs : List Fault) (k : Nat), xs.length = n ∧
      processFrom c n i s =
        { s.setChain c (runChain (s.chain c) xs).2 with
          mem := storeWords c i (runChain (s.chain c) xs).1 s.mem, faults := fs, freeCount := k } ∧
      (∀ g ∈ s.faults, g ∈ fs) ∧
      (∀ j, j < n → s.mem.readWord (bufAddr c (i + j)) = none → .unwrittenRead c (i + j) ∈ fs) ∧
      (∀ ws : List Word, ws.length = n →
        (∀ j, j < n → s.mem.readWord (bufAddr c (i + j)) = ws[j]?) → xs = ws ∧ fs = s.faults ∧ k = s.freeCount) := by
  induction n generalizing i s with
  | zero =>
    refine ⟨[], s.faults, s.freeCount, rfl, by cases c <;> rfl, fun g hg => hg, by intro j hj; omega, ?_⟩
    intro ws hws _
    exact ⟨(List.length_eq_zero_iff.mp hws).symm, rfl, rfl⟩
  | succ n ih =>
    obtain ⟨x, fs, k, he, hf, hw, hn⟩ := processSample_cases c i s
    obtain ⟨xs, fs', k', hl, he', hf', hn', hw'⟩ := ih (i + 1) (processSample c i s) (by omega)
    have hch : (processSample c i s).chain c = ((s.chain c).step x).2 := by rw [he]; cases c <;> rfl
    have hmem : (processSample c i s).mem = s.mem.writeWord (bufAddr c i) ((s.chain c).step x).1 := by rw [he]
    have hfa : (processSample c i s).faults = fs := by rw [he]
    have hfc : (processSample c i s).freeCount = k := by rw [he]
    have hother : ∀ j, j < n → (processSample c i s).mem.readWord (bufAddr c (i + 1 + j)) =
        s.mem.readWord (bufAddr c (i + (j + 1))) := by
      intro j hj
      rw [hmem, show i + (j + 1) = i + 1 + j by omega]
      exact Memory.readWord_writeWord_other _ _ _ _ (bufAddr_apart c c i (i + 1 + j) (by omega) (by omega) (by omega))
    refine ⟨x :: xs, fs', k', by simp [hl], ?_, ?_, ?_, ?_⟩
    · rw [processFrom, he', hch, hmem, he]
      cases c <;> rfl
    · intro g hg; exact hf' g (hfa ▸ hf g hg)
    · intro j hj hnone
      cases j with
      | zero => exact hf' _ (hfa ▸ hn hnone)
      | succ j =>
        have := hn' j (by omega) (by rw [hother j (by omega)]; exact hnone)
        rwa [show i + 1 + j = i + (j + 1) by omega] at this
    · intro ws hlen hws
      match ws with
      | [] => simp at hlen
      | w :: rest =>
        simp only [List.length_cons, Nat.add_right_cancel_iff] at hlen
        have h0 := hws 0 (by omega)
        simp only [Nat.add_zero, List.length_cons, Nat.zero_lt_succ, List.getElem?_eq_getElem, List.getElem_cons_zero] at h0
        obtain ⟨h1, h2, h3⟩ := hw w h0
        obtain ⟨h4, h5, h6⟩ := hw' rest hlen fun j hj => by
          rw [hother j hj, hws (j + 1) (by omega)]; simp
        exact ⟨by rw [h1, h4], by rw [h5, hfa, h2], by rw [h6, hfc, h3]⟩

theorem runChain_length (h : Chain) (xs : List F32) : (runChain h xs).1.length = xs.length := by
  induction xs generalizing h with
  | nil => rfl
  | cons x rest ih => simp [runChain, ih]

/-! ### The block step -/

/-- The buffers after the blocks `ys` are stored in the selected channels. -/
def storeBlock (ch : ChMask) (ys : Chan → List Word) (m : Memory) : Memory :=
  let m := if selects ch .left then storeWords .left 0 (ys .left) m else m
  if selects ch .right then storeWords .right 0 (ys .right) m else m

theorem storeBlock_readWord (ch : ChMask) (ys : Chan → List Word) (m : Memory) (c : Chan) (k : Nat)
    (hl : ∀ c, (ys c).length ≤ 1024) (hk : k < 1024) :
    (storeBlock ch ys m).readWord (bufAddr c k) =
      if selects ch c = true ∧ k < (ys c).length then (ys c)[k]? else m.readWord (bufAddr c k) := by
  have self : ∀ (c : Chan) (m : Memory), (storeWords c 0 (ys c) m).readWord (bufAddr c k) =
      if k < (ys c).length then (ys c)[k]? else m.readWord (bufAddr c k) := by
    intro c m
    split
    · rename_i h
      have := storeWords_readWord c (ys c) 0 k m (by have := hl c; omega) h
      rwa [Nat.zero_add] at this
    · exact storeWords_readWord_other c c (ys c) 0 k m (by have := hl c; omega) hk (by omega)
  have other : ∀ (c d : Chan) (m : Memory), c ≠ d →
      (storeWords c 0 (ys c) m).readWord (bufAddr d k) = m.readWord (bufAddr d k) := fun c d m h =>
    storeWords_readWord_other c d (ys c) 0 k m (by have := hl c; omega) hk (Or.inl h)
  unfold storeBlock
  cases c
  · by_cases h1 : selects ch .left = true <;> by_cases h2 : selects ch .right = true <;>
      simp [h1, h2, other .right .left _ (by decide), self .left]
  · by_cases h1 : selects ch .left = true <;> by_cases h2 : selects ch .right = true <;>
      simp [h1, h2, other .left .right _ (by decide), self .right]

theorem storeBlock_read_other (ch : ChMask) (ys : Chan → List Word) (m : Memory) (len a : Nat)
    (hl : ∀ c, selects ch c = true → (ys c).length = len) (h : outsideBlock ch len a) :
    (storeBlock ch ys m).read a = m.read a := by
  have one : ∀ c m, selects ch c = true → (storeWords c 0 (ys c) m).read a = m.read a := fun c m hc =>
    storeWords_read_other c (ys c) 0 a m fun j _ hj => h c hc j (by rw [hl c hc] at hj; omega)
  unfold storeBlock
  by_cases h1 : selects ch .left = true <;> by_cases h2 : selects ch .right = true <;> simp [h1, h2, one]

theorem storeBlock_inBuffers (ch : ChMask) (ys : Chan → List Word) (m : Memory) (hl : ∀ c, (ys c).length ≤ 1024)
    (h : m.inBuffers) : (storeBlock ch ys m).inBuffers := by
  have one : ∀ c (m : Memory), m.inBuffers → (storeWords c 0 (ys c) m).inBuffers := fun c m hm =>
    storeWords_inBuffers c (ys c) 0 m (by have := hl c; omega) hm
  unfold storeBlock
  by_cases h1 : selects ch .left = true <;> by_cases h2 : selects ch .right = true <;> simp [h1, h2, h, one]

/-- Everything the block step can do, whether or not its words have been written. -/
theorem processBlock_cases (ch : ChMask) (len : Nat) (s : State) (hlen : len ≤ 1024) :
    ∃ (xs : Chan → List Word) (fs : List Fault) (k : Nat), (∀ c, (xs c).length = len) ∧
      processBlock ch len s =
        { s with
          chainL := if ch.left then (runChain s.chainL (xs .left)).2 else s.chainL
          chainR := if ch.right then (runChain s.chainR (xs .right)).2 else s.chainR
          mem := storeBlock ch (fun c => (runChain (s.chain c) (xs c)).1) s.mem
          faults := fs
          freeCount := k } ∧
      (∀ g ∈ s.faults, g ∈ fs) ∧
      (∀ c j, selects ch c = true → j < len → s.mem.readWord (bufAddr c j) = none → .unwrittenRead c j ∈ fs) ∧
      (∀ c, selects ch c = true → ∀ ws : List Word, ws.length = len →
        (∀ j, j < len → s.mem.readWord (bufAddr c j) = ws[j]?) → xs c = ws) ∧
      ((∀ c j, selects ch c = true → j < len → (s.mem.readWord (bufAddr c j)).isSome = true) →
        fs = s.faults ∧ k = s.freeCount) := by
  -- one channel, or none
  have one : ∀ (c : Chan) (b : Bool) (s : State), ∃ (xs : List Word) (fs : List Fault) (k : Nat), xs.length = len ∧
      (if b then processFrom c len 0 s else s) =
        { s.setChain c (if b then (runChain (s.chain c) xs).2 else s.chain c) with
          mem := if b then storeWords c 0 (runChain (s.chain c) xs).1 s.mem else s.mem, faults := fs, freeCount := k } ∧
      (∀ g ∈ s.faults, g ∈ fs) ∧
      (b = true → ∀ j, j < len → s.mem.readWord (bufAddr c j) = none → .unwrittenRead c j ∈ fs) ∧
      (b = true → ∀ ws : List Word, ws.length = len →
        (∀ j, j < len → s.mem.readWord (bufAddr c j) = ws[j]?) → xs = ws) ∧
      ((b = true → ∀ j, j < len → (s.mem.readWord (bufAddr c j)).isSome = true) → fs = s.faults ∧ k = s.freeCount) := by
    intro c b s
    cases b
    · refine ⟨List.replicate len 0#32, s.faults, s.freeCount, by simp, by cases c <;> rfl, fun g hg => hg, ?_, ?_, ?_⟩
      all_goals simp
    · obtain ⟨xs, fs, k, h1, h2, h3, h4, h5⟩ := processFrom_cases c len 0 s (by omega)
      simp only [Nat.zero_add] at h4 h5
      refine ⟨xs, fs, k, h1, h2, h3, fun _ => h4, fun _ ws a b => (h5 ws a b).1, fun h => ?_⟩
      have h' := h rfl
      obtain ⟨ws, hw⟩ : ∃ ws : List Word, ws = (List.range len).map fun j => (s.mem.readWord (bufAddr c j)).getD 0#32 :=
        ⟨_, rfl⟩
      refine (h5 ws (by simp [hw]) fun j hj => ?_).2
      obtain ⟨w, hv⟩ := Option.isSome_iff_exists.mp (h' j hj)
      simp [hw, hj, hv]
  obtain ⟨xl, fl, kl, a1, a2, a3, a4, a5, a6⟩ := one .left ch.left s
  obtain ⟨xr, fr, kr, b1, b2, b3, b4, b5, b6⟩ := one .right ch.right (if ch.left then processFrom .left len 0 s else s)
  generalize hu : (if ch.left then processFrom .left len 0 s else s) = u at *
  have hmem : ∀ j, j < len → u.mem.readWord (bufAddr .right j) = s.mem.readWord (bufAddr .right j) := by
    intro j hj
    rw [a2]
    show Memory.readWord (if ch.left = true then _ else _) _ = _
    split
    · exact storeWords_readWord_other _ _ _ _ _ _ (by rw [runChain_length]; omega) (by omega) (Or.inl (by decide))
    · rfl
  have hfu : u.faults = fl := by rw [a2]
  have hku : u.freeCount = kl := by rw [a2]
  have hcu : u.chain .right = s.chain .right := by rw [a2]; rfl
  refine ⟨fun c => match c with | .left => xl | .right => xr, fr, kr, ?_, ?_, ?_, ?_, ?_, ?_⟩
  · intro c; cases c <;> assumption
  · show (if ch.right then processFrom .right len 0 (if ch.left then processFrom .left len 0 s else s)
      else (if ch.left then processFrom .left len 0 s else s)) = _
    rw [hu, b2, hcu]
    rw [a2]
    unfold storeBlock
    simp only [State.setChain, State.chain, selects]
    rfl
  · intro g hg
    exact b3 g (hfu ▸ a3 g hg)
  · intro c j hc hj hn
    cases c
    · exact b3 _ (hfu ▸ a4 hc j hj hn)
    · exact b4 hc j hj (by rw [hmem j hj]; exact hn)
  · intro c hc ws hw hws
    cases c
    · exact a5 hc ws hw hws
    · exact b5 hc ws hw fun j hj => by rw [hmem j hj]; exact hws j hj
  · intro h
    obtain ⟨e1, e2⟩ := a6 fun hc j hj => h .left j hc hj
    obtain ⟨e3, e4⟩ := b6 fun hc j hj => by rw [hmem j hj]; exact h .right j hc hj
    exact ⟨by rw [e3, hfu, e1], by rw [e4, hku, e2]⟩

/-! ### What is recorded decides nothing else -/

/-- `T` adds to the record and never looks at it: whatever was recorded before, it leaves the same state but for the
record, to which it adds the same faults. -/
def RecordsOnly (T : State → State) : Prop :=
  ∀ s, ∃ N : List Fault, ∀ fs, ∃ G,
    T { s with faults := fs } = { T s with faults := G } ∧ ∀ f, f ∈ G ↔ f ∈ fs ∨ f ∈ N

theorem RecordsOnly.id : RecordsOnly fun s => s := fun _ => ⟨[], fun fs => ⟨fs, rfl, by simp⟩⟩

theorem RecordsOnly.comp {T U : State → State} (hT : RecordsOnly T) (hU : RecordsOnly U) :
    RecordsOnly fun s => U (T s) := by
  intro s
  obtain ⟨N, h⟩ := hT s
  obtain ⟨M, g⟩ := hU (T s)
  refine ⟨N ++ M, fun fs => ?_⟩
  obtain ⟨G, e, m⟩ := h fs
  obtain ⟨K, e', m'⟩ := g G
  exact ⟨K, (congrArg U e).trans e', fun f => by rw [m', m, List.mem_append, or_assoc]⟩

theorem RecordsOnly.ite {T : State → State} (b : Bool) (hT : RecordsOnly T) :
    RecordsOnly fun s => if b then T s else s := by
  cases b
  · exact RecordsOnly.id
  · exact hT

theorem mem_faults_record (f g : Fault) (s : State) : g ∈ (record f s).faults ↔ g ∈ s.faults ∨ g = f := by
  unfold record
  split <;> simp_all

theorem processSample_recordsOnly (c : Chan) (i : Nat) : RecordsOnly (processSample c i) := by
  intro s
  unfold processSample readBuf
  cases h : s.mem.readWord (bufAddr c i) with
  | some w => exact ⟨[], fun fs => ⟨fs, by simp only [h]; cases c <;> rfl, by simp⟩⟩
  | none =>
    refine ⟨[.unwrittenRead c i], fun fs => ⟨(record (.unwrittenRead c i) { takeFree 1 s with faults := fs }).faults, ?_, ?_⟩⟩
    · simp only [h]
      rw [record_eq _ (takeFree 1 { s with faults := fs }), record_eq _ (takeFree 1 s)]
      cases c <;> rfl
    · exact fun f => (mem_faults_record _ _ _).trans (by simp)

theorem processFrom_recordsOnly (c : Chan) (n i : Nat) : RecordsOnly (processFrom c n i) := by
  induction n generalizing i with
  | zero => exact RecordsOnly.id
  | succ n ih => exact (processSample_recordsOnly c i).comp (ih (i + 1))

/-- The block step never looks at the record. -/
theorem processBlock_recordsOnly (ch : ChMask) (len : Nat) : RecordsOnly (processBlock ch len) :=
  (RecordsOnly.ite ch.left (processFrom_recordsOnly .left len 0)).comp
    (RecordsOnly.ite ch.right (processFrom_recordsOnly .right len 0))

theorem paramTurn_recordsOnly : RecordsOnly paramTurn := by
  have main : ∀ (l : List ParamInput) (s : State) (fs : List Fault),
      paramTurnFrom l { s with faults := fs } = { paramTurnFrom l s with faults := fs } := by
    intro l
    induction l with
    | nil => exact fun _ _ => rfl
    | cons p rest ih =>
      intro s fs
      cases p with
      | yield => rfl
      | read a =>
        have hr : hostPRead a { s with faults := fs } = { hostPRead a s with faults := fs } := by
          unfold hostPRead; cases locOf a <;> rfl
        exact (congrArg (paramTurnFrom rest) hr).trans (ih _ fs)
      | write a v =>
        have hw : hostPWrite a v { s with faults := fs } = { hostPWrite a v s with faults := fs } := by
          unfold hostPWrite; cases locOf a <;> rfl
        exact (congrArg (paramTurnFrom rest) hw).trans (ih _ fs)
  exact fun s => ⟨[], fun fs => ⟨fs, main s.hostP s fs, by simp⟩⟩

/-- What is recorded stays recorded through a block of any length. -/
theorem processBlock_keeps (ch : ChMask) (len : Nat) (s : State) {g : Fault} (h : g ∈ s.faults) :
    g ∈ (processBlock ch len s).faults := by
  have one : ∀ c n i (s : State), g ∈ s.faults → g ∈ (processFrom c n i s).faults := by
    intro c n
    induction n with
    | zero => intro i s h; exact h
    | succ n ih =>
      intro i s h
      obtain ⟨x, fs, k, he, hf, -⟩ := processSample_cases c i s
      exact ih _ _ (by rw [he]; exact hf g h)
  unfold processBlock forChannels
  dsimp only
  split <;> split <;> simp_all

end Sys2Proof.Machine
end

