-- ==== Sys2Proof/Laws/Decode.lean ====
section
/-! SUPPORT. The fields of an encoded command, and what accepting a word says. -/

namespace Sys2Proof

/-- A field of a number that fits a word. -/
theorem field_ofNat {v : Nat} (h : v < 2 ^ 32) (lo len : Nat) :
    field (BitVec.ofNat 32 v) lo len = v / 2 ^ lo % 2 ^ len := by
  unfold field
  rw [BitVec.toNat_ofNat, Nat.mod_eq_of_lt h]

/-- The bits of a channel mask as a number 0 to 3, and what they say of the two channels. -/
theorem chBits_cases (ch : ChMask) :
    ∃ k, k < 4 ∧ chBits ch = k * 2 ^ 4 ∧ ch.left = decide (k % 2 = 1) ∧ ch.right = decide (k / 2 = 1) := by
  obtain ⟨l, r⟩ := ch
  cases l <;> cases r
  · exact ⟨0, by decide⟩
  · exact ⟨2, by decide⟩
  · exact ⟨1, by decide⟩
  · exact ⟨3, by decide⟩

/-- The mask a word carries has that word's bits. -/
theorem chBits_chField (w : Word) : chBits (chField w) = field w 4 2 * 2 ^ 4 := by
  unfold chField chBits field
  have h4 : w.toNat / 2 ^ 4 % 2 ^ 2 = w.toNat / 2 ^ 4 % 2 ^ 1 + 2 * (w.toNat / 2 ^ 5 % 2 ^ 1) := by omega
  have ha : w.toNat / 2 ^ 4 % 2 ^ 1 = 0 ∨ w.toNat / 2 ^ 4 % 2 ^ 1 = 1 := by omega
  have hb : w.toNat / 2 ^ 5 % 2 ^ 1 = 0 ∨ w.toNat / 2 ^ 5 % 2 ^ 1 = 1 := by omega
  rw [h4]
  rcases ha with ha | ha <;> rcases hb with hb | hb <;> rw [ha, hb] <;> rfl

/-- A word is accepted exactly where the fields it does not use are 0. -/
theorem accept_ok {b : Bool} {i j : Instr} : accept b i = .ok j ↔ b = true ∧ i = j := by
  unfold accept
  cases b <;> simp

theorem stageCountOk_iff {n : Nat} : stageCountOk n = true ↔ 1 ≤ n ∧ n ≤ 4 := by
  unfold stageCountOk; simp

theorem lengthOk_iff {len : Nat} : lengthOk len = true ↔ len ≤ 2047 := by
  unfold lengthOk; simp

end Sys2Proof
end

