-- ==== Sys2Proof/Laws/Interval.lean ====
section
/-! SUPPORT. Each interval operation encloses the real operation of the same name. -/

namespace Sys2Proof.Iv

/-- The real number `r` lies in the interval at precision `p`. -/
def Has (p : Nat) (x : Iv) (r : ℝ) : Prop := (x.lo : ℝ) ≤ r * 2 ^ p ∧ r * 2 ^ p ≤ (x.hi : ℝ)

theorem divDown_le (a : Int) {d : Nat} (hd : 0 < d) : (divDown a d : ℝ) ≤ (a : ℝ) / d := by
  have h : (divDown a d) * (d : Int) ≤ a := Int.ediv_mul_le a (by omega)
  have hd' : (0 : ℝ) < d := by exact_mod_cast hd
  rw [le_div_iff₀ hd']
  exact_mod_cast h

theorem le_divUp (a : Int) {d : Nat} (hd : 0 < d) : (a : ℝ) / d ≤ (divUp a d : ℝ) := by
  have h := divDown_le (-a) hd
  unfold divUp
  unfold divDown at h
  push_cast at h ⊢
  rw [neg_div] at h
  linarith

theorem has_frac (p : Nat) (n : Int) {d : Nat} (hd : 0 < d) : Has p (frac p n d) ((n : ℝ) / d) := by
  have h1 := divDown_le (n * 2 ^ p) hd
  have h2 := le_divUp (n * 2 ^ p) hd
  push_cast at h1 h2
  constructor
  · calc _ ≤ _ := h1
      _ = _ := by ring
  · calc _ = _ := by ring
      _ ≤ _ := h2

theorem has_add {p : Nat} {x y : Iv} {r s : ℝ} (hx : Has p x r) (hy : Has p y s) : Has p (add x y) (r + s) := by
  unfold Has add at *
  push_cast
  constructor <;> linarith [hx.1, hx.2, hy.1, hy.2]

theorem has_neg {p : Nat} {x : Iv} {r : ℝ} (hx : Has p x r) : Has p (neg x) (-r) := by
  unfold Has neg at *
  push_cast
  constructor <;> linarith [hx.1, hx.2]

theorem has_sub {p : Nat} {x y : Iv} {r s : ℝ} (hx : Has p x r) (hy : Has p y s) : Has p (sub x y) (r - s) := by
  unfold Has sub at *
  push_cast
  constructor <;> linarith [hx.1, hx.2, hy.1, hy.2]

/-- A product of two bounded numbers is at least the least product of their bounds. -/
theorem min_mul_le {a b c d u v : ℝ} (hu1 : a ≤ u) (hu2 : u ≤ b) (hv1 : c ≤ v) (hv2 : v ≤ d) :
    min (min (a * c) (a * d)) (min (b * c) (b * d)) ≤ u * v := by
  rcases le_total 0 v with hv | hv
  · rcases le_total 0 a with ha | ha
    · exact (min_le_left _ _).trans ((min_le_left _ _).trans (by nlinarith))
    · exact (min_le_left _ _).trans ((min_le_right _ _).trans (by nlinarith))
  · rcases le_total 0 b with hb | hb
    · exact (min_le_right _ _).trans ((min_le_left _ _).trans (by nlinarith))
    · exact (min_le_right _ _).trans ((min_le_right _ _).trans (by nlinarith))

theorem le_max_mul {a b c d u v : ℝ} (hu1 : a ≤ u) (hu2 : u ≤ b) (hv1 : c ≤ v) (hv2 : v ≤ d) :
    u * v ≤ max (max (a * c) (a * d)) (max (b * c) (b * d)) := by
  rcases le_total 0 v with hv | hv
  · rcases le_total 0 b with hb | hb
    · exact le_trans (by nlinarith) ((le_max_right (b * c) _).trans (le_max_right _ _))
    · exact le_trans (by nlinarith) ((le_max_left _ (b * d)).trans (le_max_right _ _))
  · rcases le_total 0 a with ha | ha
    · exact le_trans (by nlinarith) ((le_max_right (a * c) _).trans (le_max_left _ _))
    · exact le_trans (by nlinarith) ((le_max_left _ (a * d)).trans (le_max_left _ _))

theorem has_mul {p : Nat} {x y : Iv} {r s : ℝ} (hx : Has p x r) (hy : Has p y s) : Has p (mul p x y) (r * s) := by
  have hp : (0 : ℝ) < 2 ^ p := by positivity
  have h1 := divDown_le (min (min (x.lo * y.lo) (x.lo * y.hi)) (min (x.hi * y.lo) (x.hi * y.hi)))
    (d := 2 ^ p) (by positivity)
  have h2 := le_divUp (max (max (x.lo * y.lo) (x.lo * y.hi)) (max (x.hi * y.lo) (x.hi * y.hi)))
    (d := 2 ^ p) (by positivity)
  have h3 := min_mul_le hx.1 hx.2 hy.1 hy.2
  have h4 := le_max_mul hx.1 hx.2 hy.1 hy.2
  push_cast at h1 h2
  have e : r * s * 2 ^ p = r * 2 ^ p * (s * 2 ^ p) / 2 ^ p := by field_simp
  constructor
  · rw [e]; exact h1.trans (by gcongr)
  · rw [e]; exact le_trans (by gcongr) h2

theorem has_sq {p : Nat} {x : Iv} {r : ℝ} (hx : Has p x r) : Has p (sq p x) (r * r) := by
  have h := has_mul hx hx
  refine ⟨?_, h.2⟩
  unfold sq
  push_cast
  exact max_le h.1 (mul_nonneg (mul_self_nonneg r) (by positivity))

theorem has_scale {p : Nat} {x : Iv} {r : ℝ} (n : Nat) {d : Nat} (hd : 0 < d) (hx : Has p x r) :
    Has p (scale x n d) (r * n / d) := by
  have h1 := divDown_le (x.lo * n) hd
  have h2 := le_divUp (x.hi * n) hd
  have hd' : (0 : ℝ) < d := by exact_mod_cast hd
  push_cast at h1 h2
  have e : r * n / d * 2 ^ p = r * 2 ^ p * n / d := by ring
  constructor
  · rw [e]; exact h1.trans (by gcongr; exact hx.1)
  · rw [e]; exact le_trans (by gcongr; exact hx.2) h2

theorem has_div {p : Nat} {x y z : Iv} {r s : ℝ} (hx : Has p x r) (hy : Has p y s) (h : div p x y = some z) :
    Has p z (r / s) := by
  unfold div at h
  split at h
  case isFalse => cases h
  case isTrue hlo =>
    cases h
    have hp : (0 : ℝ) < 2 ^ p := by positivity
    have hlo' : (0 : ℝ) < y.lo := by exact_mod_cast hlo
    have hs : 0 < s * 2 ^ p := lt_of_lt_of_le hlo' hy.1
    have hhi' : (0 : ℝ) < y.hi := lt_of_lt_of_le hs hy.2
    have hhi : 0 < y.hi := by exact_mod_cast hhi'
    have e : r / s * 2 ^ p = r * 2 ^ p * 2 ^ p / (s * 2 ^ p) := by
      have : s ≠ 0 := by rintro rfl; simp at hs
      field_simp
    constructor
    · rw [e]
      split
      · rename_i hx0
        have h1 := divDown_le (x.lo * 2 ^ p) (d := y.hi.toNat) (by omega)
        have e1 : ((y.hi.toNat : ℕ) : ℝ) = (y.hi : ℝ) := by exact_mod_cast Int.toNat_of_nonneg hhi.le
        push_cast at h1
        rw [e1] at h1
        have hx0' : (0 : ℝ) ≤ x.lo := by exact_mod_cast hx0
        refine h1.trans ?_
        exact div_le_div₀ (by nlinarith [hx.1]) (by nlinarith [hx.1]) hs hy.2
      · rename_i hx0
        have h1 := divDown_le (x.lo * 2 ^ p) (d := y.lo.toNat) (by omega)
        have e1 : ((y.lo.toNat : ℕ) : ℝ) = (y.lo : ℝ) := by exact_mod_cast Int.toNat_of_nonneg hlo.le
        push_cast at h1
        rw [e1] at h1
        have hx0' : (x.lo : ℝ) ≤ 0 := by exact_mod_cast (not_le.mp hx0).le
        refine h1.trans ?_
        rw [div_le_div_iff₀ hlo' hs]
        have k1 : (x.lo : ℝ) * (s * 2 ^ p) ≤ x.lo * y.lo := mul_le_mul_of_nonpos_left hy.1 hx0'
        have k2 : (x.lo : ℝ) * y.lo ≤ r * 2 ^ p * y.lo := mul_le_mul_of_nonneg_right hx.1 hlo'.le
        have k3 := mul_le_mul_of_nonneg_right (k1.trans k2) hp.le
        linarith
    · rw [e]
      show _ ≤ ((divUp (x.hi * 2 ^ p) (if 0 ≤ x.hi then y.lo else y.hi).toNat : Int) : ℝ)
      split
      · rename_i hx0
        have h1 := le_divUp (x.hi * 2 ^ p) (d := y.lo.toNat) (by omega)
        have e1 : ((y.lo.toNat : ℕ) : ℝ) = (y.lo : ℝ) := by exact_mod_cast Int.toNat_of_nonneg hlo.le
        push_cast at h1
        rw [e1] at h1
        have hx0' : (0 : ℝ) ≤ x.hi := by exact_mod_cast hx0
        refine le_trans ?_ h1
        exact div_le_div₀ (by positivity) (by nlinarith [hx.2]) hlo' hy.1
      · rename_i hx0
        have h1 := le_divUp (x.hi * 2 ^ p) (d := y.hi.toNat) (by omega)
        have e1 : ((y.hi.toNat : ℕ) : ℝ) = (y.hi : ℝ) := by exact_mod_cast Int.toNat_of_nonneg hhi.le
        push_cast at h1
        rw [e1] at h1
        have hx0' : (x.hi : ℝ) ≤ 0 := by exact_mod_cast (not_le.mp hx0).le
        refine le_trans ?_ h1
        rw [div_le_div_iff₀ hs hhi']
        have k1 : r * 2 ^ p * y.hi ≤ x.hi * y.hi := mul_le_mul_of_nonneg_right hx.2 hhi'.le
        have k2 : (x.hi : ℝ) * y.hi ≤ x.hi * (s * 2 ^ p) := mul_le_mul_of_nonpos_left hy.2 hx0'
        have k3 := mul_le_mul_of_nonneg_right (k1.trans k2) hp.le
        linarith

/-- A series in tails `t k`, each within ±5, is enclosed from any number of terms on. -/
theorem has_series {p : Nat} {e d : Nat → Nat} {y : Iv} {u : ℝ} (he : ∀ k, 0 < e k) (hd : ∀ k, 0 < d k)
    (hy : Has p y u) (t : Nat → ℝ) (ht : ∀ k, t k = 1 / e k + u / d k * t (k + 1)) (hb : ∀ k, |t k| ≤ 5) (n : Nat) :
    ∀ k, Has p (series p e d y n k) (t k) := by
  induction n with
  | zero =>
    intro k
    have hp : (0 : ℝ) < 2 ^ p := by positivity
    have := abs_le.mp (hb k)
    unfold Has series
    push_cast
    constructor <;> nlinarith
  | succ n ih =>
    intro k
    have h := has_add (has_frac p 1 (he k)) (has_scale 1 (hd k) (has_mul hy (ih (k + 1))))
    have e1 : ((1 : Int) : ℝ) / e k + u * t (k + 1) * (1 : ℕ) / d k = t k := by
      rw [ht k]; push_cast; ring
    rw [e1] at h
    exact h

end Sys2Proof.Iv
end

