-- ==== Sys2Proof/Laws/Series.lean ====
section
/-! SUPPORT. The series of the reference designer: their sums, and that each function of Machine/Interval.lean encloses
the real function of the same name. -/

namespace Sys2Proof.Iv

/-! ### The terms of a series of tails -/

/-- Term `j` of the series whose tails are `t k = 1 / e k + (u / d k) * t (k + 1)`. -/
noncomputable def term (e d : Nat → Nat) (u : ℝ) : (j k : Nat) → ℝ
  | 0, k => 1 / e k
  | j + 1, k => u / d k * term e d u j (k + 1)

/-- Tails with absolutely summable terms satisfy the recursion. -/
theorem tail_step {e d : Nat → Nat} {u : ℝ} (h : ∀ k, Summable fun j => term e d u j k) (k : Nat) :
    (∑' j, term e d u j k) = 1 / e k + u / d k * ∑' j, term e d u j (k + 1) := by
  rw [(h k).tsum_eq_zero_add, ← tsum_mul_left]
  rfl

/-- Tails with terms under a summable bound are summable and no larger than its sum. -/
theorem tail_bound {e d : Nat → Nat} {u : ℝ} {b : Nat → ℝ} {B : ℝ} (hb : HasSum b B)
    (h : ∀ j k, |term e d u j k| ≤ b j) :
    (∀ k, Summable fun j => term e d u j k) ∧ ∀ k, |∑' j, term e d u j k| ≤ B := by
  have hs : ∀ k, Summable fun j => |term e d u j k| := fun k =>
    Summable.of_nonneg_of_le (fun _ => abs_nonneg _) (fun j => h j k) hb.summable
  refine ⟨fun k => (hs k).of_abs, fun k => ?_⟩
  calc |∑' j, term e d u j k| ≤ ∑' j, |term e d u j k| := by
        simpa [Real.norm_eq_abs] using norm_tsum_le_tsum_norm (f := fun j => term e d u j k) (by simpa using hs k)
    _ ≤ ∑' j, b j := (hs k).tsum_le_tsum (fun j => h j k) hb.summable
    _ = B := hb.tsum_eq

/-- What a series encloses, once its terms have a summable bound that sums to at most 5. -/
theorem has_series_sum {p : Nat} {e d : Nat → Nat} {y : Iv} {u : ℝ} {b : Nat → ℝ} {B : ℝ} (he : ∀ k, 0 < e k)
    (hd : ∀ k, 0 < d k) (hy : Has p y u) (hb : HasSum b B) (hB : B ≤ 5) (h : ∀ j k, |term e d u j k| ≤ b j) (n : Nat) :
    Has p (series p e d y n 0) (∑' j, term e d u j 0) := by
  obtain ⟨h1, h2⟩ := tail_bound hb h
  exact has_series he hd hy (fun k => ∑' j, term e d u j k) (tail_step h1) (fun k => (h2 k).trans hB) n 0

/-! ### Factorial series: exponential, cosine, sine -/

/-- With divisors of at least `m * (k + 1)`, terms are under those of the exponential of `|u| / m`. -/
theorem term_fact_bound {d : Nat → Nat} {u : ℝ} {m : Nat} (hm : 0 < m) (hd : ∀ k, m * (k + 1) ≤ d k) :
    ∀ j k, |term (fun _ => 1) d u j k| ≤ (|u| / m) ^ j / j.factorial := by
  have hm' : (0 : ℝ) < m := by exact_mod_cast hm
  have key : ∀ j k, |term (fun _ => 1) d u j k| ≤ (|u| / m) ^ j * (k.factorial / (k + j).factorial) := by
    intro j
    induction j with
    | zero => intro k; simp [term, Nat.factorial_ne_zero]
    | succ j ih =>
      intro k
      have h1 : (m : ℝ) * (k + 1) ≤ d k := by exact_mod_cast hd k
      have hk : (0 : ℝ) < m * (k + 1) := by positivity
      have h2 : |u / d k| ≤ |u| / (m * (k + 1)) := by
        rw [abs_div, abs_of_nonneg (by positivity : (0 : ℝ) ≤ (d k : ℝ))]
        exact div_le_div_of_nonneg_left (abs_nonneg u) hk h1
      have h3 := ih (k + 1)
      have e1 : (k + 1 + j).factorial = (k + (j + 1)).factorial := by congr 1; omega
      have e2 : ((k + 1).factorial : ℝ) = (k + 1) * k.factorial := by
        rw [Nat.factorial_succ]; push_cast; ring
      rw [e1, e2] at h3
      calc |term (fun _ => 1) d u (j + 1) k| = |u / d k| * |term (fun _ => 1) d u j (k + 1)| := by
            rw [term, abs_mul]
        _ ≤ |u| / (m * (k + 1)) * ((|u| / m) ^ j * ((k + 1) * k.factorial / (k + (j + 1)).factorial)) := by
            gcongr
        _ = (|u| / m) ^ (j + 1) * (k.factorial / (k + (j + 1)).factorial) := by
            rw [pow_succ]
            field_simp
  intro j k
  refine (key j k).trans ?_
  rw [div_eq_mul_one_div ((|u| / m) ^ j)]
  refine mul_le_mul_of_nonneg_left ?_ (by positivity)
  rw [div_le_div_iff₀ (by positivity) (by positivity), one_mul]
  have := Nat.le_of_dvd (Nat.factorial_pos (k + j)) (Nat.factorial_mul_factorial_dvd_factorial_add k j)
  exact_mod_cast this

theorem hasSum_exp (x : ℝ) : HasSum (fun j : Nat => x ^ j / j.factorial) (Real.exp x) := by
  rw [Real.exp_eq_exp_ℝ]
  exact NormedSpace.expSeries_div_hasSum_exp x

theorem term_exp (x : ℝ) : ∀ j k, term (fun _ => 1) (fun k => k + 1) x j k = x ^ j * (k.factorial / (k + j).factorial) := by
  intro j
  induction j with
  | zero => intro k; simp [term, Nat.factorial_ne_zero]
  | succ j ih =>
    intro k
    have e1 : (k + 1 + j).factorial = (k + (j + 1)).factorial := by congr 1; omega
    rw [term, ih, e1, Nat.factorial_succ]
    push_cast
    field_simp
    ring

theorem term_cos (u : ℝ) : ∀ j k, term (fun _ => 1) (fun k => (2 * k + 1) * (2 * k + 2)) u j k =
    u ^ j * ((2 * k).factorial / (2 * k + 2 * j).factorial) := by
  intro j
  induction j with
  | zero => intro k; simp [term, Nat.factorial_ne_zero]
  | succ j ih =>
    intro k
    have e1 : (2 * (k + 1) + 2 * j).factorial = (2 * k + 2 * (j + 1)).factorial := by congr 1; ring
    have e2 : (2 * (k + 1)).factorial = (2 * k + 2) * ((2 * k + 1) * (2 * k).factorial) := by
      rw [show 2 * (k + 1) = 2 * k + 1 + 1 by ring, Nat.factorial_succ, Nat.factorial_succ]
    rw [term, ih, e1, e2]
    push_cast
    field_simp
    ring

theorem term_sin (u : ℝ) : ∀ j k, term (fun _ => 1) (fun k => (2 * k + 2) * (2 * k + 3)) u j k =
    u ^ j * ((2 * k + 1).factorial / (2 * k + 1 + 2 * j).factorial) := by
  intro j
  induction j with
  | zero => intro k; simp [term, Nat.factorial_ne_zero]
  | succ j ih =>
    intro k
    have e1 : (2 * (k + 1) + 1 + 2 * j).factorial = (2 * k + 1 + 2 * (j + 1)).factorial := by congr 1; ring
    have e2 : (2 * (k + 1) + 1).factorial = (2 * k + 3) * ((2 * k + 2) * (2 * k + 1).factorial) := by
      rw [show 2 * (k + 1) + 1 = 2 * k + 2 + 1 by ring, Nat.factorial_succ,
        show 2 * k + 2 = (2 * k + 1) + 1 by ring, Nat.factorial_succ]
    rw [term, ih, e1, e2]
    push_cast
    field_simp
    ring

theorem has_exp {p : Nat} {x : Iv} {r : ℝ} (hx : Has p x r) (hr : Real.exp |r| ≤ 5) : Has p (exp p x) (Real.exp r) := by
  have h := has_series_sum (e := fun _ => 1) (d := fun k => k + 1) (fun _ => Nat.one_pos) (fun k => Nat.succ_pos k) hx
    (hasSum_exp (|r| / (1 : ℕ))) (by simpa using hr) (term_fact_bound Nat.one_pos (fun k => by omega)) (terms p)
  have e : (∑' j, term (fun _ => 1) (fun k => k + 1) r j 0) = Real.exp r := by
    rw [← (hasSum_exp r).tsum_eq]
    congr 1; funext j
    rw [term_exp]; simp [div_eq_mul_inv]
  rw [e] at h
  exact h

theorem exp_three_halves : Real.exp (3 / 2) ≤ 5 := by
  have h1 : Real.exp (3 / 2) ^ 2 = Real.exp 1 ^ 3 := by
    rw [← Real.exp_nat_mul, ← Real.exp_nat_mul]; norm_num
  have h2 := Real.exp_one_lt_d9
  have h3 : Real.exp 1 ^ 3 ≤ 25 := by
    have : Real.exp 1 ≤ 2.8 := by linarith
    calc Real.exp 1 ^ 3 ≤ 2.8 ^ 3 := by gcongr
      _ ≤ 25 := by norm_num
  nlinarith [Real.exp_pos (3 / 2)]

theorem exp_sq_half_le {r : ℝ} (h0 : 0 ≤ r) (h1 : r ≤ Real.pi / 2) : Real.exp (|-(r * r)| / (2 : ℕ)) ≤ 5 := by
  refine le_trans (Real.exp_le_exp.mpr ?_) exp_three_halves
  have := Real.pi_lt_d2
  rw [abs_neg, abs_of_nonneg (mul_self_nonneg r)]
  push_cast
  nlinarith

theorem has_cos {p : Nat} {x : Iv} {r : ℝ} (hx : Has p x r) (h0 : 0 ≤ r) (h1 : r ≤ Real.pi / 2) :
    Has p (cos p x) (Real.cos r) := by
  have h := has_series_sum (e := fun _ => 1) (d := fun k => (2 * k + 1) * (2 * k + 2)) (fun _ => Nat.one_pos)
    (fun k => by positivity) (has_neg (has_sq hx)) (hasSum_exp (|-(r * r)| / (2 : ℕ))) (exp_sq_half_le h0 h1)
    (term_fact_bound (by omega) (fun k => by nlinarith)) (terms p)
  have e : (∑' j, term (fun _ => 1) (fun k => (2 * k + 1) * (2 * k + 2)) (-(r * r)) j 0) = Real.cos r := by
    rw [← (Real.hasSum_cos r).tsum_eq]
    congr 1; funext j
    rw [term_cos, show -(r * r) = (-1) * r ^ 2 by ring, mul_pow, ← pow_mul]
    simp [div_eq_mul_inv]
  rw [e] at h
  exact h

theorem has_sin {p : Nat} {x : Iv} {r : ℝ} (hx : Has p x r) (h0 : 0 ≤ r) (h1 : r ≤ Real.pi / 2) :
    Has p (sin p x) (Real.sin r) := by
  have h := has_mul hx (has_series_sum (e := fun _ => 1) (d := fun k => (2 * k + 2) * (2 * k + 3))
    (fun _ => Nat.one_pos) (fun k => by positivity) (has_neg (has_sq hx)) (hasSum_exp (|-(r * r)| / (2 : ℕ)))
    (exp_sq_half_le h0 h1) (term_fact_bound (by omega) (fun k => by nlinarith)) (terms p))
  have e : (r * ∑' j, term (fun _ => 1) (fun k => (2 * k + 2) * (2 * k + 3)) (-(r * r)) j 0) = Real.sin r := by
    rw [← (Real.hasSum_sin r).tsum_eq, ← tsum_mul_left]
    congr 1; funext j
    rw [term_sin, show -(r * r) = (-1) * r ^ 2 by ring, mul_pow, ← pow_mul]
    simp only [Nat.mul_zero, Nat.zero_add, Nat.factorial_one, Nat.cast_one, add_comm 1 (2 * j)]
    ring
  rw [e] at h
  exact h

/-! ### Geometric series: arctangent and logarithm -/

/-- The terms with `e k = 2 k + 1` and no divisors. -/
theorem term_odd (u : ℝ) : ∀ j k, term (fun k => 2 * k + 1) (fun _ => 1) u j k = u ^ j / (2 * (k + j) + 1) := by
  intro j
  induction j with
  | zero => intro k; simp [term]
  | succ j ih =>
    intro k
    rw [term, ih]
    push_cast
    rw [show (2 * ((k : ℝ) + 1 + j) + 1) = 2 * (k + (j + 1)) + 1 by ring]
    ring

theorem term_odd_bound (u : ℝ) : ∀ j k, |term (fun k => 2 * k + 1) (fun _ => 1) u j k| ≤ |u| ^ j := by
  intro j k
  rw [term_odd, abs_div, abs_pow]
  have h : (1 : ℝ) ≤ |2 * ((k : ℝ) + j) + 1| := by
    rw [abs_of_nonneg (by positivity)]
    have : (0 : ℝ) ≤ (k : ℝ) + j := by positivity
    linarith
  exact div_le_self (by positivity) h

/-- What a series with odd denominators encloses, for a ratio of at most 4/5. -/
theorem has_series_odd {p : Nat} {y : Iv} {u : ℝ} (hy : Has p y u) (hu : |u| ≤ 4 / 5) (n : Nat) :
    Has p (series p (fun k => 2 * k + 1) (fun _ => 1) y n 0) (∑' j : Nat, u ^ j / (2 * j + 1)) := by
  have h := has_series_sum (e := fun k => 2 * k + 1) (d := fun _ => 1) (fun k => by omega) (fun _ => Nat.one_pos) hy
    (hasSum_geometric_of_lt_one (abs_nonneg u) (by linarith))
    (by rw [inv_le_comm₀ (by linarith) (by norm_num)]; linarith) (term_odd_bound u) n
  simp only [term_odd] at h
  simpa using h

theorem has_arctanInv {p m : Nat} (hm : 2 ≤ m) : Has p (arctanInv p m) (Real.arctan (1 / m)) := by
  have hm' : (2 : ℝ) ≤ m := by exact_mod_cast hm
  have hy : Has p (frac p (-1) (m * m)) (((-1 : Int) : ℝ) / (m * m : Nat)) := has_frac p (-1) (by positivity)
  have hu : |((-1 : Int) : ℝ) / (m * m : Nat)| ≤ 4 / 5 := by
    rw [abs_div]
    push_cast
    rw [abs_neg, abs_one, abs_of_pos (by positivity), div_le_div_iff₀ (by positivity) (by norm_num)]
    nlinarith
  have h := has_scale 1 (d := m) (by omega) (has_series_odd hy hu (terms p))
  have e : (∑' j : Nat, (((-1 : Int) : ℝ) / (m * m : Nat)) ^ j / (2 * j + 1)) * (1 : ℕ) / m = Real.arctan (1 / m) := by
    have hx : ‖(1 / m : ℝ)‖ < 1 := by
      rw [Real.norm_eq_abs, abs_of_pos (by positivity), div_lt_one (by positivity)]; linarith
    rw [← (Real.hasSum_arctan hx).tsum_eq, ← tsum_mul_right, ← tsum_div_const]
    congr 1; funext j
    push_cast
    rw [div_pow, one_div, inv_pow, pow_succ, pow_mul, mul_pow, pow_two, mul_pow]
    field_simp
  rw [e] at h
  exact h

theorem has_logRatio {p m : Nat} (hm : 2 ≤ m) : Has p (logRatio p m) (Real.log (1 + 1 / m) - Real.log (1 - 1 / m)) := by
  have hm' : (2 : ℝ) ≤ m := by exact_mod_cast hm
  have hy : Has p (frac p 1 (m * m)) (((1 : Int) : ℝ) / (m * m : Nat)) := has_frac p 1 (by positivity)
  have hu : |((1 : Int) : ℝ) / (m * m : Nat)| ≤ 4 / 5 := by
    rw [abs_div]
    push_cast
    rw [abs_one, abs_of_pos (by positivity), div_le_div_iff₀ (by positivity) (by norm_num)]
    nlinarith
  have h := has_scale 2 (d := m) (by omega) (has_series_odd hy hu (terms p))
  have e : (∑' j : Nat, (((1 : Int) : ℝ) / (m * m : Nat)) ^ j / (2 * j + 1)) * (2 : ℕ) / m =
      Real.log (1 + 1 / m) - Real.log (1 - 1 / m) := by
    have hx : |(1 / m : ℝ)| < 1 := by
      rw [abs_of_pos (by positivity), div_lt_one (by positivity)]; linarith
    rw [← (Real.hasSum_log_sub_log_of_abs_lt_one hx).tsum_eq, ← tsum_mul_right, ← tsum_div_const]
    congr 1; funext j
    push_cast
    rw [div_pow, one_pow, one_div (m : ℝ), inv_pow, pow_succ, pow_mul, pow_two]
    field_simp
  rw [e] at h
  exact h

/-! ### The constants -/

theorem has_pi (p : Nat) : Has p (pi p) Real.pi := by
  have h := has_sub (has_scale 16 (d := 1) Nat.one_pos (has_arctanInv (p := p) (m := 5) (by omega)))
    (has_scale 4 (d := 1) Nat.one_pos (has_arctanInv (p := p) (m := 239) (by omega)))
  have e : Real.arctan (1 / (5 : ℕ)) * (16 : ℕ) / (1 : ℕ) - Real.arctan (1 / (239 : ℕ)) * (4 : ℕ) / (1 : ℕ) = Real.pi := by
    have := Real.four_mul_arctan_inv_5_sub_arctan_inv_239
    push_cast
    rw [one_div, one_div]
    linarith
  rw [e] at h
  exact h

theorem has_log10 (p : Nat) : Has p (log10 p) (Real.log 10) := by
  have h := has_add (has_scale 3 (d := 1) Nat.one_pos (has_logRatio (p := p) (m := 3) (by omega)))
    (has_logRatio (p := p) (m := 9) (by omega))
  have e : (Real.log (1 + 1 / (3 : ℕ)) - Real.log (1 - 1 / (3 : ℕ))) * (3 : ℕ) / (1 : ℕ) +
      (Real.log (1 + 1 / (9 : ℕ)) - Real.log (1 - 1 / (9 : ℕ))) = Real.log 10 := by
    rw [← Real.log_div (by norm_num) (by norm_num), ← Real.log_div (by norm_num) (by norm_num)]
    norm_num
    rw [show (10 : ℝ) = 2 ^ 3 * (5 / 4) by norm_num, Real.log_mul (by norm_num) (by norm_num), Real.log_pow]
    push_cast
    ring
  rw [e] at h
  exact h

end Sys2Proof.Iv
end

