-- ==== Sys2Proof/Laws/Designer.lean ====
section
/-! SUPPORT. The enclosures of the reference designer contain the exact real coefficients of 40_designer.md. -/

namespace Sys2Proof.Designer

open Sys2Proof.Machine

/-- The five exact coefficients lie in the five enclosures. -/
def SetHas (p : Nat) (v : IvSet) (e : Exact) : Prop :=
  Iv.Has p v.b0 e.b0 ∧ Iv.Has p v.b1 e.b1 ∧ Iv.Has p v.b2 e.b2 ∧ Iv.Has p v.a1 e.a1 ∧ Iv.Has p v.a2 e.a2

/-! ### The operands -/

theorem units_eq_mag {a : F32} (h : 0 < F32.units a) : F32.units a = (F32.mag a : Int) := by
  unfold F32.units at *
  split at h <;> simp_all
  omega

theorem real_eq_mag {a : F32} (h : 0 < F32.units a) : F32.real a = (F32.mag a : ℝ) / 2 ^ 149 := by
  unfold F32.real
  rw [units_eq_mag h]
  push_cast
  ring

theorem mag_pos {a : F32} (h : 0 < F32.units a) : 0 < F32.mag a := by
  have := units_eq_mag h
  omega

/-- What the cut contract says of the two operands. -/
structure CutOperands (sr f : F32) : Prop where
  rate  : 0 < F32.units sr
  freq  : 0 < F32.units f
  below : 2 * F32.units f < F32.units sr

theorem cutContract_operands {sr f : F32} (h : cutContract sr f = true) : CutOperands sr f := by
  simp [cutContract, F32.finitePos] at h
  exact ⟨h.1.1.1.2, h.1.2, h.2⟩

theorem CutOperands.mag_lt {sr f : F32} (h : CutOperands sr f) : 2 * F32.mag f < F32.mag sr := by
  have h1 := units_eq_mag h.rate
  have h2 := units_eq_mag h.freq
  have h3 := h.below
  omega

theorem CutOperands.ratio {sr f : F32} (h : CutOperands sr f) :
    Real.pi * F32.real f / F32.real sr = Real.pi * F32.mag f / F32.mag sr := by
  rw [real_eq_mag h.rate, real_eq_mag h.freq]
  have : (0 : ℝ) < F32.mag sr := by exact_mod_cast mag_pos h.rate
  field_simp

/-- Half the angle `w` of a cut design lies strictly between 0 and a right angle. -/
theorem CutOperands.half_angle {sr f : F32} (h : CutOperands sr f) :
    0 < Real.pi * F32.real f / F32.real sr ∧ Real.pi * F32.real f / F32.real sr < Real.pi / 2 := by
  rw [h.ratio]
  have h1 : (0 : ℝ) < F32.mag sr := by exact_mod_cast mag_pos h.rate
  have h2 : (0 : ℝ) < F32.mag f := by exact_mod_cast mag_pos h.freq
  have h3 : (2 : ℝ) * F32.mag f < F32.mag sr := by exact_mod_cast h.mag_lt
  have := Real.pi_pos
  constructor
  · positivity
  · rw [div_lt_div_iff₀ h1 (by norm_num)]
    nlinarith

/-! ### The trigonometric values -/

/-- The four enclosures contain the values at the angle `w = 2 t`. -/
structure TrigHas (p : Nat) (v : Trig) (t : ℝ) : Prop where
  sinW  : Iv.Has p v.sinW (Real.sin (2 * t))
  cosW  : Iv.Has p v.cosW (Real.cos (2 * t))
  sinSq : Iv.Has p v.sinSq (Real.sin t ^ 2)
  cosSq : Iv.Has p v.cosSq (Real.cos t ^ 2)

theorem has_one (p : Nat) : Iv.Has p (one p) 1 := by
  show Iv.Has p (Iv.frac p 1 1) 1
  simpa using Iv.has_frac p 1 (d := 1) Nat.one_pos

theorem sin_five_pi_div_six : Real.sin (5 * Real.pi / 6) = 1 / 2 := by
  rw [show 5 * Real.pi / 6 = Real.pi - Real.pi / 6 by ring, Real.sin_pi_sub, Real.sin_pi_div_six]

theorem trig_has {sr f : F32} (h : CutOperands sr f) (p : Nat) :
    TrigHas p (trig p sr f) (Real.pi * F32.real f / F32.real sr) := by
  have hang := h.half_angle
  rw [h.ratio] at hang ⊢
  have hus : 0 < F32.mag sr := mag_pos h.rate
  have h1 : (0 : ℝ) < F32.mag sr := by exact_mod_cast hus
  unfold trig
  dsimp only
  split
  case isTrue hq =>
    have e : Real.pi * F32.mag f / F32.mag sr = Real.pi / 4 := by
      rw [← hq]
      have : (0 : ℝ) < F32.mag f := by exact_mod_cast mag_pos h.freq
      push_cast
      field_simp
    have half : Iv.Has p (Iv.frac p 1 2) (1 / 2) := by simpa using Iv.has_frac p 1 (d := 2) (by omega)
    rw [e]
    refine ⟨?_, ?_, ?_, ?_⟩
    · rw [show 2 * (Real.pi / 4) = Real.pi / 2 by ring, Real.sin_pi_div_two]
      exact has_one p
    · rw [show 2 * (Real.pi / 4) = Real.pi / 2 by ring, Real.cos_pi_div_two]
      simpa using Iv.has_frac p 0 (d := 1) Nat.one_pos
    · rw [Real.sin_pi_div_four, div_pow, Real.sq_sqrt (by norm_num)]
      norm_num at half ⊢
      exact half
    · rw [Real.cos_pi_div_four, div_pow, Real.sq_sqrt (by norm_num)]
      norm_num at half ⊢
      exact half
  case isFalse hq =>
    have ht : Iv.Has p (Iv.scale (Iv.pi p) (F32.mag f) (F32.mag sr)) (Real.pi * F32.mag f / F32.mag sr) :=
      Iv.has_scale _ hus (Iv.has_pi p)
    have hs := Iv.has_sin ht hang.1.le hang.2.le
    have hc := Iv.has_cos ht hang.1.le hang.2.le
    have hs2 := Iv.has_sq hs
    have hc2 := Iv.has_sq hc
    refine ⟨?_, ?_, ?_, ?_⟩
    · dsimp only
      split
      · rename_i h12
        have half : Iv.Has p (Iv.frac p 1 2) (1 / 2) := by simpa using Iv.has_frac p 1 (d := 2) (by omega)
        have e : Real.sin (2 * (Real.pi * F32.mag f / F32.mag sr)) = 1 / 2 := by
          rcases h12 with h12 | h12
          · have hr : (F32.mag sr : ℝ) = 12 * F32.mag f := by exact_mod_cast h12.symm
            have : (0 : ℝ) < F32.mag f := by exact_mod_cast mag_pos h.freq
            rw [hr, show 2 * (Real.pi * F32.mag f / (12 * F32.mag f)) = Real.pi / 6 by field_simp; norm_num,
              Real.sin_pi_div_six]
          · have hr : (12 : ℝ) * F32.mag f = 5 * F32.mag sr := by exact_mod_cast h12
            rw [show 2 * (Real.pi * F32.mag f / F32.mag sr) = 5 * Real.pi / 6 by
              field_simp; linear_combination hr, sin_five_pi_div_six]
        rw [e]
        exact half
      · have := Iv.has_scale 2 (d := 1) Nat.one_pos (Iv.has_mul hs hc)
        rw [Real.sin_two_mul]
        convert this using 1
        push_cast; ring
    · have := Iv.has_sub hc2 hs2
      rw [Real.cos_two_mul']
      convert this using 1
      ring
    · rw [pow_two]; exact hs2
    · rw [pow_two]; exact hc2

theorem minusTwoCos_has {p : Nat} {v : Trig} {t : ℝ} (h : TrigHas p v t) :
    Iv.Has p (minusTwoCos v) (-2 * Real.cos (2 * t)) := by
  have := Iv.has_neg (Iv.has_scale 2 (d := 1) Nat.one_pos h.cosW)
  unfold minusTwoCos
  convert this using 1
  push_cast; ring

/-- The five quotients contain the five real quotients. -/
theorem quotients_has {p : Nat} {b0 b1 b2 a1 a2 den : Iv} {r0 r1 r2 r3 r4 s : ℝ} {v : IvSet} {e : Exact}
    (h : quotients p b0 b1 b2 a1 a2 den = some v) (h0 : Iv.Has p b0 r0) (h1 : Iv.Has p b1 r1) (h2 : Iv.Has p b2 r2)
    (h3 : Iv.Has p a1 r3) (h4 : Iv.Has p a2 r4) (hs : Iv.Has p den s) (e0 : e.b0 = r0 / s) (e1 : e.b1 = r1 / s)
    (e2 : e.b2 = r2 / s) (e3 : e.a1 = r3 / s) (e4 : e.a2 = r4 / s) : SetHas p v e := by
  unfold quotients at h
  split at h
  · rename_i q0 q1 q2 q3 q4
    cases h
    unfold SetHas
    rw [e0, e1, e2, e3, e4]
    exact ⟨Iv.has_div h0 hs q0, Iv.has_div h1 hs q1, Iv.has_div h2 hs q2, Iv.has_div h3 hs q3, Iv.has_div h4 hs q4⟩
  · cases h

/-! ### The cut sections -/

theorem damping_has {p : Nat} {v : Trig} {t : ℝ} {n k : Nat} (h : TrigHas p v t) (hk : k < n) :
    Iv.Has p (damping p v n k) (Real.sin (2 * t) * Real.cos ((2 * k + 1) * Real.pi / (4 * n))) := by
  have hn : 0 < n := by omega
  have hn' : (0 : ℝ) < n := by exact_mod_cast hn
  have hk' : (k : ℝ) + 1 ≤ n := by exact_mod_cast hk
  have hphi : Iv.Has p (Iv.scale (Iv.pi p) (2 * k + 1) (4 * n)) ((2 * k + 1) * Real.pi / (4 * n)) := by
    have := Iv.has_scale (2 * k + 1) (d := 4 * n) (by omega) (Iv.has_pi p)
    convert this using 1
    push_cast; ring
  have hp := Real.pi_pos
  have h1 : (2 * (k : ℝ) + 1) * Real.pi / (4 * n) ≤ Real.pi / 2 := by
    rw [div_le_div_iff₀ (by positivity) (by norm_num)]
    nlinarith
  exact Iv.has_mul h.sinW (Iv.has_cos hphi (by positivity) h1)

/-- The denominator that the cut formulas have in common. -/
theorem cut_den_pos {t : ℝ} (h0 : 0 < t) (h1 : t < Real.pi / 2) {n k : Nat} (hk : k < n) :
    0 < 1 + Real.sin (2 * t) * Real.cos ((2 * k + 1) * Real.pi / (4 * n)) := by
  have hn' : (0 : ℝ) < n := by exact_mod_cast (by omega : 0 < n)
  have hk' : (k : ℝ) + 1 ≤ n := by exact_mod_cast hk
  have hp := Real.pi_pos
  have hs : 0 ≤ Real.sin (2 * t) := Real.sin_nonneg_of_nonneg_of_le_pi (by linarith) (by linarith)
  have hc : 0 ≤ Real.cos ((2 * k + 1) * Real.pi / (4 * n)) := by
    apply Real.cos_nonneg_of_neg_pi_div_two_le_of_le
    · have : (0 : ℝ) ≤ (2 * k + 1) * Real.pi / (4 * n) := by positivity
      linarith
    · rw [div_le_div_iff₀ (by positivity) (by norm_num)]
      nlinarith
  have := mul_nonneg hs hc
  linarith

/-- The high-pass formulas over the common denominator. -/
theorem highpass_forms {sr f : ℝ} {n k : Nat} (h0 : 0 < Real.pi * f / sr) (h1 : Real.pi * f / sr < Real.pi / 2)
    (hk : k < n) :
    let t := Real.pi * f / sr
    let r := Real.sin (2 * t) * Real.cos ((2 * k + 1) * Real.pi / (4 * n))
    let e := Exact.highpass sr f n k
    e.b0 = Real.cos t ^ 2 / (1 + r) ∧ e.b1 = -(Real.cos t ^ 2 * 2) / (1 + r) ∧ e.b2 = Real.cos t ^ 2 / (1 + r) ∧
    e.a1 = -2 * Real.cos (2 * t) / (1 + r) ∧ e.a2 = (1 - r) / (1 + r) := by
  intro t r e
  have hc : 0 < Real.cos t := Real.cos_pos_of_mem_Ioo ⟨by linarith [Real.pi_pos], h1⟩
  have hD : 0 < 1 + r := cut_den_pos h0 h1 hk
  have hsc := Real.sin_sq_add_cos_sq t
  have hr : r = 2 * Real.sin t * Real.cos t * Real.cos ((2 * k + 1) * Real.pi / (4 * n)) := by
    simp only [r, Real.sin_two_mul]
  have hq : Real.tan t / Exact.quality n k = Real.tan t * (2 * Real.cos ((2 * k + 1) * Real.pi / (4 * n))) := by
    unfold Exact.quality; rw [div_div_eq_mul_div, div_one]
  have hden : 1 + Real.tan t / Exact.quality n k + Real.tan t * Real.tan t = (1 + r) / Real.cos t ^ 2 := by
    rw [hq, Real.tan_eq_sin_div_cos, eq_div_iff (by positivity), hr]
    field_simp
    linear_combination hsc
  have hnum : 1 - Real.tan t / Exact.quality n k + Real.tan t * Real.tan t = (1 - r) / Real.cos t ^ 2 := by
    rw [hq, Real.tan_eq_sin_div_cos, eq_div_iff (by positivity), hr]
    field_simp
    linear_combination hsc
  have hc1 : 1 / (1 + Real.tan t / Exact.quality n k + Real.tan t * Real.tan t) = Real.cos t ^ 2 / (1 + r) := by
    rw [hden, one_div_div]
  refine ⟨hc1, ?_, hc1, ?_, ?_⟩
  · show -2 * (1 / (1 + Real.tan t / Exact.quality n k + Real.tan t * Real.tan t)) = _
    rw [hc1]; ring
  · show 2 * (1 / (1 + Real.tan t / Exact.quality n k + Real.tan t * Real.tan t)) * (Real.tan t * Real.tan t - 1) = _
    rw [hc1, Real.tan_eq_sin_div_cos, Real.cos_two_mul']
    field_simp
    ring
  · show 1 / (1 + Real.tan t / Exact.quality n k + Real.tan t * Real.tan t) *
      (1 - Real.tan t / Exact.quality n k + Real.tan t * Real.tan t) = _
    rw [hc1, hnum]
    field_simp

/-- The low-pass formulas over the common denominator. -/
theorem lowpass_forms {sr f : ℝ} {n k : Nat} (h0 : 0 < Real.pi * f / sr) (h1 : Real.pi * f / sr < Real.pi / 2)
    (hk : k < n) :
    let t := Real.pi * f / sr
    let r := Real.sin (2 * t) * Real.cos ((2 * k + 1) * Real.pi / (4 * n))
    let e := Exact.lowpass sr f n k
    e.b0 = Real.sin t ^ 2 / (1 + r) ∧ e.b1 = Real.sin t ^ 2 * 2 / (1 + r) ∧ e.b2 = Real.sin t ^ 2 / (1 + r) ∧
    e.a1 = -2 * Real.cos (2 * t) / (1 + r) ∧ e.a2 = (1 - r) / (1 + r) := by
  intro t r e
  have hc : 0 < Real.cos t := Real.cos_pos_of_mem_Ioo ⟨by linarith [Real.pi_pos], h1⟩
  have hs : 0 < Real.sin t := Real.sin_pos_of_pos_of_lt_pi h0 (by linarith [Real.pi_pos])
  have hD : 0 < 1 + r := cut_den_pos h0 h1 hk
  have hsc := Real.sin_sq_add_cos_sq t
  have hr : r = 2 * Real.sin t * Real.cos t * Real.cos ((2 * k + 1) * Real.pi / (4 * n)) := by
    simp only [r, Real.sin_two_mul]
  have ht : 1 / Real.tan t = Real.cos t / Real.sin t := by rw [Real.tan_eq_sin_div_cos, one_div_div]
  have hq : ∀ m : ℝ, m / Exact.quality n k = m * (2 * Real.cos ((2 * k + 1) * Real.pi / (4 * n))) := by
    intro m; unfold Exact.quality; rw [div_div_eq_mul_div, div_one]
  have hden : 1 + 1 / Real.tan t / Exact.quality n k + 1 / Real.tan t * (1 / Real.tan t) = (1 + r) / Real.sin t ^ 2 := by
    rw [hq, ht, eq_div_iff (by positivity), hr]
    field_simp
    linear_combination hsc
  have hnum : 1 - 1 / Real.tan t / Exact.quality n k + 1 / Real.tan t * (1 / Real.tan t) = (1 - r) / Real.sin t ^ 2 := by
    rw [hq, ht, eq_div_iff (by positivity), hr]
    field_simp
    linear_combination hsc
  have hc1 : 1 / (1 + 1 / Real.tan t / Exact.quality n k + 1 / Real.tan t * (1 / Real.tan t)) =
      Real.sin t ^ 2 / (1 + r) := by
    rw [hden, one_div_div]
  refine ⟨hc1, ?_, hc1, ?_, ?_⟩
  · show 2 * (1 / (1 + 1 / Real.tan t / Exact.quality n k + 1 / Real.tan t * (1 / Real.tan t))) = _
    rw [hc1]; ring
  · show 2 * (1 / (1 + 1 / Real.tan t / Exact.quality n k + 1 / Real.tan t * (1 / Real.tan t))) *
      (1 - 1 / Real.tan t * (1 / Real.tan t)) = _
    rw [hc1, ht, Real.cos_two_mul']
    field_simp
    ring
  · show 1 / (1 + 1 / Real.tan t / Exact.quality n k + 1 / Real.tan t * (1 / Real.tan t)) *
      (1 - 1 / Real.tan t / Exact.quality n k + 1 / Real.tan t * (1 / Real.tan t)) = _
    rw [hc1, hnum]
    field_simp

theorem highpassEncl_has {sr f : F32} (h : CutOperands sr f) {n k p : Nat} (hk : k < n) {v : IvSet}
    (hv : highpassEncl sr f n k p = some v) : SetHas p v (Exact.highpass (F32.real sr) (F32.real f) n k) := by
  obtain ⟨h0, h1⟩ := h.half_angle
  obtain ⟨e0, e1, e2, e3, e4⟩ := highpass_forms h0 h1 hk
  have ht := trig_has h p
  have hr := damping_has ht hk
  have hb1 := Iv.has_neg (Iv.has_scale 2 (d := 1) Nat.one_pos ht.cosSq)
  rw [Nat.cast_one, div_one] at hb1
  exact quotients_has hv ht.cosSq hb1 ht.cosSq (minusTwoCos_has ht) (Iv.has_sub (has_one p) hr)
    (Iv.has_add (has_one p) hr) e0 e1 e2 e3 e4

theorem lowpassEncl_has {sr f : F32} (h : CutOperands sr f) {n k p : Nat} (hk : k < n) {v : IvSet}
    (hv : lowpassEncl sr f n k p = some v) : SetHas p v (Exact.lowpass (F32.real sr) (F32.real f) n k) := by
  obtain ⟨h0, h1⟩ := h.half_angle
  obtain ⟨e0, e1, e2, e3, e4⟩ := lowpass_forms h0 h1 hk
  have ht := trig_has h p
  have hr := damping_has ht hk
  have hb1 := Iv.has_scale 2 (d := 1) Nat.one_pos ht.sinSq
  rw [Nat.cast_one, div_one] at hb1
  exact quotients_has hv ht.sinSq hb1 ht.sinSq (minusTwoCos_has ht) (Iv.has_sub (has_one p) hr)
    (Iv.has_add (has_one p) hr) e0 e1 e2 e3 e4

/-! ### The peaking section -/

/-- What the peak contract says of the four operands. -/
theorem peakContract_operands {sr f q g : F32} (h : peakContract sr f q g = true) :
    CutOperands sr f ∧ 0 < F32.units q ∧ |F32.real g| ≤ 24 := by
  simp only [peakContract, Bool.and_eq_true, decide_eq_true_eq] at h
  refine ⟨cutContract_operands h.1.1.1.1, ?_, ?_⟩
  · have := h.1.1.1.2
    simp [F32.finitePos] at this
    exact this.2
  · have h1 : (-(24 * 2 ^ 149) : ℝ) ≤ (F32.units g : ℝ) := by exact_mod_cast h.1.2
    have h2 : (F32.units g : ℝ) ≤ 24 * 2 ^ 149 := by exact_mod_cast h.2
    unfold F32.real
    rw [abs_le]
    constructor
    · rw [le_div_iff₀ (by positivity)]; linarith
    · rw [div_le_iff₀ (by positivity)]; linarith

/-- The exponent of `A = 10^(g/40)` stays within the range of the exponential series. -/
theorem gain_exp_le {g : ℝ} (hg : |g| ≤ 24) : Real.exp |Real.log 10 * (g / 40)| ≤ 5 := by
  have hl : 0 < Real.log 10 := Real.log_pos (by norm_num)
  have h1 : |Real.log 10 * (g / 40)| ≤ Real.log 5 := by
    rw [abs_mul, abs_of_pos hl, abs_div, abs_of_pos (by norm_num : (0 : ℝ) < 40)]
    have h2 : Real.log 10 * 3 ≤ Real.log 5 * 5 := by
      have := Real.log_le_log (by norm_num) (by norm_num : (10 : ℝ) ^ 3 ≤ 5 ^ 5)
      rw [Real.log_pow, Real.log_pow] at this
      push_cast at this
      linarith
    have h3 : |g| / 40 ≤ 3 / 5 := by linarith
    nlinarith
  calc _ ≤ Real.exp (Real.log 5) := Real.exp_le_exp.mpr h1
    _ = 5 := Real.exp_log (by norm_num)

/-- `A` as an exponential. -/
theorem amplitude_eq (g : ℝ) : Real.sqrt ((10 : ℝ) ^ (g / 20)) = Real.exp (Real.log 10 * (g / 40)) := by
  rw [Real.rpow_def_of_pos (by norm_num), ← Real.exp_half]
  congr 1
  ring

theorem peakEncl_has {sr f q g : F32} (h : peakContract sr f q g = true) {p : Nat} {v : IvSet}
    (hv : peakEncl sr f q g p = some v) :
    SetHas p v (Exact.peak (F32.real sr) (F32.real f) (F32.real q) (F32.real g)) := by
  obtain ⟨hc, hq, hg⟩ := peakContract_operands h
  have ht := trig_has hc p
  have hx : Iv.Has p (Iv.mul p (Iv.log10 p) (Iv.frac p (F32.units g) (40 * 2 ^ 149)))
      (Real.log 10 * (F32.real g / 40)) := by
    have h1 := Iv.has_frac p (F32.units g) (d := 40 * 2 ^ 149) (by norm_num)
    have e : (F32.units g : ℝ) / (40 * 2 ^ 149 : Nat) = F32.real g / 40 := by
      unfold F32.real
      push_cast
      field_simp
      ring
    rw [e] at h1
    exact Iv.has_mul (Iv.has_log10 p) h1
  have hA := Iv.has_exp hx (gain_exp_le hg)
  have hAi := Iv.has_exp (Iv.has_neg hx) (by rw [abs_neg]; exact gain_exp_le hg)
  have hmq : (0 : ℝ) < F32.mag q := by exact_mod_cast mag_pos hq
  have halpha := Iv.has_scale (2 ^ 149) (d := 2 * F32.mag q) (by have := mag_pos hq; omega) ht.sinW
  have hup := Iv.has_mul halpha hA
  have hdown := Iv.has_mul halpha hAi
  have hm := minusTwoCos_has ht
  have ew : 2 * Real.pi * F32.real f / F32.real sr = 2 * (Real.pi * F32.real f / F32.real sr) := by ring
  have ealpha : Real.sin (2 * Real.pi * F32.real f / F32.real sr) / (2 * F32.real q) =
      Real.sin (2 * (Real.pi * F32.real f / F32.real sr)) * (2 ^ 149 : Nat) / (2 * F32.mag q : Nat) := by
    rw [ew, real_eq_mag hq]
    push_cast
    field_simp
    ring
  refine quotients_has hv (Iv.has_add (has_one p) hup) hm (Iv.has_sub (has_one p) hup) hm
    (Iv.has_sub (has_one p) hdown) (Iv.has_add (has_one p) hdown) ?_ ?_ ?_ ?_ ?_ <;>
    (simp only [Exact.peak]; rw [amplitude_eq, ealpha, Real.exp_neg, div_eq_mul_inv _ (Real.exp _)])
  · rw [ew]
  · rw [ew]

end Sys2Proof.Designer
end

