-- ==== Sys2Proof/Laws/PerInstr.lean ====
section
/-! SUPPORT. What holds of the encoding of every command, one lemma per constructor. -/

namespace Sys2Proof.Laws.Fields

/-- The opcode of a command (30_encoding.md R94). -/
def opcode : Instr → Nat
  | .nop => 0x0
  | .prepare => 0x1
  | .release => 0x2
  | .update => 0x3
  | .process _ _ _ => 0x4
  | .designPeak => 0x5
  | .designLc _ => 0x6
  | .designHc _ => 0x7
  | .setPeak _ => 0x8
  | .setLc _ _ => 0x9
  | .setHc _ _ => 0xA

/-- The word of a well-formed command has its opcode in OP and zeros in the reserved fields (30_encoding.md R91, R94). -/
def Statement (i : Instr) : Prop :=
  i.wf = true → field (encode i) 0 4 = opcode i ∧ field (encode i) 9 7 = 0 ∧ field (encode i) 27 5 = 0

theorem nop : Statement .nop := fun _ => by decide

theorem prepare : Statement .prepare := fun _ => by decide

theorem release : Statement .release := fun _ => by decide

theorem update : Statement .update := fun _ => by decide

theorem designPeak : Statement .designPeak := fun _ => by decide

theorem process (ch : ChMask) (u : Bool) (len : Nat) : Statement (.process ch u len) := by
  intro h
  have hl : len ≤ 2047 := lengthOk_iff.mp h
  obtain ⟨k, hk, hc, -, -⟩ := chBits_cases ch
  obtain ⟨b, hb, hu⟩ : ∃ b, b < 2 ∧ (if u then 2 ^ 8 else 0) = b * 2 ^ 8 := by
    cases u
    · exact ⟨0, by decide⟩
    · exact ⟨1, by decide⟩
  have hv : 4 + k * 2 ^ 4 + b * 2 ^ 8 + len * 2 ^ 16 < 2 ^ 32 := by omega
  show field (BitVec.ofNat 32 (4 + chBits ch + (if u then 2 ^ 8 else 0) + len * 2 ^ 16)) 0 4 = 4 ∧
    field (BitVec.ofNat 32 (4 + chBits ch + (if u then 2 ^ 8 else 0) + len * 2 ^ 16)) 9 7 = 0 ∧
    field (BitVec.ofNat 32 (4 + chBits ch + (if u then 2 ^ 8 else 0) + len * 2 ^ 16)) 27 5 = 0
  rw [hc, hu]
  simp only [field_ofNat hv]
  omega

theorem designLc (n : Nat) : Statement (.designLc n) := by
  intro h
  have hn := stageCountOk_iff.mp h
  have hv : 6 + (n - 1) * 2 ^ 6 < 2 ^ 32 := by omega
  show field (BitVec.ofNat 32 (6 + (n - 1) * 2 ^ 6)) 0 4 = 6 ∧ field (BitVec.ofNat 32 (6 + (n - 1) * 2 ^ 6)) 9 7 = 0 ∧
    field (BitVec.ofNat 32 (6 + (n - 1) * 2 ^ 6)) 27 5 = 0
  simp only [field_ofNat hv]
  omega

theorem designHc (n : Nat) : Statement (.designHc n) := by
  intro h
  have hn := stageCountOk_iff.mp h
  have hv : 7 + (n - 1) * 2 ^ 6 < 2 ^ 32 := by omega
  show field (BitVec.ofNat 32 (7 + (n - 1) * 2 ^ 6)) 0 4 = 7 ∧ field (BitVec.ofNat 32 (7 + (n - 1) * 2 ^ 6)) 9 7 = 0 ∧
    field (BitVec.ofNat 32 (7 + (n - 1) * 2 ^ 6)) 27 5 = 0
  simp only [field_ofNat hv]
  omega

theorem setPeak (ch : ChMask) : Statement (.setPeak ch) := by
  intro _
  obtain ⟨k, hk, hc, -, -⟩ := chBits_cases ch
  have hv : 8 + k * 2 ^ 4 < 2 ^ 32 := by omega
  show field (BitVec.ofNat 32 (8 + chBits ch)) 0 4 = 8 ∧ field (BitVec.ofNat 32 (8 + chBits ch)) 9 7 = 0 ∧
    field (BitVec.ofNat 32 (8 + chBits ch)) 27 5 = 0
  rw [hc]
  simp only [field_ofNat hv]
  omega

theorem setLc (ch : ChMask) (n : Nat) : Statement (.setLc ch n) := by
  intro h
  have hn := stageCountOk_iff.mp h
  obtain ⟨k, hk, hc, -, -⟩ := chBits_cases ch
  have hv : 9 + k * 2 ^ 4 + (n - 1) * 2 ^ 6 < 2 ^ 32 := by omega
  show field (BitVec.ofNat 32 (9 + chBits ch + (n - 1) * 2 ^ 6)) 0 4 = 9 ∧
    field (BitVec.ofNat 32 (9 + chBits ch + (n - 1) * 2 ^ 6)) 9 7 = 0 ∧
    field (BitVec.ofNat 32 (9 + chBits ch + (n - 1) * 2 ^ 6)) 27 5 = 0
  rw [hc]
  simp only [field_ofNat hv]
  omega

theorem setHc (ch : ChMask) (n : Nat) : Statement (.setHc ch n) := by
  intro h
  have hn := stageCountOk_iff.mp h
  obtain ⟨k, hk, hc, -, -⟩ := chBits_cases ch
  have hv : 10 + k * 2 ^ 4 + (n - 1) * 2 ^ 6 < 2 ^ 32 := by omega
  show field (BitVec.ofNat 32 (10 + chBits ch + (n - 1) * 2 ^ 6)) 0 4 = 10 ∧
    field (BitVec.ofNat 32 (10 + chBits ch + (n - 1) * 2 ^ 6)) 9 7 = 0 ∧
    field (BitVec.ofNat 32 (10 + chBits ch + (n - 1) * 2 ^ 6)) 27 5 = 0
  rw [hc]
  simp only [field_ofNat hv]
  omega

end Sys2Proof.Laws.Fields
end

