-- ==== Sys2Proof/Laws/Rounding.lean ====
section
/-! SUPPORT. The rounding of Machine/F32.lean is RN32 of 00_scope.md R10: nearest, ties to even, overflow to infinity. -/

namespace Sys2Proof.F32

/-! ### The fields of a packed pattern -/

/-- The magnitude, in units of 2^-149, of the finite pattern whose 31 lower bits are `m`. -/
def magOf (m : Nat) : Nat := if m / 2 ^ 23 = 0 then m % 2 ^ 23 else (2 ^ 23 + m % 2 ^ 23) * 2 ^ (m / 2 ^ 23 - 1)

theorem pack_toNat (neg : Bool) {m : Nat} (h : m < 2 ^ 31) : (pack neg m).toNat = (if neg then 2 ^ 31 else 0) + m := by
  unfold pack
  rw [BitVec.toNat_ofNat, Nat.mod_eq_of_lt]
  cases neg <;> simp
  all_goals omega

theorem pack_sign (neg : Bool) {m : Nat} (h : m < 2 ^ 31) : sign (pack neg m) = neg := by
  unfold sign
  rw [pack_toNat neg h]
  cases neg <;> simp
  omega

theorem pack_expField (neg : Bool) {m : Nat} (h : m < 2 ^ 31) : expField (pack neg m) = m / 2 ^ 23 := by
  unfold expField
  rw [pack_toNat neg h]
  cases neg <;> simp <;> omega

theorem pack_frac (neg : Bool) {m : Nat} (h : m < 2 ^ 31) : frac (pack neg m) = m % 2 ^ 23 := by
  unfold frac
  rw [pack_toNat neg h]
  cases neg <;> simp <;> omega

theorem pack_mag (neg : Bool) {m : Nat} (h : m < 2 ^ 31) : mag (pack neg m) = magOf m := by
  unfold mag magOf
  rw [pack_expField neg h, pack_frac neg h]

theorem pack_isFinite (neg : Bool) {m : Nat} (h : m < infMag) : isFinite (pack neg m) = true := by
  unfold infMag at h
  unfold isFinite
  rw [pack_expField neg (by omega)]
  simp; omega

/-- The 31 lower bits of a pattern. -/
def low (a : F32) : Nat := a.toNat % 2 ^ 31

theorem low_lt (a : F32) : low a < 2 ^ 31 := Nat.mod_lt _ (by norm_num)

theorem eq_pack (a : F32) : a = pack (sign a) (low a) := by
  apply BitVec.eq_of_toNat_eq
  rw [pack_toNat _ (low_lt a)]
  have := a.isLt
  unfold sign low
  split <;> simp_all <;> omega

theorem low_lt_of_finite {a : F32} (h : isFinite a = true) : low a < infMag := by
  rw [eq_pack a] at h
  unfold isFinite at h
  rw [pack_expField _ (low_lt a)] at h
  have := low_lt a
  unfold infMag
  simp at h
  omega

theorem mag_eq_magOf (a : F32) : mag a = magOf (low a) := by
  conv_lhs => rw [eq_pack a]
  exact pack_mag _ (low_lt a)

theorem real_eq (a : F32) : real a = (if sign a then -1 else 1) * (magOf (low a) : ℝ) / 2 ^ 149 := by
  unfold real units
  rw [mag_eq_magOf]
  split <;> push_cast <;> ring

/-! ### The rounding of a magnitude -/

/-- Rounding to an integer, ties to even: no integer is nearer, and of two equally near the even one is taken. -/
theorem nearest_int {n e : Nat} (he : 0 < e) :
    let m := n / e
    let up := if e < 2 * (n % e) ∨ (2 * (n % e) = e ∧ m % 2 = 1) then 1 else 0
    (∀ k : Int, |((m + up : Nat) : Int) * e - n| ≤ |k * e - n|) ∧
    (∀ k : Int, k ≠ ((m + up : Nat) : Int) → |k * e - n| = |((m + up : Nat) : Int) * e - n| → (m + up) % 2 = 0) := by
  intro m up
  have hdm : (e : Int) * m + (n % e : Nat) = n := by exact_mod_cast Nat.div_add_mod n e
  have hr : n % e < e := Nat.mod_lt _ he
  set r := n % e with hrdef
  have he' : (0 : Int) < e := by exact_mod_cast he
  have hr' : ((r : Nat) : Int) < e := by exact_mod_cast hr
  have hr0 : (0 : Int) ≤ (r : Int) := by positivity
  -- distance of any integer, seen from `m`
  have dist : ∀ k : Int, k * e - n = (k - m) * e - r := by intro k; linear_combination hdm
  have low : ∀ k : Int, k ≤ m → |k * e - n| = (m - k) * e + r := by
    intro k hk
    rw [dist k, abs_of_nonpos (by nlinarith)]; ring
  have high : ∀ k : Int, m + 1 ≤ k → |k * e - n| = (k - m) * e - r := by
    intro k hk
    rw [dist k, abs_of_nonneg (by nlinarith)]
  by_cases hup : e < 2 * r ∨ (2 * r = e ∧ m % 2 = 1)
  · have hu : up = 1 := if_pos hup
    have h1 : (e : Int) ≤ 2 * r := by rcases hup with h | h <;> omega
    have hm1 : ((m + up : Nat) : Int) = m + 1 := by rw [hu]; push_cast; ring
    rw [hm1]
    have hv := high (m + 1) le_rfl
    constructor
    · intro k
      rw [hv]
      rcases lt_or_ge (k : Int) (m + 1) with hk | hk
      · rw [low k (by omega)]; nlinarith
      · rw [high k hk]; nlinarith
    · intro k hk heq
      rw [hv] at heq
      rcases lt_or_ge (k : Int) (m + 1) with hk' | hk'
      · rw [low k (by omega)] at heq
        have h2 : ((m : Int) - k) * e ≥ 0 := by nlinarith
        have : 2 * r = e := by
          have : (2 * (r : Int)) ≤ e := by nlinarith
          omega
        rcases hup with h | h <;> omega
      · rw [high k hk'] at heq
        have : (k - (m + 1)) * (e : Int) = 0 := by nlinarith
        rcases mul_eq_zero.mp this with h | h <;> omega
  · have hu : up = 0 := if_neg hup
    have hm1 : ((m + up : Nat) : Int) = m := by rw [hu]; push_cast; ring
    push Not at hup
    have h1 : 2 * (r : Int) ≤ e := by omega
    rw [hm1]
    have hv := low m le_rfl
    constructor
    · intro k
      rw [hv]
      rcases lt_or_ge (k : Int) (m + 1) with hk | hk
      · rw [low k (by omega)]; nlinarith
      · rw [high k hk]; nlinarith
    · intro k hk heq
      rw [hv] at heq
      rcases lt_or_ge (k : Int) (m + 1) with hk' | hk'
      · rw [low k (by omega)] at heq
        have : (m - k) * (e : Int) = 0 := by nlinarith
        rcases mul_eq_zero.mp this with h | h <;> omega
      · rw [high k hk'] at heq
        have h3 : (e : Int) ≤ (k - m) * e := by nlinarith
        have h4 : 2 * r = e := by omega
        have := hup.2 h4
        rw [hu]
        omega

/-- A packed pattern with at least `s + 1` in its exponent field is a multiple of `2^s` units. -/
theorem magOf_multiple {Q s : Nat} (h : 2 ^ (23 + s) ≤ magOf Q) : ∃ k : Nat, magOf Q = k * 2 ^ s := by
  unfold magOf at *
  split
  · rename_i h0
    rw [if_pos h0] at h
    have h1 : Q % 2 ^ 23 < 2 ^ 23 := Nat.mod_lt _ (by norm_num)
    have h2 : 2 ^ 23 ≤ 2 ^ (23 + s) := Nat.pow_le_pow_right (by norm_num) (by omega)
    omega
  · rename_i h0
    rw [if_neg h0] at h
    have h1 : Q % 2 ^ 23 < 2 ^ 23 := Nat.mod_lt _ (by norm_num)
    have h2 : s ≤ Q / 2 ^ 23 - 1 := by
      by_contra hlt
      have h3 : (2 ^ 23 + Q % 2 ^ 23) * 2 ^ (Q / 2 ^ 23 - 1) < 2 ^ 24 * 2 ^ (Q / 2 ^ 23 - 1) :=
        Nat.mul_lt_mul_of_pos_right (by omega) (by positivity)
      have h4 : 2 ^ 24 * 2 ^ (Q / 2 ^ 23 - 1) ≤ 2 ^ (23 + s) := by
        rw [← pow_add]
        exact Nat.pow_le_pow_right (by norm_num) (by omega)
      omega
    refine ⟨(2 ^ 23 + Q % 2 ^ 23) * 2 ^ (Q / 2 ^ 23 - 1 - s), ?_⟩
    rw [mul_assoc, ← pow_add]
    congr 2
    omega

/-- The magnitude of the pattern built from an exponent `s` and a rounded significand. -/
theorem magOf_build {s m : Nat} (hm : m ≤ 2 ^ 24) (hs : s = 0 ∨ 2 ^ 23 ≤ m) : magOf (s * 2 ^ 23 + m) = m * 2 ^ s := by
  unfold magOf
  rcases Nat.lt_or_ge m (2 ^ 23) with h1 | h1
  · have : s = 0 := by omega
    subst this
    have e1 : (0 * 2 ^ 23 + m) / 2 ^ 23 = 0 := by omega
    rw [if_pos e1]
    have : (0 * 2 ^ 23 + m) % 2 ^ 23 = m := by omega
    omega
  · rcases Nat.lt_or_ge m (2 ^ 24) with h2 | h2
    · have e1 : (s * 2 ^ 23 + m) / 2 ^ 23 = s + 1 := by omega
      have e2 : (s * 2 ^ 23 + m) % 2 ^ 23 = m - 2 ^ 23 := by omega
      rw [e1, e2, if_neg (by omega), show s + 1 - 1 = s by omega, show 2 ^ 23 + (m - 2 ^ 23) = m by omega]
    · have e0 : m = 2 ^ 24 := by omega
      have e1 : (s * 2 ^ 23 + m) / 2 ^ 23 = s + 2 := by omega
      have e2 : (s * 2 ^ 23 + m) % 2 ^ 23 = 0 := by omega
      rw [e1, e2, if_neg (by omega), e0, show s + 2 - 1 = s + 1 by omega, pow_succ]
      ring

/-- The scale that `roundMag` takes: the significand has at most 24 bits, and exactly 24 unless the scale is 0. -/
theorem scale_facts {n d : Nat} :
    let s := Nat.log2 (n / d) - 23
    let m := n / (d * 2 ^ s)
    m < 2 ^ 24 ∧ (s = 0 ∨ 2 ^ 23 ≤ m) := by
  intro s m
  have hm : m = n / d / 2 ^ s := by simp only [m]; rw [Nat.div_div_eq_div_mul]
  rcases Nat.eq_zero_or_pos (n / d) with h0 | hpos
  · rw [hm, h0]
    refine ⟨by simp, Or.inl ?_⟩
    show Nat.log2 (n / d) - 23 = 0
    rw [h0, Nat.log2_zero]
  · have hne : n / d ≠ 0 := by omega
    have h1 : n / d < 2 ^ (Nat.log2 (n / d) + 1) := Nat.lt_log2_self
    have h2 : 2 ^ Nat.log2 (n / d) ≤ n / d := Nat.log2_self_le hne
    rw [hm]
    constructor
    · rw [Nat.div_lt_iff_lt_mul (by positivity), ← pow_add]
      exact lt_of_lt_of_le h1 (Nat.pow_le_pow_right (by norm_num) (by omega))
    · rcases Nat.lt_or_ge (Nat.log2 (n / d)) 23 with hl | hl
      · left; omega
      · right
        rw [Nat.le_div_iff_mul_le (by positivity), ← pow_add]
        exact le_trans (Nat.pow_le_pow_right (by norm_num) (by omega)) h2

/-- The overflow threshold, in units of 2^-149. -/
def overflowUnits : Nat := (2 ^ 25 - 1) * 2 ^ 252

/-- The specification of `roundMag`, on numerators over the denominator `d`. -/
theorem roundMag_spec {n d : Nat} (hd : 0 < d) :
    (n < overflowUnits * d → roundMag n d < infMag ∧
      (∀ Q, Q < infMag → |((magOf (roundMag n d) : Int)) * d - n| ≤ |(magOf Q : Int) * d - n|) ∧
      (∀ Q, Q < infMag → magOf Q ≠ magOf (roundMag n d) →
        |(magOf Q : Int) * d - n| = |((magOf (roundMag n d) : Int)) * d - n| → roundMag n d % 2 = 0)) ∧
    (overflowUnits * d ≤ n → roundMag n d = infMag) := by
  obtain ⟨hm24, hs⟩ := scale_facts (n := n) (d := d)
  have hnear := nearest_int (n := n) (e := d * 2 ^ (Nat.log2 (n / d) - 23)) (by positivity)
  set s := Nat.log2 (n / d) - 23 with hsdef
  set m := n / (d * 2 ^ s) with hmdef
  set up := if d * 2 ^ s < 2 * (n % (d * 2 ^ s)) ∨ (2 * (n % (d * 2 ^ s)) = d * 2 ^ s ∧ m % 2 = 1) then 1 else 0
    with hup
  have hR : roundMag n d = min (s * 2 ^ 23 + (m + up)) infMag := rfl
  have hup1 : up ≤ 1 := by rw [hup]; split <;> omega
  obtain ⟨hnear1, hnear2⟩ := hnear
  have hm1 : m * (d * 2 ^ s) ≤ n := Nat.div_mul_le_self _ _
  have hm2 : n < (m + 1) * (d * 2 ^ s) := by
    rw [mul_comm]; exact Nat.lt_mul_div_succ n (by positivity)
  have hT : overflowUnits = (2 ^ 25 - 1) * 2 ^ 252 := rfl
  have hinf : infMag = 255 * 2 ^ 23 := by unfold infMag; norm_num
  constructor
  · intro hlt
    -- no overflow: the exponent stays below 254, and at 253 the significand does not round up to 2^24
    have hs253 : s ≤ 253 := by
      by_contra h
      have h1 : 2 ^ 23 ≤ m := by omega
      have h2 : 2 ^ 23 * (d * 2 ^ 254) ≤ n := by
        refine le_trans ?_ hm1
        exact Nat.mul_le_mul h1 (Nat.mul_le_mul_left d (Nat.pow_le_pow_right (by norm_num) (by omega)))
      rw [hT] at hlt
      have h3 : (2 ^ 25 - 1) * 2 ^ 252 * d ≤ 2 ^ 23 * (d * 2 ^ 254) := by
        have : 2 ^ 23 * (d * 2 ^ 254) = 2 ^ 25 * 2 ^ 252 * d := by ring
        rw [this]
        exact Nat.mul_le_mul_right d (Nat.mul_le_mul_right _ (by norm_num))
      omega
    have hP : s * 2 ^ 23 + (m + up) < infMag := by
      rw [hinf]
      rcases Nat.lt_or_ge s 253 with h | h
      · omega
      · have hs' : s = 253 := by omega
        have : m + up ≤ 2 ^ 24 - 1 := by
          by_contra hbig
          have hmm : m = 2 ^ 24 - 1 := by omega
          have hu : up = 1 := by omega
          have hcond : d * 2 ^ s ≤ 2 * (n % (d * 2 ^ s)) := by
            rw [hup] at hu
            split at hu
            · rename_i hc; omega
            · omega
          have hmod : n = (d * 2 ^ s) * m + n % (d * 2 ^ s) := (Nat.div_add_mod n (d * 2 ^ s)).symm
          rw [hT, hs', hmm] at *
          have e1 : d * 2 ^ 253 = 2 * (2 ^ 252 * d) := by ring
          rw [e1] at hmod hcond
          have e2 : (2 ^ 25 - 1) * 2 ^ 252 * d = (2 ^ 25 - 1) * (2 ^ 252 * d) := by ring
          rw [e2] at hlt
          generalize 2 ^ 252 * d = D at *
          generalize n % (2 * D) = r at *
          have : 2 * D * (2 ^ 24 - 1) = (2 ^ 25 - 2) * D := by ring
          omega
        omega
    have hRP : roundMag n d = s * 2 ^ 23 + (m + up) := by rw [hR]; exact min_eq_left hP.le
    have hmag : magOf (roundMag n d) = (m + up) * 2 ^ s := by
      rw [hRP]; exact magOf_build (by omega) (by omega)
    have hcast : ((magOf (roundMag n d) : Nat) : Int) * d = ((m + up : Nat) : Int) * (d * 2 ^ s : Nat) := by
      rw [hmag]; push_cast; ring
    have hbelow : ∀ Q, magOf Q < 2 ^ (23 + s) → s ≠ 0 →
        |((m + up : Nat) : Int) * (d * 2 ^ s : Nat) - n| < |(magOf Q : Int) * d - n| := by
      intro Q hQ hs0
      have h1 : 2 ^ 23 ≤ m := by omega
      have hk := hnear1 m
      have hmn : ((m : Int) * (d * 2 ^ s : Nat)) ≤ n := by exact_mod_cast hm1
      have hq1 : magOf Q * d < m * (d * 2 ^ s) := by
        calc magOf Q * d < 2 ^ (23 + s) * d := Nat.mul_lt_mul_of_pos_right hQ hd
          _ = 2 ^ 23 * (d * 2 ^ s) := by rw [pow_add]; ring
          _ ≤ m * (d * 2 ^ s) := Nat.mul_le_mul_right _ h1
      have hq2 : (magOf Q : Int) * d < m * (d * 2 ^ s : Nat) := by exact_mod_cast hq1
      refine lt_of_le_of_lt hk ?_
      rw [abs_of_nonpos (by omega), abs_of_nonpos (by omega)]
      omega
    refine ⟨by rw [hRP]; exact hP, ?_, ?_⟩
    · intro Q _
      rw [hcast]
      by_cases hQ : magOf Q < 2 ^ (23 + s) ∧ s ≠ 0
      · exact (hbelow Q hQ.1 hQ.2).le
      · have : ∃ k : Nat, magOf Q = k * 2 ^ s := by
          by_cases h0 : s = 0
          · exact ⟨magOf Q, by rw [h0]; ring⟩
          · exact magOf_multiple (by omega)
        obtain ⟨k, hk⟩ := this
        have := hnear1 k
        rw [hk]
        convert this using 2
        push_cast; ring
    · intro Q _ hne heq
      rw [hcast] at heq
      by_cases hQ : magOf Q < 2 ^ (23 + s) ∧ s ≠ 0
      · exact absurd heq (hbelow Q hQ.1 hQ.2).ne'
      · have : ∃ k : Nat, magOf Q = k * 2 ^ s := by
          by_cases h0 : s = 0
          · exact ⟨magOf Q, by rw [h0]; ring⟩
          · exact magOf_multiple (by omega)
        obtain ⟨k, hk⟩ := this
        have hkne : (k : Int) ≠ ((m + up : Nat) : Int) := by
          intro h
          apply hne
          rw [hmag, hk]
          congr 1
          exact_mod_cast h
        have := hnear2 k hkne (by
          rw [← heq, hk]
          congr 1
          push_cast; ring)
        rw [hRP]
        omega
  · intro hge
    have hP : infMag ≤ s * 2 ^ 23 + (m + up) := by
      rw [hinf]
      rcases Nat.lt_or_ge s 253 with h | h
      · exfalso
        have h1 : (m + 1) * (d * 2 ^ s) ≤ 2 ^ 24 * (d * 2 ^ 252) :=
          Nat.mul_le_mul (by omega) (Nat.mul_le_mul_left d (Nat.pow_le_pow_right (by norm_num) (by omega)))
        rw [hT] at hge
        have h2 : 2 ^ 24 * (d * 2 ^ 252) ≤ (2 ^ 25 - 1) * 2 ^ 252 * d := by
          have : 2 ^ 24 * (d * 2 ^ 252) = 2 ^ 24 * 2 ^ 252 * d := by ring
          rw [this]
          exact Nat.mul_le_mul_right d (Nat.mul_le_mul_right _ (by norm_num))
        omega
      · rcases Nat.eq_or_lt_of_le h with h' | h'
        · have hs' : s = 253 := h'.symm
          have hmod : n = (d * 2 ^ s) * m + n % (d * 2 ^ s) := (Nat.div_add_mod n (d * 2 ^ s)).symm
          have hrlt : n % (d * 2 ^ s) < d * 2 ^ s := Nat.mod_lt _ (by positivity)
          have hup' := hup
          rw [hT, hs'] at *
          have e1 : d * 2 ^ 253 = 2 * (2 ^ 252 * d) := by ring
          rw [e1] at hmod hrlt hup'
          have e2 : (2 ^ 25 - 1) * 2 ^ 252 * d = (2 ^ 25 - 1) * (2 ^ 252 * d) := by ring
          rw [e2] at hge
          have hDpos : 0 < 2 ^ 252 * d := by positivity
          generalize 2 ^ 252 * d = D at *
          generalize n % (2 * D) = r at *
          have hm' : 2 ^ 24 - 1 ≤ m := by
            by_contra hsmall
            have : 2 * D * m ≤ 2 * D * (2 ^ 24 - 2) := Nat.mul_le_mul_left _ (by omega)
            have : 2 * D * (2 ^ 24 - 2) = (2 ^ 25 - 4) * D := by ring
            omega
          have hmm : m = 2 ^ 24 - 1 := by omega
          have : 2 * D * m = (2 ^ 25 - 2) * D := by rw [hmm]; ring
          have hr : D ≤ r := by omega
          have hu : up = 1 := by
            rw [hup']
            apply if_pos
            omega
          omega
        · omega
    rw [hR]
    exact min_eq_right hP

/-! ### Rounding a signed number -/

theorem infMag_lt : infMag < 2 ^ 31 := by unfold infMag; norm_num

/-- The specification of `roundMag` on real numbers: `x = n / d` units. -/
theorem roundMag_real {n d : Nat} (hd : 0 < d) {x : ℝ} (hx : x = (n : ℝ) / d / 2 ^ 149) :
    (x < 2 ^ 128 - 2 ^ 103 → roundMag n d < infMag ∧
      (∀ Q, Q < infMag → |(magOf (roundMag n d) : ℝ) / 2 ^ 149 - x| ≤ |(magOf Q : ℝ) / 2 ^ 149 - x|) ∧
      (∀ Q, Q < infMag → magOf Q ≠ magOf (roundMag n d) →
        |(magOf Q : ℝ) / 2 ^ 149 - x| = |(magOf (roundMag n d) : ℝ) / 2 ^ 149 - x| → roundMag n d % 2 = 0)) ∧
    (2 ^ 128 - 2 ^ 103 ≤ x → roundMag n d = infMag) := by
  obtain ⟨h1, h2⟩ := roundMag_spec (n := n) hd
  have hd' : (0 : ℝ) < d := by exact_mod_cast hd
  have hdist : ∀ M : Nat, |(M : ℝ) / 2 ^ 149 - x| = ((|(M : Int) * d - n| : Int) : ℝ) / (d * 2 ^ 149) := by
    intro M
    rw [hx, show (M : ℝ) / 2 ^ 149 - (n : ℝ) / d / 2 ^ 149 = ((M : ℝ) * d - n) / (d * 2 ^ 149) by field_simp,
      abs_div, abs_of_pos (by positivity : (0 : ℝ) < d * 2 ^ 149)]
    push_cast
    rfl
  have hT : ((overflowUnits * d : Nat) : ℝ) = (2 ^ 128 - 2 ^ 103) * 2 ^ 149 * d := by
    unfold overflowUnits
    push_cast
    norm_num
  have hn : (n : ℝ) = x * 2 ^ 149 * d := by rw [hx]; field_simp
  constructor
  · intro hlt
    have : n < overflowUnits * d := by
      have : (n : ℝ) < ((overflowUnits * d : Nat) : ℝ) := by
        rw [hT, hn]
        have : (0 : ℝ) < 2 ^ 149 * d := by positivity
        nlinarith
      exact_mod_cast this
    obtain ⟨k1, k2, k3⟩ := h1 this
    refine ⟨k1, fun Q hQ => ?_, fun Q hQ hne heq => ?_⟩
    · rw [hdist, hdist]
      have := k2 Q hQ
      gcongr
    · rw [hdist, hdist, div_left_inj' (by positivity)] at heq
      exact k3 Q hQ hne (by exact_mod_cast heq)
  · intro hge
    apply h2
    have : ((overflowUnits * d : Nat) : ℝ) ≤ (n : ℝ) := by
      rw [hT, hn]
      have : (0 : ℝ) < 2 ^ 149 * d := by positivity
      nlinarith
    exact_mod_cast this

/-- A pattern packed from a rounded non-zero magnitude, with the sign of the number, is RN32 of that number. -/
theorem pack_roundMag_isRN32 {n d : Nat} (hd : 0 < d) (hn : 0 < n) (neg : Bool) {r : ℝ}
    (hr : r = (if neg then -1 else 1) * ((n : ℝ) / d / 2 ^ 149)) : IsRN32 r (pack neg (roundMag n d)) := by
  have hn' : (0 : ℝ) < n := by exact_mod_cast hn
  have hd' : (0 : ℝ) < d := by exact_mod_cast hd
  obtain ⟨h1, h2⟩ := roundMag_real hd (x := (n : ℝ) / d / 2 ^ 149) rfl
  set x := (n : ℝ) / d / 2 ^ 149 with hxdef
  have hx : 0 < x := by positivity
  have hneg : r < 0 ↔ neg = true := by rw [hr]; cases neg <;> simp <;> linarith
  have habs : |r| = x := by rw [hr]; cases neg <;> simp [abs_of_pos hx]
  have hT : (0 : ℝ) < 2 ^ 128 - 2 ^ 103 := by norm_num
  refine ⟨?_, ?_, ?_, ?_⟩
  · intro h0; rw [h0] at habs; simp at habs; linarith
  · intro hge
    have hnf : neg = false := by
      cases hb : neg
      · rfl
      · have := hneg.mpr hb; linarith
    have : r = x := by rw [hr, hnf]; simp
    rw [h2 (by linarith), hnf]
    decide
  · intro hle
    have hnt : neg = true := hneg.mp (by linarith)
    have : r = -x := by rw [hr, hnt]; simp
    rw [h2 (by linarith), hnt]
    decide
  · intro _ hlt
    rw [habs] at hlt
    obtain ⟨k1, k2, k3⟩ := h1 hlt
    have k1' := lt_trans k1 infMag_lt
    have hlow : low (pack neg (roundMag n d)) = roundMag n d := by
      unfold low; rw [pack_toNat _ k1']; cases neg <;> simp <;> omega
    have hv : real (pack neg (roundMag n d)) = (if neg then -1 else 1) * (magOf (roundMag n d) : ℝ) / 2 ^ 149 := by
      rw [real_eq, pack_sign _ k1', hlow]
    have hvd : |real (pack neg (roundMag n d)) - r| = |(magOf (roundMag n d) : ℝ) / 2 ^ 149 - x| := by
      rw [hv, hr]
      cases neg
      · simp
      · simp only [if_true]
        rw [← abs_neg]; congr 1; ring
    have h00 : (magOf 0 : ℝ) / 2 ^ 149 - x = -x := by simp [magOf]
    have h0d := k2 0 (by unfold infMag; norm_num)
    rw [h00, abs_neg, abs_of_pos hx] at h0d
    -- the distance of any finite pattern is that of its magnitude, or, with the other sign, at least `x`
    have hw : ∀ w : F32, isFinite w = true →
        |real w - r| = |(magOf (low w) : ℝ) / 2 ^ 149 - x| ∨
        |real w - r| = (magOf (low w) : ℝ) / 2 ^ 149 + x := by
      intro w _
      have hM : (0 : ℝ) ≤ (magOf (low w) : ℝ) / 2 ^ 149 := by positivity
      rw [real_eq, hr]
      cases sign w <;> cases neg <;> simp only [if_true, Bool.false_eq_true, if_false]
      · left; simp
      · right; rw [abs_of_nonneg (by linarith)]; ring
      · right
        rw [abs_of_nonpos (by linarith)]; ring
      · left; rw [← abs_neg]; congr 1; ring
    refine ⟨pack_isFinite _ k1, by rw [pack_sign _ k1', hneg], ?_, ?_⟩
    · intro w hwf
      rw [hvd]
      rcases hw w hwf with h | h
      · rw [h]; exact k2 _ (low_lt_of_finite hwf)
      · rw [h]
        have hM : (0 : ℝ) ≤ (magOf (low w) : ℝ) / 2 ^ 149 := by positivity
        linarith
    · intro w hwf hne heq
      rw [hvd] at heq
      have heven : roundMag n d % 2 = 0 := by
        rcases hw w hwf with h | h
        · rw [h] at heq
          refine k3 _ (low_lt_of_finite hwf) ?_ heq
          intro hm
          rcases Bool.eq_false_or_eq_true (sign w) with hs | hs <;> rcases Bool.eq_false_or_eq_true neg with hb | hb
          · apply hne; rw [real_eq, hv, hm, hs, hb]
          · have hM : (magOf (low w) : ℝ) = 0 := by
              have hM0 : (0 : ℝ) ≤ (magOf (low w) : ℝ) / 2 ^ 149 := by positivity
              rw [real_eq, hr, hs, hb] at h
              simp only [if_true, Bool.false_eq_true, if_false] at h
              rw [abs_of_nonpos (by linarith)] at h
              rcases abs_cases ((magOf (low w) : ℝ) / 2 ^ 149 - x) with hc | hc
              · exfalso; rw [hc.1] at h; linarith
              · rw [hc.1] at h
                have : (magOf (low w) : ℝ) / 2 ^ 149 = 0 := by linarith
                rcases div_eq_zero_iff.mp this with h' | h'
                · exact h'
                · exfalso; revert h'; norm_num
            apply hne; rw [real_eq, hv, ← hm, hM]; simp
          · have hM : (magOf (low w) : ℝ) = 0 := by
              have hM0 : (0 : ℝ) ≤ (magOf (low w) : ℝ) / 2 ^ 149 := by positivity
              rw [real_eq, hr, hs, hb] at h
              simp only [if_true, Bool.false_eq_true, if_false] at h
              rw [abs_of_nonneg (by linarith)] at h
              rcases abs_cases ((magOf (low w) : ℝ) / 2 ^ 149 - x) with hc | hc
              · exfalso; rw [hc.1] at h; linarith
              · rw [hc.1] at h
                have : (magOf (low w) : ℝ) / 2 ^ 149 = 0 := by linarith
                rcases div_eq_zero_iff.mp this with h' | h'
                · exact h'
                · exfalso; revert h'; norm_num
            apply hne; rw [real_eq, hv, ← hm, hM]; simp
          · apply hne; rw [real_eq, hv, hm, hs, hb]
        · rw [h] at heq
          have hM : (0 : ℝ) ≤ (magOf (low w) : ℝ) / 2 ^ 149 := by positivity
          have hM0 : (magOf (low w) : ℝ) / 2 ^ 149 = 0 := by linarith
          by_cases hz : magOf (roundMag n d) = 0
          · exfalso; apply hne
            rw [real_eq, hv, hz]
            have : (magOf (low w) : ℝ) = 0 := by
              rcases div_eq_zero_iff.mp hM0 with h' | h'
              · exact h'
              · exfalso; revert h'; norm_num
            rw [this]; simp
          · refine k3 0 (by unfold infMag; norm_num) (by simpa [magOf] using Ne.symm hz) ?_
            rw [h00, abs_neg, abs_of_pos hx]
            linarith
      rw [pack_toNat _ k1']
      cases neg <;> simp <;> omega

/-- `round` is RN32 (00_scope.md R10). -/
theorem round_isRN32 (t : Int) {d : Nat} (hd : 0 < d) : IsRN32 ((t : ℝ) / d / 2 ^ 149) (round t d) := by
  rcases eq_or_ne t 0 with rfl | ht
  · have h0 : roundMag 0 d = 0 := by simp [roundMag]
    have hT : (0 : ℝ) < 2 ^ 128 - 2 ^ 103 := by norm_num
    refine ⟨fun _ => ?_, fun h => ?_, fun h => ?_, fun h => ?_⟩
    · unfold round; simp only [Int.natAbs_zero, h0]; rfl
    · exfalso; simp at h; linarith
    · exfalso; simp at h; linarith
    · exfalso; simp at h
  · unfold round
    refine pack_roundMag_isRN32 hd (by omega) _ ?_
    rcases lt_or_gt_of_ne ht with h | h
    · have : ((t.natAbs : Nat) : ℝ) = -(t : ℝ) := by
        rw [Nat.cast_natAbs, abs_of_neg h]; push_cast; ring
      simp only [h, decide_true, if_true]
      rw [this]; ring
    · have : ((t.natAbs : Nat) : ℝ) = (t : ℝ) := by
        rw [Nat.cast_natAbs, abs_of_pos h]
      have hnt : ¬ t < 0 := by omega
      simp only [hnt, decide_false, Bool.false_eq_true, if_false]
      rw [this]; ring

/-- Of two numbers, the lower is the nearer to `r` exactly when their middle is not below `r`. -/
theorem near_lower_iff {u w r : ℝ} (h : u < w) : |u - r| ≤ |w - r| ↔ 2 * r ≤ u + w := by
  rw [← sq_le_sq]
  constructor <;> intro h' <;> nlinarith

theorem near_upper_iff {u w r : ℝ} (h : w < u) : |u - r| ≤ |w - r| ↔ u + w ≤ 2 * r := by
  rw [← sq_le_sq]
  constructor <;> intro h' <;> nlinarith

theorem mid_of_abs_eq {u w r : ℝ} (hne : u ≠ w) (h : |u - r| = |w - r|) : u + w = 2 * r := by
  rcases abs_eq_abs.mp h with h | h
  · exact absurd (by linarith) hne
  · linarith

/-- Where one pattern is RN32 of both ends of an interval, it is RN32 of every number in it. -/
theorem IsRN32.between {a b r : ℝ} {v : F32} (ha : IsRN32 a v) (hb : IsRN32 b v) (h1 : a ≤ r) (h2 : r ≤ b) :
    IsRN32 r v := by
  obtain ⟨a0, a1, a2, a3⟩ := ha
  obtain ⟨b0, b1, b2, b3⟩ := hb
  have hT : (0 : ℝ) < 2 ^ 128 - 2 ^ 103 := by norm_num
  have finInf : isFinite (0x7F800000#32) = false := by decide
  have finNinf : isFinite (0xFF800000#32) = false := by decide
  have fin0 : isFinite (0x00000000#32) = true := by decide
  have sign0 : sign (0x00000000#32) = false := by decide
  have real0 : real (0x00000000#32) = 0 := by rw [real_eq]; simp [low, magOf]
  -- the class of an end, from the pattern
  have classA : a = 0 ∨ 2 ^ 128 - 2 ^ 103 ≤ a ∨ a ≤ -(2 ^ 128 - 2 ^ 103) ∨ (a ≠ 0 ∧ |a| < 2 ^ 128 - 2 ^ 103) := by
    by_cases h0 : a = 0
    · exact Or.inl h0
    · rcases lt_or_ge |a| (2 ^ 128 - 2 ^ 103) with h | h
      · exact Or.inr (Or.inr (Or.inr ⟨h0, h⟩))
      · rcases le_abs.mp h with h | h
        · exact Or.inr (Or.inl h)
        · exact Or.inr (Or.inr (Or.inl (by linarith)))
  have classB : b = 0 ∨ 2 ^ 128 - 2 ^ 103 ≤ b ∨ b ≤ -(2 ^ 128 - 2 ^ 103) ∨ (b ≠ 0 ∧ |b| < 2 ^ 128 - 2 ^ 103) := by
    by_cases h0 : b = 0
    · exact Or.inl h0
    · rcases lt_or_ge |b| (2 ^ 128 - 2 ^ 103) with h | h
      · exact Or.inr (Or.inr (Or.inr ⟨h0, h⟩))
      · rcases le_abs.mp h with h | h
        · exact Or.inr (Or.inl h)
        · exact Or.inr (Or.inr (Or.inl (by linarith)))
  rcases classA with ha | ha | ha | ⟨ha0, halt⟩
  · -- a = 0
    have hv := a0 ha
    rcases classB with hb | hb | hb | ⟨hb0, hblt⟩
    · have : r = 0 := by linarith
      rw [this, ← ha]; exact ⟨a0, a1, a2, a3⟩
    · have := b1 hb; rw [hv] at this; exact absurd this (by decide)
    · exfalso; linarith
    · obtain ⟨c1, c2, c3, c4⟩ := b3 hb0 hblt
      have hbpos : 0 < b := lt_of_le_of_ne (by linarith) (Ne.symm hb0)
      rw [abs_of_pos hbpos] at hblt
      refine ⟨fun _ => hv, fun h => by exfalso; linarith, fun h => by exfalso; linarith, fun hr0 _ => ?_⟩
      refine ⟨c1, ?_, ?_, ?_⟩
      · rw [hv, sign0]; constructor
        · intro h; cases h
        · intro h; exfalso; linarith
      · intro w hw
        have hw' := c3 w hw
        rw [hv, real0] at hw' ⊢
        rcases lt_trichotomy (real w) 0 with h | h | h
        · rw [near_upper_iff h]; linarith
        · rw [h]
        · rw [near_lower_iff h] at hw' ⊢; linarith
      · intro w hw hne heq
        rw [hv]; decide
  · -- a above the threshold
    have : 2 ^ 128 - 2 ^ 103 ≤ r := by linarith
    exact ⟨fun h => by exfalso; linarith, fun _ => a1 ha, fun h => by exfalso; linarith,
      fun _ h => by exfalso; rw [abs_of_pos (by linarith)] at h; linarith⟩
  · -- a below the negative threshold
    have hv := a2 ha
    rcases classB with hb | hb | hb | ⟨hb0, hblt⟩
    · have := b0 hb; rw [hv] at this; exact absurd this (by decide)
    · have := b1 hb; rw [hv] at this; exact absurd this (by decide)
    · exact ⟨fun h => by exfalso; linarith, fun h => by exfalso; linarith, fun _ => hv,
        fun _ h => by exfalso; rw [abs_of_neg (by linarith)] at h; linarith⟩
    · have := (b3 hb0 hblt).1; rw [hv, finNinf] at this; cases this
  · obtain ⟨c1, c2, c3, c4⟩ := a3 ha0 halt
    rcases classB with hb | hb | hb | ⟨hb0, hblt⟩
    · -- b = 0 and a < 0: the signs differ
      have hv := b0 hb
      have : a < 0 := lt_of_le_of_ne (by linarith) ha0
      have := c2.mpr this
      rw [hv, sign0] at this; cases this
    · have := b1 hb; rw [this, finInf] at c1; cases c1
    · have := b2 hb; rw [this, finNinf] at c1; cases c1
    · obtain ⟨d1, d2, d3, d4⟩ := b3 hb0 hblt
      have hsame : (a < 0 ↔ b < 0) := by rw [← c2, ← d2]
      have hr0 : r ≠ 0 := by
        rcases lt_or_gt_of_ne ha0 with h | h
        · have := hsame.mp h; intro h'; linarith
        · intro h'; linarith
      have hrneg : (r < 0 ↔ a < 0) := by
        constructor
        · intro h; linarith
        · intro h; have := hsame.mp h; linarith
      have habs := abs_lt.mp halt
      have hbbs := abs_lt.mp hblt
      refine ⟨fun h => absurd h hr0, fun h => by exfalso; linarith, fun h => by exfalso; linarith, fun _ _ => ?_⟩
      refine ⟨c1, by rw [c2, hrneg], ?_, ?_⟩
      · intro w hw
        have e1 := c3 w hw
        have e2 := d3 w hw
        rcases lt_trichotomy (real v) (real w) with h | h | h
        · rw [near_lower_iff h] at e2 ⊢; linarith
        · rw [h]
        · rw [near_upper_iff h] at e1 ⊢; linarith
      · intro w hw hne heq
        have e1 := c3 w hw
        have e2 := d3 w hw
        rcases lt_or_gt_of_ne hne with h | h
        · have hmid : real w + real v = 2 * r := by
            exact mid_of_abs_eq hne heq
          have hra : r = a := by
            rw [near_upper_iff h] at e1
            linarith
          refine c4 w hw hne ?_
          rw [← hra]; exact heq
        · have hmid : real w + real v = 2 * r := by
            exact mid_of_abs_eq hne heq
          have hrb : r = b := by
            rw [near_lower_iff h] at e2
            linarith
          refine d4 w hw hne ?_
          rw [← hrb]; exact heq

end Sys2Proof.F32
end

