-- ==== Sys2Proof/Laws/Settle.lean ====
section
/-! SUPPORT. RN32 has one value; it commutes with a change of sign and with doubling; and a settled enclosure is the
correctly rounded section. -/

namespace Sys2Proof.F32

/-! ### The patterns of one sign are in the order of their values -/

theorem magOf_lt_succ (m : Nat) : magOf m < magOf (m + 1) := by
  unfold magOf
  rcases Nat.lt_or_ge (m % 2 ^ 23 + 1) (2 ^ 23) with h | h
  · have h1 : (m + 1) / 2 ^ 23 = m / 2 ^ 23 := by omega
    have h2 : (m + 1) % 2 ^ 23 = m % 2 ^ 23 + 1 := by omega
    rw [h1, h2]
    split
    · omega
    · exact Nat.mul_lt_mul_of_pos_right (by omega) (by positivity)
  · have h1 : (m + 1) / 2 ^ 23 = m / 2 ^ 23 + 1 := by omega
    have h2 : (m + 1) % 2 ^ 23 = 0 := by omega
    have h3 : m % 2 ^ 23 = 2 ^ 23 - 1 := by omega
    rw [h1, h2, h3, if_neg (Nat.succ_ne_zero _), Nat.add_sub_cancel]
    split
    · rename_i h0; rw [h0]; norm_num
    · rename_i h0
      obtain ⟨e, he⟩ : ∃ e, m / 2 ^ 23 = e + 1 := ⟨m / 2 ^ 23 - 1, by omega⟩
      rw [he, Nat.add_sub_cancel, pow_succ 2 e]
      have : 0 < 2 ^ e := by positivity
      omega

theorem magOf_lt {m n : Nat} (h : m < n) : magOf m < magOf n := by
  induction n with
  | zero => omega
  | succ n ih =>
    rcases Nat.lt_or_ge m n with h' | h'
    · exact (ih h').trans (magOf_lt_succ n)
    · have : m = n := by omega
      rw [this]; exact magOf_lt_succ n

theorem magOf_inj {m n : Nat} (h : magOf m = magOf n) : m = n := by
  rcases Nat.lt_trichotomy m n with h' | h' | h'
  · exact absurd h (magOf_lt h').ne
  · exact h'
  · exact absurd h (magOf_lt h').ne'

/-- Two patterns of one sign with one value are one pattern. -/
theorem eq_of_real_eq {v w : F32} (hs : sign v = sign w) (h : real v = real w) : v = w := by
  rw [real_eq, real_eq, hs] at h
  have : magOf (low v) = magOf (low w) := by
    have h2 : (0 : ℝ) < 2 ^ 149 := by norm_num
    rw [div_left_inj' h2.ne'] at h
    cases hw : sign w <;> rw [hw] at h <;> simp at h <;> exact h
  rw [eq_pack v, eq_pack w, hs, magOf_inj this]

theorem toNat_mod_two (v : F32) : v.toNat % 2 = low v % 2 := by unfold low; omega

theorem isFinite_of_low_lt {v : F32} (h : low v < infMag) : isFinite v = true := by
  rw [eq_pack v]; exact pack_isFinite _ h

theorem low_pack (neg : Bool) {m : Nat} (h : m < 2 ^ 31) : low (pack neg m) = m := by
  unfold low
  rw [pack_toNat neg h]
  cases neg <;> simp <;> omega

theorem real_pack (neg : Bool) {m : Nat} (h : m < 2 ^ 31) :
    real (pack neg m) = (if neg then -1 else 1) * (magOf m : ℝ) / 2 ^ 149 := by
  rw [real_eq, pack_sign neg h, low_pack neg h]

/-- Between two patterns of one sign that are both even lies another finite pattern, so both cannot be nearest. -/
theorem not_both_nearest {r : ℝ} {v w : F32} (hs : sign v = sign w) (hw : isFinite w = true)
    (hlt : low v + 1 < low w) (hmid : real v + real w = 2 * r)
    (hv : ∀ z : F32, isFinite z = true → |real v - r| ≤ |real z - r|) : False := by
  have hwl := low_lt_of_finite hw
  have hz : low v + 1 < 2 ^ 31 := by have := infMag_lt; omega
  have hzf : isFinite (pack (sign v) (low v + 1)) = true := pack_isFinite _ (by omega)
  have h1 := hv _ hzf
  have ev := real_eq v
  have ew := real_eq w
  have ez := real_pack (sign v) hz
  rw [← hs] at ew
  have m1 : (magOf (low v) : ℝ) < magOf (low v + 1) := by exact_mod_cast magOf_lt (by omega)
  have m2 : (magOf (low v + 1) : ℝ) < magOf (low w) := by exact_mod_cast magOf_lt hlt
  have d : (0 : ℝ) < 2 ^ 149 := by norm_num
  cases hsv : sign v <;> rw [hsv] at ev ew ez
  · have h2 : real v < real (pack (sign v) (low v + 1)) := by
      rw [hsv, ev, ez]; simp; exact div_lt_div_of_pos_right m1 d
    have h3 : real (pack (sign v) (low v + 1)) < real w := by
      rw [hsv, ew, ez]; simp; exact div_lt_div_of_pos_right m2 d
    rw [near_lower_iff h2] at h1
    linarith
  · have h2 : real (pack (sign v) (low v + 1)) < real v := by
      rw [hsv, ev, ez]; simp; exact div_lt_div_of_pos_right (by linarith) d
    have h3 : real w < real (pack (sign v) (low v + 1)) := by
      rw [hsv, ew, ez]; simp; exact div_lt_div_of_pos_right (by linarith) d
    rw [near_upper_iff h2] at h1
    linarith

/-- RN32 has one value. -/
theorem IsRN32.unique {r : ℝ} {v w : F32} (hv : IsRN32 r v) (hw : IsRN32 r w) : v = w := by
  obtain ⟨v0, v1, v2, v3⟩ := hv
  obtain ⟨w0, w1, w2, w3⟩ := hw
  by_cases h0 : r = 0
  · rw [v0 h0, w0 h0]
  rcases lt_or_ge |r| (2 ^ 128 - 2 ^ 103) with h | h
  · obtain ⟨a1, a2, a3, a4⟩ := v3 h0 h
    obtain ⟨b1, b2, b3, b4⟩ := w3 h0 h
    have hs : sign v = sign w := by
      by_cases hr : r < 0
      · rw [a2.mpr hr, b2.mpr hr]
      · have hvs : sign v = false := by
          rw [← Bool.not_eq_true]; exact fun hh => hr (a2.mp hh)
        have hws : sign w = false := by
          rw [← Bool.not_eq_true]; exact fun hh => hr (b2.mp hh)
        rw [hvs, hws]
    have hd : |real v - r| = |real w - r| := le_antisymm (a3 w b1) (b3 v a1)
    by_cases he : real v = real w
    · exact eq_of_real_eq hs he
    · exfalso
      have ev := a4 w b1 (Ne.symm he) hd.symm
      have ew := b4 v a1 he hd
      rw [toNat_mod_two] at ev ew
      have hne : low v ≠ low w := by
        intro hl; apply he; rw [real_eq, real_eq, hs, hl]
      have hmid := mid_of_abs_eq he hd
      rcases Nat.lt_or_gt_of_ne hne with hl | hl
      · exact not_both_nearest hs b1 (by omega) hmid a3
      · exact not_both_nearest hs.symm a1 (by omega) (by linarith) b3
  · rcases le_abs.mp h with h | h
    · rw [v1 h, w1 h]
    · rw [v2 (by linarith), w2 (by linarith)]

/-! ### A change of sign -/

theorem neg_eq_pack (v : F32) : neg v = pack (!sign v) (low v) := by
  apply BitVec.eq_of_toNat_eq
  rw [pack_toNat _ (low_lt v)]
  unfold neg sign low
  have hv := v.isLt
  have : (v ^^^ 0x80000000#32).toNat = if 2 ^ 31 ≤ v.toNat then v.toNat - 2 ^ 31 else v.toNat + 2 ^ 31 := by
    rw [BitVec.toNat_xor]
    split
    · rename_i h
      obtain ⟨m, hm⟩ : ∃ m, v.toNat = 2 ^ 31 + m := ⟨v.toNat - 2 ^ 31, by omega⟩
      have hm' : m < 2 ^ 31 := by omega
      have e := Nat.two_pow_add_eq_or_of_lt hm' 1
      rw [Nat.mul_one] at e
      rw [hm, Nat.add_sub_cancel_left, show (0x80000000#32).toNat = 2 ^ 31 by decide, e]
      apply Nat.eq_of_testBit_eq
      intro i
      simp only [Nat.testBit_xor, Nat.testBit_or]
      by_cases hi : i = 31
      · subst hi; simp [Nat.testBit_lt_two_pow hm']
      · have : (2 ^ 31).testBit i = false := by rw [Nat.testBit_two_pow]; simp; omega
        rw [this]; simp
    · rename_i h
      have hm' : v.toNat < 2 ^ 31 := by omega
      have e := Nat.two_pow_add_eq_or_of_lt hm' 1
      rw [Nat.mul_one] at e
      rw [show (0x80000000#32).toNat = 2 ^ 31 by decide, Nat.add_comm, e]
      apply Nat.eq_of_testBit_eq
      intro i
      simp only [Nat.testBit_xor, Nat.testBit_or]
      by_cases hi : i = 31
      · subst hi; simp [Nat.testBit_lt_two_pow hm']
      · have : (2 ^ 31).testBit i = false := by rw [Nat.testBit_two_pow]; simp; omega
        rw [this]; simp
  rw [this]
  split <;> simp_all <;> omega

theorem low_neg (v : F32) : low (neg v) = low v := by rw [neg_eq_pack, low_pack _ (low_lt v)]

theorem sign_neg (v : F32) : sign (neg v) = !sign v := by rw [neg_eq_pack, pack_sign _ (low_lt v)]

theorem neg_twice (v : F32) : neg (neg v) = v := by
  rw [neg_eq_pack (neg v), low_neg, sign_neg, Bool.not_not, ← eq_pack]

theorem real_neg (v : F32) : real (neg v) = -real v := by
  rw [real_eq, real_eq, low_neg, sign_neg]
  cases sign v <;> simp <;> ring

theorem units_neg (v : F32) : units (neg v) = -units v := by
  have h := real_neg v
  unfold real at h
  have h2 : (0 : ℝ) < 2 ^ 149 := by norm_num
  rw [← neg_div, div_left_inj' h2.ne'] at h
  exact_mod_cast h

theorem isFinite_neg (v : F32) : isFinite (neg v) = isFinite v := by
  unfold isFinite
  rw [neg_eq_pack, pack_expField _ (low_lt v)]
  conv_rhs => rw [eq_pack v, pack_expField _ (low_lt v)]

/-- RN32 of a number with its sign changed. -/
theorem IsRN32.neg {r : ℝ} {v : F32} (h : IsRN32 r v) (hr : r ≠ 0) : IsRN32 (-r) (neg v) := by
  obtain ⟨_, h1, h2, h3⟩ := h
  refine ⟨fun h => absurd (by linarith) hr, fun h => ?_, fun h => ?_, fun _ ha => ?_⟩
  · rw [h2 (by linarith)]; decide
  · rw [h1 (by linarith)]; decide
  · rw [abs_neg] at ha
    obtain ⟨a1, a2, a3, a4⟩ := h3 hr ha
    have e : ∀ w : F32, |real w - -r| = |real (F32.neg w) - r| := by
      intro w; rw [real_neg, ← abs_neg]; congr 1; ring
    refine ⟨by rw [isFinite_neg]; exact a1, ?_, fun w hw => ?_, fun w hw hne heq => ?_⟩
    · rw [sign_neg]
      have hlt : r < 0 ∨ 0 < r := lt_or_gt_of_ne hr
      constructor
      · intro hs
        rcases hlt with h | h
        · rw [a2.mpr h] at hs; cases hs
        · linarith
      · intro hs
        have : ¬ r < 0 := by linarith
        have : sign v ≠ true := fun hh => this (a2.mp hh)
        simpa using this
    · rw [e, e, neg_twice]
      exact a3 _ (by rw [isFinite_neg]; exact hw)
    · rw [toNat_mod_two, low_neg, ← toNat_mod_two]
      refine a4 (F32.neg w) (by rw [isFinite_neg]; exact hw) ?_ ?_
      · intro hh; apply hne; rw [real_neg, ← hh, real_neg, neg_neg]
      · rw [e, e, neg_twice] at heq; exact heq

/-! ### Doubling -/

theorem magOf_double {m : Nat} (h : 2 ^ 23 ≤ m) : magOf (m + 2 ^ 23) = 2 * magOf m := by
  unfold magOf
  have h1 : (m + 2 ^ 23) / 2 ^ 23 = m / 2 ^ 23 + 1 := by omega
  have h2 : (m + 2 ^ 23) % 2 ^ 23 = m % 2 ^ 23 := by omega
  obtain ⟨e, he⟩ : ∃ e, m / 2 ^ 23 = e + 1 := ⟨m / 2 ^ 23 - 1, by omega⟩
  rw [h1, h2, he, if_neg (by omega), if_neg (by omega), Nat.add_sub_cancel, Nat.add_sub_cancel, pow_succ]
  ring

theorem magOf_min : magOf (2 ^ 23) = 2 ^ 23 := by unfold magOf; norm_num

/-- RN32 of twice a number, where the number rounds to a pattern above the smallest normal one and twice it stays
far from overflow. -/
theorem IsRN32.double {r : ℝ} {v w : F32} (hv : IsRN32 r v) (hw : IsRN32 (2 * r) w) (hr : 0 < r) (hb : r ≤ 2 ^ 126)
    (hn : 2 ^ 23 < units v) : units w = 2 * units v := by
  have d : (0 : ℝ) < 2 ^ 149 := by norm_num
  have hT : |r| < 2 ^ 128 - 2 ^ 103 := by rw [abs_of_pos hr]; linarith [show (2 : ℝ) ^ 126 < 2 ^ 128 - 2 ^ 103 by norm_num]
  obtain ⟨a1, a2, a3, a4⟩ := hv.2.2.2 hr.ne' hT
  have hs : sign v = false := by
    rw [← Bool.not_eq_true]; exact fun h => absurd (a2.mp h) (by linarith)
  have hu : units v = (magOf (low v) : Int) := by unfold units; rw [hs, mag_eq_magOf]; simp
  have ev : real v = (magOf (low v) : ℝ) / 2 ^ 149 := by rw [real_eq, hs]; simp
  have hmv : 2 ^ 23 < magOf (low v) := by rw [hu] at hn; exact_mod_cast hn
  have hlv : 2 ^ 23 < low v := by
    by_contra h
    rcases Nat.lt_or_eq_of_le (Nat.le_of_not_lt h) with h | h
    · have := magOf_lt h; rw [magOf_min] at this; omega
    · rw [h, magOf_min] at hmv; omega
  -- the smallest normal number, and 2^126
  have emin : real (pack false (2 ^ 23)) = 2 ^ 23 / 2 ^ 149 := by
    rw [real_pack _ (by norm_num), magOf_min]; norm_num
  have fmin : isFinite (pack false (2 ^ 23)) = true := pack_isFinite _ (by unfold infMag; norm_num)
  have emax : real (pack false (253 * 2 ^ 23)) = 2 ^ 126 := by
    rw [real_pack _ (by norm_num), show magOf (253 * 2 ^ 23) = 2 ^ 23 * 2 ^ 252 by unfold magOf; norm_num]; norm_num
  have fmax : isFinite (pack false (253 * 2 ^ 23)) = true := pack_isFinite _ (by unfold infMag; norm_num)
  have hvmin : real (pack false (2 ^ 23)) < real v := by
    rw [emin, ev]; exact div_lt_div_of_pos_right (by exact_mod_cast hmv) d
  have hrmin : real (pack false (2 ^ 23)) < r := by
    have := a3 _ fmin
    rw [near_upper_iff hvmin] at this
    linarith
  have hvmax : real v ≤ 2 ^ 126 := by
    by_contra h
    have h := lt_of_not_ge h
    have := a3 _ fmax
    rw [emax, near_upper_iff h] at this
    linarith
  have hlow : low v + 2 ^ 23 < infMag := by
    have h1 : magOf (low v) < magOf (253 * 2 ^ 23 + 1) := by
      refine lt_of_le_of_lt ?_ (magOf_lt_succ _)
      have : (magOf (low v) : ℝ) ≤ (magOf (253 * 2 ^ 23) : ℝ) := by
        rw [ev, div_le_iff₀ d] at hvmax
        rw [show magOf (253 * 2 ^ 23) = 2 ^ 23 * 2 ^ 252 by unfold magOf; norm_num]
        push_cast
        linarith [show (2 : ℝ) ^ 126 * 2 ^ 149 = 2 ^ 23 * 2 ^ 252 by norm_num]
      exact_mod_cast this
    have h2 : low v < 253 * 2 ^ 23 + 1 := by
      by_contra h
      rcases Nat.lt_or_eq_of_le (Nat.le_of_not_lt h) with h | h
      · have := magOf_lt h; omega
      · rw [← h] at h1; omega
    unfold infMag; omega
  have hlow31 : low v + 2 ^ 23 < 2 ^ 31 := hlow.trans infMag_lt
  have hdbl : real (pack false (low v + 2 ^ 23)) = 2 * real v := by
    rw [real_pack _ hlow31, magOf_double hlv.le, ev]; push_cast; simp; ring
  -- any finite number is either no larger than twice the smallest normal one, or twice a finite number
  have half : ∀ x : F32, isFinite x = true → real x ≤ 2 * real (pack false (2 ^ 23)) ∨
      ∃ z : F32, isFinite z = true ∧ real x = 2 * real z := by
    intro x hx
    by_cases hle : real x ≤ 2 * real (pack false (2 ^ 23))
    · exact Or.inl hle
    right
    have hgt := lt_of_not_ge hle
    have hsx : sign x = false := by
      by_contra h
      have h : sign x = true := by simpa using h
      rw [real_eq x, h] at hgt
      have : (0 : ℝ) ≤ magOf (low x) / 2 ^ 149 := div_nonneg (Nat.cast_nonneg _) d.le
      have h3 : (0 : ℝ) < real (pack false (2 ^ 23)) := by rw [emin]; positivity
      simp only [if_true] at hgt
      have : (-1 : ℝ) * (magOf (low x)) / 2 ^ 149 = -(magOf (low x) / 2 ^ 149) := by ring
      rw [this] at hgt
      linarith
    have ex : real x = (magOf (low x) : ℝ) / 2 ^ 149 := by rw [real_eq, hsx]; simp
    have hm : 2 ^ 24 < magOf (low x) := by
      rw [ex, emin, ← mul_div_assoc, div_lt_div_iff_of_pos_right d] at hgt
      have : ((2 ^ 24 : Nat) : ℝ) < magOf (low x) := by push_cast; linarith
      exact_mod_cast this
    have hl : 2 ^ 24 < low x := by
      have e : magOf (2 ^ 24) = 2 ^ 24 := by unfold magOf; norm_num
      by_contra h
      rcases Nat.lt_or_eq_of_le (Nat.le_of_not_lt h) with h | h
      · have := magOf_lt h; omega
      · rw [h, e] at hm; omega
    have hxl := low_lt_of_finite hx
    have hz : low x - 2 ^ 23 < 2 ^ 31 := by have := infMag_lt; omega
    refine ⟨pack false (low x - 2 ^ 23), pack_isFinite _ (by omega), ?_⟩
    have := magOf_double (m := low x - 2 ^ 23) (by omega)
    rw [Nat.sub_add_cancel (by omega)] at this
    rw [real_pack _ hz, ex, this]; push_cast; simp; ring
  have e2 : ∀ y : ℝ, |2 * y - 2 * r| = 2 * |y - r| := by
    intro y; rw [← mul_sub, abs_mul, abs_of_pos (by norm_num : (0 : ℝ) < 2)]
  have hmin := a3 _ fmin
  -- the doubled pattern is RN32 of the doubled number
  have key : IsRN32 (2 * r) (pack false (low v + 2 ^ 23)) := by
    refine ⟨fun h => by exfalso; linarith, fun h => by exfalso; linarith [show (2 : ℝ) * 2 ^ 126 < 2 ^ 128 - 2 ^ 103 by norm_num],
      fun h => by exfalso; linarith [show (0 : ℝ) < 2 ^ 128 - 2 ^ 103 by norm_num], fun _ _ => ?_⟩
    refine ⟨pack_isFinite _ hlow, ?_, fun x hx => ?_, fun x hx hne heq => ?_⟩
    · rw [pack_sign _ hlow31]
      constructor
      · intro h; cases h
      · intro h; exfalso; linarith
    · rw [hdbl, e2]
      rcases half x hx with h | ⟨z, hz, h⟩
      · rw [abs_of_neg (a := real x - 2 * r) (by linarith)]
        rw [abs_of_neg (a := real (pack false (2 ^ 23)) - r) (by linarith)] at hmin
        linarith
      · rw [h, e2]; have := a3 z hz; linarith
    · rw [toNat_mod_two, low_pack _ hlow31]
      have hpar : low v % 2 = 0 → (low v + 2 ^ 23) % 2 = 0 := by omega
      apply hpar
      rw [← toNat_mod_two]
      rw [hdbl] at hne heq
      rw [e2] at heq
      rcases half x hx with h | ⟨z, hz, h⟩
      · refine a4 _ fmin hvmin.ne (le_antisymm ?_ hmin)
        rw [abs_of_neg (a := real x - 2 * r) (by linarith)] at heq
        rw [abs_of_neg (a := real (pack false (2 ^ 23)) - r) (by linarith)]
        linarith
      · rw [h] at hne heq
        rw [e2] at heq
        exact a4 z hz (fun hh => hne (by rw [hh])) (by linarith)
  rw [hw.unique key, hu]
  unfold units
  rw [pack_sign _ hlow31, pack_mag _ hlow31, magOf_double hlv.le]
  simp

end Sys2Proof.F32

namespace Sys2Proof.Designer

open Sys2Proof.F32

/-- A settled enclosure of a number is its RN32. -/
theorem settleIv_isRN32 {p : Nat} {x : Iv} {r : ℝ} {v : F32} (h : Iv.Has p x r) (hv : settleIv p x = some v) :
    IsRN32 r v := by
  unfold settleIv at hv
  split at hv
  · rename_i he
    cases hv
    have e : ∀ y : Int, ((y * 2 ^ 149 : Int) : ℝ) / ((2 ^ p : Nat) : ℝ) / 2 ^ 149 = (y : ℝ) / 2 ^ p := by
      intro y
      have h1 : (2 : ℝ) ^ 149 ≠ 0 := by positivity
      have h2 : (2 : ℝ) ^ p ≠ 0 := by positivity
      rw [Int.cast_mul, Int.cast_pow, Int.cast_ofNat, Nat.cast_pow, Nat.cast_ofNat, div_div, mul_div_mul_right _ _ h1]
    have hl := round_isRN32 (x.lo * 2 ^ 149) (d := 2 ^ p) (by positivity)
    have hh := round_isRN32 (x.hi * 2 ^ 149) (d := 2 ^ p) (by positivity)
    rw [e] at hl hh
    have hp : (0 : ℝ) < 2 ^ p := by positivity
    refine IsRN32.between hl (b := (x.hi : ℝ) / 2 ^ p) ?_ ?_ ?_
    · rw [he]; exact hh
    · rw [div_le_iff₀ hp]; exact h.1
    · rw [le_div_iff₀ hp]; exact h.2
  · cases hv

/-- A settled section is the correctly rounded one. -/
theorem settleSet_rounds {p : Nat} {o : Option IvSet} {e : Exact} {cs : CoeffSet} (h : ∀ v, o = some v → SetHas p v e)
    (hs : settleSet p o = some cs) : cs.Rounds e := by
  unfold settleSet at hs
  obtain ⟨v, hv, hs⟩ := Option.bind_eq_some_iff.mp hs
  obtain ⟨b0, e0, hs⟩ := Option.bind_eq_some_iff.mp hs
  obtain ⟨b1, e1, hs⟩ := Option.bind_eq_some_iff.mp hs
  obtain ⟨b2, e2, hs⟩ := Option.bind_eq_some_iff.mp hs
  obtain ⟨a1, e3, hs⟩ := Option.bind_eq_some_iff.mp hs
  obtain ⟨a2, e4, hs⟩ := Option.bind_eq_some_iff.mp hs
  obtain ⟨h0, h1, h2, h3, h4⟩ := h v hv
  rw [← Option.some.inj hs]
  exact ⟨settleIv_isRN32 h0 e0, settleIv_isRN32 h1 e1, settleIv_isRN32 h2 e2, settleIv_isRN32 h3 e3,
    settleIv_isRN32 h4 e4⟩

/-- Where enclosures contain the exact section and settle, the section they settle on is correctly rounded. -/
theorem settle_rounds {encl : Nat → Option IvSet} {e : Exact} (h : ∀ p v, encl p = some v → SetHas p v e)
    (ps : List Nat) (cs : CoeffSet) (hs : settle encl ps = some cs) : cs.Rounds e := by
  induction ps with
  | nil => cases hs
  | cons p rest ih =>
    unfold settle at hs
    split at hs
    · rename_i c hc
      rw [← Option.some.inj hs]
      exact settleSet_rounds (h p) hc
    · exact ih hs

/-- The reference section, where it settles. -/
theorem section_rounds {encl : Nat → Option IvSet} {e : Exact} (h : ∀ p v, encl p = some v → SetHas p v e)
    (hs : (settle encl precisions).isSome = true) : (section_ encl).Rounds e := by
  obtain ⟨cs, hcs⟩ := Option.isSome_iff_exists.mp hs
  unfold section_
  rw [hcs]
  exact settle_rounds h _ _ hcs

end Sys2Proof.Designer
end

