-- ==== Sys2Proof/Tests/Slice0.lean ====
section
/-! SUPPORT. Tests of one step or one operation against the spec's own vectors (95_test_vectors.md), and a witness for
the hypotheses of every statement. -/

namespace Sys2Proof.Tests

/- One proof at a time: fewer threads wait with a stack of their own. -/
set_option Elab.async false

open Sys2Proof.Machine

/-! ### Helpers -/

def L : ChMask := { left := true, right := false }
def R : ChMask := { left := false, right := true }
def LR : ChMask := { left := true, right := true }
def NONE : ChMask := { left := false, right := false }

def set (b0 b1 b2 a1 a2 : Nat) : CoeffSet :=
  { b0 := BitVec.ofNat 32 b0, b1 := BitVec.ofNat 32 b1, b2 := BitVec.ofNat 32 b2, a1 := BitVec.ofNat 32 a1,
    a2 := BitVec.ofNat 32 a2 }

/-- The N = 1 sections at 48000 Hz and 12000 Hz (V-D3). -/
def hp12000 : CoeffSet := set 0x3E95F61A 0xBF15F61A 0x3E95F61A 0x00000000 0x3E2FB0CD
def lp12000 : CoeffSet := set 0x3E95F61A 0x3F15F61A 0x3E95F61A 0x00000000 0x3E2FB0CD

/-- The peak set of the reset parameters (V-D2). -/
def peak750 : CoeffSet := set 0x3F800000 0xBFF1A73A 0x3F661436 0xBFF1A73A 0x3F661436

/-- Reset with the operands of the design commands written: rate, frequency, Q and gain. -/
def withArgs (sr f q g : Nat) : State :=
  { State.reset with
    argSr := BitVec.ofNat 32 sr, argFreq := BitVec.ofNat 32 f, argQ := BitVec.ofNat 32 q,
    argGainDb := BitVec.ofNat 32 g }

/-- Reset with words written at the start of channel 0's buffer. -/
def withLeft (ws : List Nat) : State :=
  { State.reset with
    mem := (ws.zipIdx).foldl (fun m w => m.writeWord (bufAddr .left w.2) (BitVec.ofNat 32 w.1)) [] }

/-- Reset with an error recorded. -/
def erred : State := { State.reset with err := true, errCode := 1#4 }

/-- The next state of an outcome; none where it is a fault or a refusal. -/
def result (o : Host.Outcome State Fault Refusal) : Option State :=
  match o with
  | .next t => some t
  | .fault _ => none
  | .refused _ => none

/-- The next state of an outcome, to go on from. -/
def next (o : Host.Outcome State Fault Refusal) : State := (result o).getD erred

/-- Outputs of one biquad over a list of samples, and its delay line after them. -/
def runBiquad (b : Biquad) : List Nat → List F32 × F32 × F32
  | [] => ([], b.s1, b.s2)
  | x :: rest =>
    let r := b.step (BitVec.ofNat 32 x)
    (r.1 :: (runBiquad r.2 rest).1, (runBiquad r.2 rest).2)

def atRest (cs : CoeffSet) : Biquad := { cs := cs, s1 := 0#32, s2 := 0#32 }

/-! ### Well-formedness: each check refuses a term outside its range (30_encoding.md R91) -/

theorem test_wf_process_len : (Instr.process LR true 2048).wf = false ∧ (Instr.process LR true 2047).wf = true := by decide
theorem test_wf_designLc : (Instr.designLc 0).wf = false ∧ (Instr.designLc 5).wf = false ∧ (Instr.designLc 4).wf = true := by decide
theorem test_wf_designHc : (Instr.designHc 0).wf = false ∧ (Instr.designHc 5).wf = false ∧ (Instr.designHc 1).wf = true := by decide
theorem test_wf_setLc : (Instr.setLc L 0).wf = false ∧ (Instr.setLc L 5).wf = false ∧ (Instr.setLc L 4).wf = true := by decide
theorem test_wf_setHc : (Instr.setHc R 0).wf = false ∧ (Instr.setHc R 5).wf = false ∧ (Instr.setHc R 1).wf = true := by decide

/-! ### Decoding: words written out from 30_encoding.md R91, R94, R95 (V-E1, V-E2) -/

theorem test_decode_nop : decode 0b00000000000000000000000000000000#32 = .ok .nop := by decide
theorem test_decode_prepare : decode 0b00000000000000000000000000000001#32 = .ok .prepare := by decide
theorem test_decode_release : decode 0b00000000000000000000000000000010#32 = .ok .release := by decide
theorem test_decode_update : decode 0b00000000000000000000000000000011#32 = .ok .update := by decide
theorem test_decode_process : decode 0b00000000000000010000000000010100#32 = .ok (.process L false 1) := by decide
theorem test_decode_process_u : decode 0b00000000010000000000000100110100#32 = .ok (.process LR true 64) := by decide
theorem test_decode_process_longest : decode 0b00000111111111110000000100110100#32 = .ok (.process LR true 2047) := by decide
theorem test_decode_designPeak : decode 0b00000000000000000000000000000101#32 = .ok .designPeak := by decide
theorem test_decode_designLc : decode 0b00000000000000000000000011000110#32 = .ok (.designLc 4) := by decide
theorem test_decode_designHc : decode 0b00000000000000000000000001000111#32 = .ok (.designHc 2) := by decide
theorem test_decode_setPeak : decode 0b00000000000000000000000000111000#32 = .ok (.setPeak LR) := by decide
theorem test_decode_setPeak_none : decode 0b00000000000000000000000000001000#32 = .ok (.setPeak NONE) := by decide
theorem test_decode_setLc : decode 0b00000000000000000000000000011001#32 = .ok (.setLc L 1) := by decide
theorem test_decode_setHc : decode 0b00000000000000000000000001101010#32 = .ok (.setHc R 2) := by decide

theorem test_decode_reserved_opcode :
    decode 0x0000000B#32 = .error .reservedOpcode ∧ decode 0x0000000F#32 = .error .reservedOpcode := by decide
theorem test_decode_reserved_bits :
    decode 0x00008004#32 = .error .reservedBits ∧ decode 0x08000004#32 = .error .reservedBits ∧
    decode 0xFFFFFFFF#32 = .error .reservedBits := by decide
theorem test_decode_unused_field :
    decode 0x00000010#32 = .error .unusedField ∧ decode 0x00000013#32 = .error .unusedField ∧
    decode 0x00000015#32 = .error .unusedField ∧ decode 0x00000016#32 = .error .unusedField ∧
    decode 0x000000C4#32 = .error .unusedField ∧ decode 0x00000118#32 = .error .unusedField ∧
    decode 0x00000048#32 = .error .unusedField ∧ decode 0x00000109#32 = .error .unusedField ∧
    decode 0x00010009#32 = .error .unusedField := by decide

theorem test_decodeTableWord : decodeTableWord 32 0x00400134 = some (.process LR true 64) := by decide

/-- The word the host places is the one the very next step executes. -/
theorem test_withFetchWord : result (step (State.reset.withFetchWord 32 0x00000001)) = result (exec .prepare State.reset) := by
  decide +kernel

/-! ### Arithmetic (00_scope.md R11, 41_cascade.md R141) -/

theorem test_signed_zeros :
    F32.fadd 0x00000000#32 0x80000000#32 = 0x00000000#32 ∧ F32.fadd 0x80000000#32 0x80000000#32 = 0x80000000#32 ∧
    F32.fsub 0x00000000#32 0x00000000#32 = 0x00000000#32 ∧ F32.fsub 0x80000000#32 0x00000000#32 = 0x80000000#32 := by
  decide +kernel

theorem test_zero_times_infinity : F32.fmul 0x00000000#32 0x7F800000#32 = 0x7FC00000#32 := by decide +kernel

/-- V-P1: the impulse response of a high-pass section. -/
theorem test_stage_highpass :
    runBiquad (atRest hp12000) [0x3F800000, 0, 0, 0, 0] =
      ([0x3E95F61A#32, 0xBF15F61A#32, 0x3E7876CE#32, 0x3DCDD59A#32, 0xBD2A84CF#32], 0xBC8D432C#32, 0x3BEA0D1B#32) := by
  decide +kernel

/-- V-P10: overflow to infinity, then NaN. -/
theorem test_stage_overflow :
    runBiquad (atRest lp12000) [0x7F7FFFFF, 0x7F7FFFFF, 0x7F7FFFFF, 0x7F7FFFFF, 0x7F7FFFFF] =
      ([0x7E95F619#32, 0x7F60F126#32, 0x7F800000#32, 0x7FC00000#32, 0x7FC00000#32], 0x7FC00000#32, 0x7FC00000#32) := by
  decide +kernel

/-- V-P11: gradual underflow. -/
theorem test_stage_underflow :
    runBiquad (atRest hp12000) [0x00000001, 0, 0, 0] =
      ([0x00000000#32, 0x80000001#32, 0x00000000#32, 0x00000000#32], 0x00000000#32, 0x00000000#32) := by
  decide +kernel

/-- V-B1 and V-P8: a bypassed stage passes a NaN payload, an enabled identity stage makes it canonical. -/
theorem test_stage_bypass :
    ({ bq := atRest hp12000, bypass := true } : Stage).step 0x7FC00001#32 =
      (0x7FC00001#32, { bq := atRest hp12000, bypass := true }) ∧
    ((atRest CoeffSet.identity).step 0x7FC00001#32).1 = 0x7FC00000#32 := by decide +kernel

/-! ### One step of each command -/

theorem test_nop : result (exec .nop erred) = some erred := by decide +kernel

/-- V-L1. -/
theorem test_prepare :
    let t := next (exec .prepare { State.reset with
      srReq := 0x473B8000#32, maxblkReq := 0x100#11, chainL := { Chain.reset with peak := { Biquad.reset with s1 := 7#32 } } })
    t.sr = 0x473B8000#32 ∧ t.maxblk = 0x100#11 ∧ t.chainL = Chain.reset := by decide +kernel

/-- V-L2. -/
theorem test_prepare_refused :
    result (exec .prepare { State.reset with srReq := 0x7F800000#32 }) =
      some { State.reset with srReq := 0x7F800000#32, err := true, errCode := 3#4 } ∧
    result (exec .prepare { State.reset with maxblkReq := 0x401#11 }) =
      some { State.reset with maxblkReq := 0x401#11, err := true, errCode := 3#4 } := by decide +kernel

/-- V-L4, on a delay line that a NaN has poisoned. -/
theorem test_release :
    result (exec .release { State.reset with chainR := { Chain.reset with peak := { Biquad.reset with s2 := F32.nan } } }) =
      some State.reset := by decide +kernel

/-- V-U1. -/
theorem test_update :
    let t := next (exec .update State.reset)
    t.chainR.peak.cs = peak750 ∧
    t.chainR.lowCut.stages.e0.bq.cs = set 0x3F7F7C15 0xBFFF7C15 0x3F7F7C15 0xBFFF7BF3 0x3F7EF86F ∧
    t.chainL.highCut.stages.e0.bq.cs = set 0x3F5030C1 0x3FD030C1 0x3F5030C1 0x3FCBAFBC 0x3F29638C ∧
    t.faults = [] := by decide +kernel

/-- V-U2, second row: Host-P writes after the PEAK_FREQ read. -/
theorem test_update_skew :
    (next (exec .update { State.reset with
      hostP := [.write 0x0028#14 0x447A0000#32, .write 0x0030#14 0x41200000#32, .write 0x002C#14 0x41C00000#32] })).chainL.peak.cs =
      set 0x3F828AE5 0xBFFE3307 0x3F7A3AE0 0xBFFE3307 0x3F7F50AA := by decide +kernel

/-- V-U4: the command goes on, and the fault names it. -/
theorem test_update_out_of_contract :
    let t := next (exec .update { State.reset with highcutFreq := 0x46AC4400#32, highcutSlope := 1#2 })
    t.faults = [.contractViolation .update] ∧ t.chainR.highCut.count = 2#3 ∧
    t.chainR.highCut.stages.e1.bypass = false ∧ t.chainR.highCut.stages.e2.bypass = true := by decide +kernel

/-- V-D2: a peak design at a quarter of the sample rate. -/
theorem test_designPeak :
    let t := next (exec .designPeak (withArgs 0x473B8000 0x463B8000 0x3F800000 0x40C00000))
    t.dout.e0 = set 0x3FA14E0B 0x00000000 0x3E5E2596 0x00000000 0x3EF44AF7 ∧ t.designN = 1#3 := by decide +kernel

/-- V-D8. -/
theorem test_designPeak_out_of_contract :
    (next (exec .designPeak State.reset)).faults = [.contractViolation .designPeak] := by decide +kernel

/-- V-D5: the first and last sections of a four-section design. -/
theorem test_designLc :
    let t := next (exec (.designLc 4) (withArgs 0x473B8000 0x447A0000 0 0))
    t.dout.e0 = set 0x3F61F9D6 0xBFE1F9D6 0x3F61F9D6 0xBFE10151 0x3F45E4B6 ∧
    t.dout.e3 = set 0x3F78933B 0xBFF8933B 0x3F78933B 0xBFF781DC 0x3F734936 ∧ t.designN = 4#3 := by decide +kernel

/-- V-D4, and V-D7's untouched entries. -/
theorem test_designHc :
    let t := next (exec (.designHc 2) (withArgs 0x473B8000 0x463B8000 0 0))
    t.dout.e1 = set 0x3EB925B1 0x3F3925B1 0x3EB925B1 0x00000000 0x3EE496C2 ∧ t.dout.e2 = CoeffSet.identity ∧
    t.designN = 2#3 := by decide +kernel

/-- V-T3: one channel, and the delay line kept. -/
theorem test_setPeak :
    let s := { State.reset with
      dout := { State.reset.dout with e0 := hp12000 }, chainR := { Chain.reset with peak := { Biquad.reset with s1 := 7#32 } } }
    let t := next (exec (.setPeak R) s)
    t.chainR.peak = { cs := hp12000, s1 := 7#32, s2 := 0#32 } ∧ t.chainL = s.chainL := by decide +kernel

/-- V-B2, from four stages down to two. -/
theorem test_setLc :
    let s := next (exec (.setLc L 4) State.reset)
    let t := next (exec (.setLc L 2) s)
    [slotWord t.chainL 0 7, slotWord t.chainL 1 7, slotWord t.chainL 2 7, slotWord t.chainL 3 7] = [0#32, 0#32, 1#32, 1#32] ∧
    t.chainL.lowCut.count = 2#3 ∧ t.chainR = State.reset.chainR := by decide +kernel

/-- V-T4. -/
theorem test_setHc :
    let s := { State.reset with dout := { State.reset.dout with e1 := lp12000 } }
    let t := next (exec (.setHc R 2) s)
    t.chainR.highCut.stages.e1 = { bq := atRest lp12000, bypass := false } ∧ t.chainR.highCut.stages.e2.bypass = true ∧
    t.chainR.highCut.count = 2#3 ∧ t.chainL = s.chainL := by decide +kernel

/-- V-P13: the reset chain passes 0.5, and the next word is not read. -/
theorem test_process :
    let t := next (exec (.process L false 1) (withLeft [0x3F000000]))
    t.mem.readWord 0x2000 = some 0x3F000000#32 ∧ t.mem.readWord 0x2004 = none ∧ t.faults = [] := by decide +kernel

/-- V-P13: refused before the UPDATE of U = 1. -/
theorem test_process_refused :
    result (exec (.process LR true 0) State.reset) = some { State.reset with err := true, errCode := 2#4 } ∧
    result (exec (.process L false 1025) State.reset) = some { State.reset with err := true, errCode := 2#4 } := by decide +kernel

/-! ### Host accesses -/

/-- V-X1, steps 1 to 4. -/
theorem test_status :
    let t := next (hostAWrite 0x0008#14 0x0000000B#32 State.reset)
    plainWord t .status = 0x00000011#32 ∧ result (exec (.process L false 0) t) = some t ∧
    result (hostAWrite 0x0004#14 0#32 t) = some t ∧ result (hostAWrite 0x0004#14 1#32 t) = some State.reset := by decide +kernel

/-- V-M1. -/
theorem test_reads :
    [0x0000#14, 0x0008#14, 0x0022#14, 0x0094#14, 0x103C#14, 0x109C#14, 0x12BC#14, 0x1180#14, 0x1384#14, 0x1120#14].map
        (fun a => (hostARead a State.reset).readsA) =
      [[0x57430001#32], [0#32], [0x41A00000#32], [0#32], [1#32], [0#32], [0#32], [1#32], [1#32], [0#32]] := by decide +kernel

/-- V-M2: the stored bits of a WARL register. -/
theorem test_warl_write :
    result (hostAWrite 0x0014#14 0x00000C00#32 { State.reset with maxblkReq := 0#11 }) = some { State.reset with maxblkReq := 0x400#11 } ∧
    result (hostAWrite 0x0038#14 0xFFFFFFFE#32 State.reset) = some { State.reset with highcutSlope := 2#2 } := by decide +kernel

/-- V-M3. -/
theorem test_hostP :
    hostPWrite 0x0028#14 0x447A0000#32 State.reset = { State.reset with peakFreq := 0x447A0000#32 } ∧
    hostPWrite 0x0008#14 0x00000003#32 State.reset = State.reset ∧
    (hostPRead 0x0000#14 State.reset).readsP = [0#32] := by decide +kernel

/-- V-M4. -/
theorem test_buffer :
    (hostARead 0x2000#14 State.reset).faults = [.unwrittenRead .left 0] ∧
    (hostARead 0x2001#14 (next (hostAWrite 0x2000#14 0x3F800000#32 State.reset))).readsA = [0x3F800000#32] := by
  decide +kernel

/-! ### Witnesses: for each statement with hypotheses, a case that meets them, at the ends of their ranges -/

theorem witness_DecodeAfterEncode :
    (Instr.process NONE false 0).wf = true ∧ (Instr.process LR true 2047).wf = true ∧ (Instr.designLc 1).wf = true ∧
    (Instr.setHc R 4).wf = true := by decide

theorem witness_EncodeAfterDecode :
    decode 0x07FF0134#32 = .ok (.process LR true 2047) ∧ decode 0x000000FA#32 = .ok (.setHc LR 4) := by decide

theorem witness_LegalWordMatchesOneRow :
    decode 0x00000000#32 = .ok .nop ∧ decode 0x00000048#32 = .error .unusedField := by decide

theorem witness_StepExecutesTheCommand :
    let s : State := { State.reset with hostA := [.write 0x0008#14 0x00000038#32] }
    let s' : State := { State.reset with hostA := [.write 0x000B#14 0x00000038#32], hostP := [.yield] }
    decode 0x00000038#32 = .ok (.setPeak LR) ∧ (0x0008#14).toNat / 4 = 2 ∧ (0x000B#14).toNat / 4 = 2 ∧
    s.hostA = .write 0x0008#14 0x00000038#32 :: [] ∧ s.hostP = [] ∧
    s'.hostA = .write 0x000B#14 0x00000038#32 :: [] ∧ s'.hostP = .yield :: [] := by decide

theorem witness_StepTakesTheNextAccess :
    let r : State := { State.reset with hostP := [.read 0x0028#14] }
    let w : State := { State.reset with hostP := [.write 0x0028#14 1#32] }
    let a : State := { State.reset with hostA := [.read 0x3FFF#14], hostP := [.yield] }
    let b : State := { State.reset with hostA := [.write 0x0000#14 1#32] }
    let c : State := { State.reset with hostA := [.reset] }
    r.hostP = .read 0x0028#14 :: [] ∧ w.hostP = .write 0x0028#14 1#32 :: [] ∧
    (a.hostP = .yield :: [] ∧ a.hostA = .read 0x3FFF#14 :: []) ∧ (b.hostP = [] ∧ b.hostA = .write 0x0000#14 1#32 :: []) ∧
    (c.hostP = [] ∧ c.hostA = .reset :: []) ∧ (State.reset.hostP = [] ∧ State.reset.hostA = []) := by decide

theorem witness_IllegalWordRaisesErrorOne :
    let s : State := { State.reset with hostA := [.write 0x0008#14 0x0000000B#32] }
    let s' : State := { erred with hostA := [.write 0x000B#14 0xFFFFFFFF#32], hostP := [.yield, .read 0x0020#14] }
    (rows.filter fun r => r.hit 0x0000000B#32) = [] ∧ (rows.filter fun r => r.hit 0xFFFFFFFF#32) = [] ∧
    (0x0008#14).toNat / 4 = 2 ∧ (0x000B#14).toNat / 4 = 2 ∧
    s.hostA = .write 0x0008#14 0x0000000B#32 :: [] ∧ s.hostP = [] ∧ s.err = false ∧
    s'.hostA = .write 0x000B#14 0xFFFFFFFF#32 :: [] ∧ s'.hostP = .yield :: [.read 0x0020#14] ∧ s'.err = true := by decide

theorem witness_RaiseErrorKeepsFirstCode : State.reset.err = false ∧ erred.err = true := by decide

theorem witness_StatusWriteClearsError :
    (0x0004#14).toNat / 4 = 1 ∧ (0x0007#14).toNat / 4 = 1 ∧ (0x00000001#32).getLsbD 0 = true ∧
    (0xFFFFFFFE#32).getLsbD 0 = false := by decide

theorem witness_ErringCommandChangesOnlyStatus :
    exec (.process L false 0) State.reset = .next { State.reset with err := true, errCode := 2#4 } := by rfl

theorem witness_PrepareLatchesAndClears :
    let s : State := { State.reset with srReq := 0x00000001#32, maxblkReq := 1#11 }
    (F32.isFinite s.srReq = true ∧ 0 < F32.units s.srReq ∧ 1 ≤ s.maxblkReq.toNat ∧ s.maxblkReq.toNat ≤ 1024) ∧
    (F32.isFinite State.reset.srReq = true ∧ 0 < F32.units State.reset.srReq ∧ 1 ≤ State.reset.maxblkReq.toNat ∧
      State.reset.maxblkReq.toNat ≤ 1024) := by decide +kernel

theorem witness_PrepareRefusesBadOperands :
    let s : State := { State.reset with srReq := 0x80000000#32 }
    let s' : State := { erred with maxblkReq := 0x401#11 }
    (¬ (F32.isFinite s.srReq = true ∧ 0 < F32.units s.srReq ∧ 1 ≤ s.maxblkReq.toNat ∧ s.maxblkReq.toNat ≤ 1024) ∧
      s.err = false) ∧
    (¬ (F32.isFinite s'.srReq = true ∧ 0 < F32.units s'.srReq ∧ 1 ≤ s'.maxblkReq.toNat ∧ s'.maxblkReq.toNat ≤ 1024) ∧
      s'.err = true) := by decide +kernel

theorem witness_SnapshotLatchesParameters : State.reset.hostP = [] := by decide

/-- Six segments of accesses, none of them leaving the turn: empty ones and a read and a write. -/
theorem witness_SnapshotAdmitsEveryMix :
    .yield ∉ ([] ++ [.write 0x002C#14 1#32] ++ [] ++ [.read 0x0020#14] ++ [] ++ [.write 0x0038#14 3#32] : List ParamInput) := by
  decide

theorem witness_UpdateInstallsDesigns :
    let u := paramTurn (snapshotPhase State.reset)
    peakContract u.sr u.latch.pf u.latch.pq u.latch.pg = true ∧ cutContract u.sr u.latch.lf = true ∧
    cutContract u.sr u.latch.hf = true := by decide +kernel

/-- V-U4: a high-cut frequency of half the sample rate. -/
theorem witness_UpdateOutOfContract :
    let u := paramTurn (snapshotPhase { State.reset with highcutFreq := 0x46AC4400#32 })
    ¬ (peakContract u.sr u.latch.pf u.latch.pq u.latch.pg = true ∧ cutContract u.sr u.latch.lf = true ∧
       cutContract u.sr u.latch.hf = true) := by decide +kernel

theorem witness_UpdateLinksChannels :
    (Cut.reset.stages.get 0).bypass = false ∧ (Cut.reset.stages.get 3).bypass = true := by decide

theorem witness_UpdateRepeatedChangesNothing :
    State.reset.hostP = [] ∧
    peakContract State.reset.sr State.reset.peakFreq State.reset.peakQ State.reset.peakGainDb = true ∧
    cutContract State.reset.sr State.reset.lowcutFreq = true ∧ cutContract State.reset.sr State.reset.highcutFreq = true := by
  decide +kernel

/-- The gain at both ends of its range (V-D8). -/
theorem witness_DesignPeakWritesDout :
    let s := withArgs 0x473B8000 0x3F800000 0x3F800000 0xC1C00000
    let s' := withArgs 0x473B8000 0x463B8000 0x41200000 0x41C00000
    peakContract s.argSr s.argFreq s.argQ s.argGainDb = true ∧ peakContract s'.argSr s'.argFreq s'.argQ s'.argGainDb = true := by
  decide +kernel

theorem witness_DesignLcWritesDout :
    let s := withArgs 0x473B8000 0x447A0000 0 0
    1 ≤ 1 ∧ 1 ≤ 4 ∧ 4 ≤ 4 ∧ cutContract s.argSr s.argFreq = true := by decide +kernel

/-- A frequency just below half the sample rate. -/
theorem witness_DesignHcWritesDout :
    let s := withArgs 0x473B8000 0x46BB7FFF 0 0
    1 ≤ 1 ∧ 1 ≤ 4 ∧ 4 ≤ 4 ∧ cutContract s.argSr s.argFreq = true := by decide +kernel

/-- V-D8: the gain just out of range, and a frequency of half the sample rate. -/
theorem witness_DesignOutOfContract :
    let s := withArgs 0x473B8000 0x463B8000 0x3F800000 0x41C40000
    let s' := withArgs 0x473B8000 0x46BB8000 0 0
    peakContract s.argSr s.argFreq s.argQ s.argGainDb = false ∧ cutContract s'.argSr s'.argFreq = false := by
  decide +kernel

/-- A peak design that settles. -/
theorem witness_PeakDesignCorrectlyRounded :
    peakContract 0x472C4400#32 0x447A0000#32 0x41200000#32 0x41C00000#32 = true ∧
    (Designer.settle (Designer.peakEncl 0x472C4400#32 0x447A0000#32 0x41200000#32 0x41C00000#32)
      Designer.precisions).isSome = true := by decide +kernel

/-- The last section of a four-section design, and the one section of a one-section design. -/
theorem witness_CutDesignsCorrectlyRounded :
    cutContract 0x473B8000#32 0x447A0000#32 = true ∧ 4 ≤ 4 ∧ 3 < 4 ∧ 0 < 1 ∧
    (Designer.settle (Designer.highpassEncl 0x473B8000#32 0x447A0000#32 4 3) Designer.precisions).isSome = true ∧
    (Designer.settle (Designer.lowpassEncl 0x473B8000#32 0x447A0000#32 1 0) Designer.precisions).isSome = true := by
  decide +kernel

theorem witness_ExactRelationsOfDesigns :
    cutContract 0x473B8000#32 0x447A0000#32 = true ∧ 1 ≤ 4 ∧ 0 < 1 ∧
    (Designer.settle (Designer.highpassEncl 0x473B8000#32 0x447A0000#32 1 0) Designer.precisions).isSome = true ∧
    (Designer.settle (Designer.lowpassEncl 0x473B8000#32 0x447A0000#32 1 0) Designer.precisions).isSome = true ∧
    2 ^ 23 < F32.units (Config.design.highpass 0x473B8000#32 0x447A0000#32 1 0).b0 ∧
    2 ^ 23 < F32.units (Config.design.lowpass 0x473B8000#32 0x447A0000#32 1 0).b0 := by decide +kernel

theorem witness_ExactRelationsOfDesigns_peak :
    peakContract 0x473B8000#32 0x447A0000#32 0x3F800000#32 0x80000000#32 = true ∧
    (Designer.settle (Designer.peakEncl 0x473B8000#32 0x447A0000#32 0x3F800000#32 0x80000000#32)
      Designer.precisions).isSome = true ∧ F32.units 0x80000000#32 = 0 := by decide +kernel

theorem witness_PeakGainAtCentre : (0 : ℝ) < 750 ∧ (2 : ℝ) * 750 < 44100 ∧ (0 : ℝ) < 1 := by norm_num

theorem witness_CutResponseLimits : (0 : ℝ) < 48000 ∧ (0 : ℝ) < 3 ∧ (3 : ℝ) < Real.pi ∧ 1 ≤ 1 ∧ 1 ≤ 4 ∧ 4 ≤ 4 :=
  ⟨by norm_num, by norm_num, Real.pi_gt_three, le_refl 1, by norm_num, le_refl 4⟩

theorem witness_SetPeakInstalls : selects L .left = true ∧ selects L .right = false := by decide

theorem witness_SetLcSetsSlope :
    1 ≤ 1 ∧ 1 ≤ 4 ∧ 4 ≤ 4 ∧ selects L .left = true ∧ selects L .right = false := by decide

theorem witness_SetHcSetsSlope :
    1 ≤ 1 ∧ 1 ≤ 4 ∧ 4 ≤ 4 ∧ selects R .right = true ∧ selects R .left = false := by decide

theorem witness_StageStepFormula :
    ({ bq := Biquad.reset, bypass := false } : Stage).bypass = false ∧
    ({ bq := Biquad.reset, bypass := true } : Stage).bypass = true ∧ Cut.reset.Inv := by
  unfold Cut.Inv; decide

theorem witness_IdentityStageMapsSamples :
    Biquad.reset.cs = CoeffSet.identity ∧ zeroWord Biquad.reset.s1 ∧ zeroWord 0x80000000#32 ∧
    (F32.isFinite 0x7F7FFFFF#32 = true ∧ 0x7F7FFFFF#32 ≠ 0x80000000#32) ∧ Biquad.reset.s1 = 0x00000000#32 ∧
    F32.isInf 0xFF800000#32 = true ∧ F32.isNaN 0x7FC00001#32 = true := by
  unfold zeroWord; decide

theorem witness_NanPoisonsStage : F32.isNaN ({ Biquad.reset with s1 := 0x7F800001#32 } : Biquad).s1 = true := by decide

/-- A block as long as MAXBLK, in one channel. -/
theorem witness_ProcessFiltersBlock :
    let s : State := { withLeft [0x3F800000, 0x80000000] with maxblk := 2#11 }
    1 ≤ 2 ∧ 2 ≤ s.maxblk.toNat ∧ s.maxblk.toNat ≤ 1024 ∧ selects L .left = true ∧ selects L .right = false ∧
    bufWords s .left 2 = [0x3F800000#32, 0x80000000#32].map some ∧ outsideBlock L 2 0x1FFF ∧ outsideBlock L 2 0x2008 := by
  refine ⟨by decide, by decide, by decide, by decide, by decide, by decide +kernel, ?_, ?_⟩ <;>
    (intro c _ i hi; cases c <;> simp only [bufAddr, Chan.num] <;> omega)

theorem witness_ProcessRefusesBadLength :
    (0 = 0 ∨ State.reset.maxblk.toNat < 0) ∧ (1025 = 0 ∨ State.reset.maxblk.toNat < 1025) ∧ State.reset.err = false ∧
    erred.err = true := by decide

theorem witness_ProcessWithUpdateFirst :
    1 ≤ 1 ∧ 1 ≤ 1024 ∧ 1024 ≤ State.reset.maxblk.toNat ∧
    snapshotContract (paramTurn (snapshotPhase State.reset)) = true ∧
    snapshotContract (paramTurn (snapshotPhase { State.reset with peakQ := 0#32 })) = false := by decide +kernel

/-- The first and the last word of the longest block. -/
theorem witness_ProcessRecordsUnwrittenRead :
    1024 ≤ State.reset.maxblk.toNat ∧ State.reset.maxblk.toNat ≤ 1024 ∧ selects LR .right = true ∧ 0 < 1024 ∧ 1023 < 1024 ∧
    State.reset.mem.readWord (bufAddr .right 0) = none ∧ State.reset.mem.readWord (bufAddr .right 1023) = none := by decide

theorem witness_ProcessWritesOnlyEnabledDelayLines : (State.reset.chainL.lowCut.stages.get 1).bypass = true := by decide

theorem witness_SilenceGivesSilence :
    let s := withLeft [0x80000000]
    1 ≤ 1 ∧ 1 ≤ s.maxblk.toNat ∧ s.maxblk.toNat ≤ 1024 ∧
    ∀ c, selects L c = true → (s.chain c).quiet ∧
      ∀ i, i < 1 → ∃ x, s.mem.readWord (bufAddr c i) = some x ∧ zeroWord x := by
  have hcut : Cut.reset.quiet := by
    unfold Cut.quiet Biquad.quiet finiteSet zeroWord; decide
  refine ⟨by decide, by decide, by decide, fun c hc => ?_⟩
  cases c
  · refine ⟨⟨hcut, ?_, hcut⟩, fun i hi => ⟨0x80000000#32, ?_, Or.inr rfl⟩⟩
    · unfold Biquad.quiet finiteSet zeroWord; decide
    · obtain rfl : i = 0 := by omega
      decide +kernel
  · cases hc

theorem real_one : F32.real 0x3F800000#32 = 1 := by
  have h : F32.units 0x3F800000#32 = 2 ^ 149 := by decide +kernel
  unfold F32.real
  rw [h, Int.cast_pow, Int.cast_ofNat]
  exact div_self (by positivity)

theorem real_zero : F32.real 0x80000000#32 = 0 := by
  have h : F32.units 0x80000000#32 = 0 := by decide +kernel
  unfold F32.real
  rw [h, Int.cast_zero, zero_div]

theorem witness_FmulCorrectlyRounded :
    F32.isFinite 0x3F800000#32 = true ∧ F32.isFinite 0x80000000#32 = true ∧
    F32.real 0x3F800000#32 * F32.real 0x3F800000#32 ≠ 0 ∧ F32.real 0x3F800000#32 * F32.real 0x80000000#32 = 0 := by
  rw [real_one, real_zero]
  refine ⟨by decide, by decide, by norm_num, by norm_num⟩

theorem witness_FaddFsubCorrectlyRounded :
    F32.isFinite 0x3F800000#32 = true ∧ F32.isFinite 0x80000000#32 = true ∧
    F32.real 0x3F800000#32 + F32.real 0x80000000#32 ≠ 0 ∧ F32.real 0x80000000#32 + F32.real 0x80000000#32 = 0 ∧
    F32.real 0x3F800000#32 - F32.real 0x80000000#32 ≠ 0 ∧ F32.real 0x3F800000#32 - F32.real 0x3F800000#32 = 0 := by
  rw [real_one, real_zero]
  refine ⟨by decide, by decide, by norm_num, by norm_num, by norm_num, by norm_num⟩

theorem witness_NanResultsAreCanonical :
    F32.isNaN (F32.fadd 0x7F800000#32 0xFF800000#32) = true ∧ F32.isNaN (F32.fsub 0x7F800000#32 0x7F800000#32) = true ∧
    F32.isNaN (F32.fmul 0x80000000#32 0x7F800000#32) = true ∧
    (F32.isInf 0xFF800000#32 = true ∧ F32.isNaN 0xFF800000#32 = false ∧ F32.sign 0xFF800000#32 = F32.sign 0xFF800000#32) ∧
    (F32.isInf 0x7F800000#32 = true ∧ F32.isNaN 0xFF800000#32 = false ∧ F32.sign 0x7F800000#32 ≠ F32.sign 0xFF800000#32) ∧
    (F32.isNaN 0x00000001#32 = false ∧ F32.isInf 0x00000001#32 = false ∧ ¬ zeroWord 0x00000001#32) := by
  unfold zeroWord; decide +kernel

/-- Each clause at both ends of its ranges. -/
theorem witness_ReadOnlyAndReservedWords :
    (0x0000#14).toNat / 4 * 4 = 0x0000 ∧ (0x000F#14).toNat / 4 * 4 = 0x000C ∧ (0x0018#14).toNat / 4 * 4 = 0x0018 ∧
    (0x001C#14).toNat / 4 * 4 = 0x001C ∧ (0x003C#14).toNat / 4 * 4 = 0x003C ∧ (0x0050#14).toNat / 4 * 4 = 0x0050 ∧
    (0x1FFF#14).toNat / 4 * 4 < 0x2000 ∧ (0x0054#14).toNat / 4 * 4 = 0x0054 ∧ (0x007F#14).toNat / 4 * 4 < 0x0080 ∧
    0x14 ≤ (0x0094#14).toNat / 4 * 4 % 0x20 ∧ 0x14 ≤ (0x00FF#14).toNat / 4 * 4 % 0x20 ∧
    (0x0100#14).toNat / 4 * 4 = 0x0100 ∧ (0x0FFF#14).toNat / 4 * 4 < 0x1000 ∧ (0x1120#14).toNat / 4 * 4 = 0x1120 ∧
    (0x117F#14).toNat / 4 * 4 < 0x1180 ∧ (0x1188#14).toNat / 4 * 4 = 0x1188 ∧ (0x11FF#14).toNat / 4 * 4 < 0x1200 ∧
    (0x1320#14).toNat / 4 * 4 = 0x1320 ∧ (0x137F#14).toNat / 4 * 4 < 0x1380 ∧ (0x1388#14).toNat / 4 * 4 = 0x1388 := by decide

/-- Every register address of the statement, each by its highest byte address. -/
theorem witness_RegisterReadValues :
    [0x0003#14, 0x0007#14, 0x000B#14, 0x0013#14, 0x0017#14, 0x001B#14, 0x001F#14, 0x0023#14, 0x0027#14, 0x002B#14, 0x002F#14,
     0x0033#14, 0x0037#14, 0x003B#14, 0x0043#14, 0x0047#14, 0x004B#14, 0x004F#14, 0x0053#14].map
        (fun a : Addr => a.toNat / 4 * 4) =
      [0x0000, 0x0004, 0x0008, 0x0010, 0x0014, 0x0018, 0x001C, 0x0020, 0x0024, 0x0028, 0x002C, 0x0030, 0x0034, 0x0038,
       0x0040, 0x0044, 0x0048, 0x004C, 0x0050] := by decide

/-- Every register address of the statement, each by its lowest byte address. -/
theorem witness_RegisterWritesStore :
    [0x0010#14, 0x0014#14, 0x0020#14, 0x0024#14, 0x0028#14, 0x002C#14, 0x0030#14, 0x0034#14, 0x0038#14, 0x0040#14, 0x0044#14,
     0x0048#14, 0x004C#14].map (fun a : Addr => a.toNat / 4 * 4) =
      [0x0010, 0x0014, 0x0020, 0x0024, 0x0028, 0x002C, 0x0030, 0x0034, 0x0038, 0x0040, 0x0044, 0x0048, 0x004C] := by decide

/-- The first and the last word of each region. -/
theorem witness_StageFileAndDoutAddresses :
    (0x1000#14).toNat = 0x1000 + 0x200 * Chan.left.num + 0x20 * 0 ∧
    (0x109C#14).toNat = 0x1000 + 0x200 * Chan.left.num + 0x20 * 4 + 0x1C ∧
    (0x131C#14).toNat = 0x1000 + 0x200 * Chan.right.num + 0x20 * (5 + 3) + 0x1C ∧
    (0x1180#14).toNat = 0x1000 + 0x200 * Chan.left.num + 0x180 ∧
    (0x1384#14).toNat = 0x1000 + 0x200 * Chan.right.num + 0x184 ∧
    (0x0080#14).toNat = 0x0080 + 0x20 * 0 ∧ (0x00FC#14).toNat = 0x0080 + 0x20 * 3 + 0x1C ∧ 0 < 4 ∧ 3 < 4 := by decide

theorem witness_ReadsHaveNoSideEffect :
    (0x1FFF#14).toNat < 0x2000 ∧ ((withLeft [0]).mem.readWord ((0x2003#14).toNat / 4 * 4)).isSome = true ∧ 1023 < 1024 ∧
    (0x3FFF#14).toNat / 4 * 4 = 0x2000 + 0x1000 * Chan.right.num + 4 * 1023 ∧
    State.reset.mem.readWord ((0x3FFF#14).toNat / 4 * 4) = none := by decide +kernel

theorem witness_BufferWriteThenRead : 0x2000 ≤ (0x2000#14).toNat ∧ 0x2000 ≤ (0x3FFF#14).toNat := by decide

theorem witness_HostPReachesOnlyParameters :
    let w (a : Addr) : State := { State.reset with hostP := [.write a 1#32] }
    let r (a : Addr) : State := { State.reset with hostP := [.read a] }
    (w 0x0020#14).hostP = .write 0x0020#14 1#32 :: [] ∧ (r 0x003B#14).hostP = .read 0x003B#14 :: [] ∧
    0x0020 ≤ (0x0020#14).toNat / 4 * 4 ∧ (0x003B#14).toNat / 4 * 4 < 0x003C ∧
    (0x001F#14).toNat / 4 * 4 < 0x0020 ∧ 0x003C ≤ (0x003C#14).toNat / 4 * 4 := by decide

theorem witness_ResetSetsEveryRegister :
    let s : State := { erred with hostA := [.reset] }
    let s' : State := { erred with hostA := [.reset], hostP := [.yield, .read 0x0020#14] }
    (s.hostA = .reset :: [] ∧ s.hostP = []) ∧ s'.hostA = .reset :: [] ∧ s'.hostP = .yield :: [.read 0x0020#14] := by decide

/-- A state other than reset that meets the invariant, and its step. -/
theorem witness_StepKeepsInvariant :
    let s : State := { erred with hostA := [.write 0x0010#14 1#32] }
    s.Inv ∧ step s = .next { erred with srReq := 1#32 } := by
  have hcut : Cut.reset.Inv := by unfold Cut.Inv; decide
  have hmem : Memory.inBuffers [] := ⟨rfl, by simp, fun _ _ _ _ => Iff.rfl⟩
  refine ⟨⟨⟨hcut, hcut⟩, ⟨hcut, hcut⟩, ?_, ?_, ?_, ?_, ?_⟩, rfl⟩
  · unfold State.statusLegal; decide
  · decide +kernel
  · decide
  · decide
  · exact hmem

theorem witness_RecordedFaultsStay :
    let s : State := { State.reset with faults := [.unwrittenRead .left 0] }
    step s = .next s ∧ .unwrittenRead .left 0 ∈ s.faults := by
  exact ⟨rfl, List.mem_singleton.mpr rfl⟩

theorem witness_CommandsWriteOnlyTheirRegisters :
    exec .nop State.reset = .next State.reset ∧ Instr.nop ≠ .prepare ∧ Instr.nop ≠ .designPeak ∧
    (∀ n, Instr.nop ≠ .designLc n ∧ Instr.nop ≠ .designHc n) ∧ (∀ ch u len, Instr.nop ≠ .process ch u len) ∧
    Instr.nop ≠ .update ∧ State.reset.hostP = [] ∧ (0x0004#14).toNat / 4 ≠ 2 ∧ (0x1FFF#14).toNat < 0x2000 :=
  ⟨rfl, by decide, by decide, fun _ => ⟨nofun, nofun⟩, fun _ _ _ => nofun, by decide, rfl, by decide, by decide⟩

theorem witness_BypassBitsHaveFewWriters :
    exec .release State.reset = .next State.reset ∧ Instr.release ≠ .update ∧
    (∀ ch n, Instr.release ≠ .setLc ch n ∧ Instr.release ≠ .setHc ch n) ∧
    (∀ ch len, Instr.release ≠ .process ch true len) ∧ 0 < 4 ∧ 3 < 4 :=
  ⟨rfl, by decide, fun _ _ => ⟨nofun, nofun⟩, fun _ _ => nofun, by decide, by decide⟩

end Sys2Proof.Tests
end

/-! # Family 00_scope.md: binary32 arithmetic and the correctly rounded designs

The patterns are classed by their 31 lower bits; each operation then gets one equation per class of operands, and the
obligations of R10, R11 and R111 follow from these and from the rounding lemmas of Laws/Rounding and Laws/Settle. -/

namespace Sys2Proof.F32

open Sys2Proof.Machine

/-! ### The classes of patterns, by their 31 lower bits -/

theorem isNaN_eq (a : F32) : isNaN a = decide (infMag < low a) := by
  have hlow := low_lt a
  conv_lhs => rw [eq_pack a]
  unfold isNaN infMag
  rw [pack_expField _ hlow, pack_frac _ hlow, ← Bool.decide_and]
  exact decide_eq_decide.mpr (by omega)

theorem isInf_eq (a : F32) : isInf a = decide (low a = infMag) := by
  have hlow := low_lt a
  conv_lhs => rw [eq_pack a]
  unfold isInf infMag
  rw [pack_expField _ hlow, pack_frac _ hlow, ← Bool.decide_and]
  exact decide_eq_decide.mpr (by omega)

theorem isFinite_eq (a : F32) : isFinite a = decide (low a < infMag) := by
  rw [Bool.eq_iff_iff, decide_eq_true_iff]
  exact ⟨low_lt_of_finite, isFinite_of_low_lt⟩

theorem isNaN_eq_false_of_isFinite {a : F32} (h : isFinite a = true) : isNaN a = false := by
  simp only [isFinite_eq, isNaN_eq, decide_eq_true_iff, decide_eq_false_iff_not] at *
  omega

theorem isInf_eq_false_of_isFinite {a : F32} (h : isFinite a = true) : isInf a = false := by
  simp only [isFinite_eq, isInf_eq, decide_eq_true_iff, decide_eq_false_iff_not] at *
  omega

theorem isNaN_eq_false_of_isInf {a : F32} (h : isInf a = true) : isNaN a = false := by
  simp only [isInf_eq, isNaN_eq, decide_eq_true_iff, decide_eq_false_iff_not] at *
  omega

theorem isFinite_eq_false_of_isInf {a : F32} (h : isInf a = true) : isFinite a = false := by
  simp only [isInf_eq, isFinite_eq, decide_eq_true_iff, decide_eq_false_iff_not] at *
  omega

theorem isFinite_of_not_isNaN_of_not_isInf {a : F32} (hn : isNaN a = false) (hi : isInf a = false) :
    isFinite a = true := by
  simp only [isFinite_eq, isNaN_eq, isInf_eq, decide_eq_true_iff, decide_eq_false_iff_not] at *
  omega

theorem isNaN_pack (s : Bool) {m : Nat} (h : m ≤ infMag) : isNaN (pack s m) = false := by
  rw [isNaN_eq, low_pack s (h.trans_lt infMag_lt)]
  simpa using h

theorem isNaN_neg (a : F32) : isNaN (neg a) = isNaN a := by rw [isNaN_eq, isNaN_eq, low_neg]

theorem isInf_neg (a : F32) : isInf (neg a) = isInf a := by rw [isInf_eq, isInf_eq, low_neg]

theorem eq_pack_of_isInf {a : F32} (h : isInf a = true) : a = pack (sign a) infMag := by
  rw [isInf_eq, decide_eq_true_iff] at h
  rw [← h]
  exact eq_pack a

theorem pack_zero (s : Bool) : pack s 0 = if s then 0x80000000#32 else 0x00000000#32 := by cases s <;> rfl

theorem pack_infMag (s : Bool) : pack s infMag = if s then 0xFF800000#32 else 0x7F800000#32 := by cases s <;> rfl

/-! ### Zeros -/

theorem mag_eq_zero_iff (a : F32) : mag a = 0 ↔ low a = 0 := by
  have h0 : magOf 0 = 0 := by simp [magOf]
  rw [mag_eq_magOf]
  exact ⟨fun h => magOf_inj (h.trans h0.symm), fun h => by rw [h, h0]⟩

theorem real_eq_zero_iff (a : F32) : real a = 0 ↔ mag a = 0 := by
  unfold real units
  split <;> simp

theorem zeroWord_iff (a : F32) : zeroWord a ↔ isFinite a = true ∧ mag a = 0 := by
  rw [isFinite_eq, decide_eq_true_iff, mag_eq_zero_iff]
  constructor
  · rintro (rfl | rfl) <;> decide
  · rintro ⟨-, h⟩
    unfold zeroWord
    rw [eq_pack a, h, pack_zero]
    cases sign a <;> simp

/-! ### Rounded magnitudes -/

theorem roundMag_le (n d : Nat) : roundMag n d ≤ infMag := Nat.min_le_right _ _

theorem roundMag_zero (d : Nat) : roundMag 0 d = 0 := by simp [roundMag]

/-! ### Addition and subtraction, by the classes of the operands -/

/-- The operands of an addition that has no value (00_scope.md R11). -/
def FaddInvalid (a b : F32) : Prop :=
  isNaN a = true ∨ isNaN b = true ∨ (isInf a = true ∧ isInf b = true ∧ sign a ≠ sign b)

theorem fadd_of_invalid {a b : F32} (h : FaddInvalid a b) : fadd a b = nan := by
  unfold fadd
  rcases h with h | h | ⟨ha, hb, hs⟩
  · simp [h]
  · simp [h]
  · simp [ha, hb, hs]

theorem fadd_of_isInf_left {a b : F32} (ha : isInf a = true) (h : ¬ FaddInvalid a b) : fadd a b = a := by
  simp only [FaddInvalid, not_or, Bool.not_eq_true, not_and, ne_eq, not_not] at h
  obtain ⟨hna, hnb, hs⟩ := h
  unfold fadd
  cases hb : isInf b
  · simp [hna, hnb, ha]
  · simp [hna, hnb, ha, hs ha hb]

theorem fadd_of_isInf_right {a b : F32} (hb : isInf b = true) (h : ¬ FaddInvalid a b) : fadd a b = b := by
  cases ha : isInf a
  · simp only [FaddInvalid, not_or, Bool.not_eq_true] at h
    obtain ⟨hna, hnb, -⟩ := h
    unfold fadd
    simp [hna, hnb, ha, hb]
  · have hs : sign a = sign b := by
      by_contra hne
      exact h (Or.inr (Or.inr ⟨ha, hb, hne⟩))
    rw [fadd_of_isInf_left ha h, eq_pack_of_isInf ha, hs, ← eq_pack_of_isInf hb]

theorem fadd_of_isFinite {a b : F32} (ha : isFinite a = true) (hb : isFinite b = true) :
    fadd a b = if units a + units b = 0 then pack (sign a && sign b) 0 else round (units a + units b) 1 := by
  unfold fadd
  simp [isNaN_eq_false_of_isFinite, isInf_eq_false_of_isFinite, ha, hb]

theorem isNaN_fadd_of_valid {a b : F32} (h : ¬ FaddInvalid a b) : isNaN (fadd a b) = false := by
  have hv := h
  simp only [FaddInvalid, not_or, Bool.not_eq_true] at hv
  obtain ⟨hna, hnb, -⟩ := hv
  cases ha : isInf a
  · cases hb : isInf b
    · rw [fadd_of_isFinite (isFinite_of_not_isNaN_of_not_isInf hna ha) (isFinite_of_not_isNaN_of_not_isInf hnb hb)]
      split
      · exact isNaN_pack _ (Nat.zero_le _)
      · exact isNaN_pack _ (roundMag_le _ _)
    · rw [fadd_of_isInf_right hb h, hnb]
  · rw [fadd_of_isInf_left ha h, hna]

theorem faddInvalid_neg_right {a b : F32} :
    FaddInvalid a (neg b) ↔ isNaN a = true ∨ isNaN b = true ∨ (isInf a = true ∧ isInf b = true ∧ sign a = sign b) := by
  unfold FaddInvalid
  rw [isNaN_neg, isInf_neg, sign_neg]
  cases sign a <;> cases sign b <;> simp

theorem faddInvalid_comm {a b : F32} : FaddInvalid a b ↔ FaddInvalid b a := by
  unfold FaddInvalid
  rw [or_left_comm, and_left_comm, ne_comm]

/-- An infinity and a number add to the infinity, in either order, but for opposite infinities. -/
theorem fadd_of_isInf {a b : F32} (ha : isInf a = true) (hb : isNaN b = false)
    (hab : ¬ (isInf b = true ∧ sign a ≠ sign b)) : fadd a b = a ∧ fadd b a = a := by
  have hv : ¬ FaddInvalid a b := by
    rintro (h | h | ⟨-, h⟩)
    · simp [isNaN_eq_false_of_isInf ha] at h
    · simp [hb] at h
    · exact hab h
  exact ⟨fadd_of_isInf_left ha hv, fadd_of_isInf_right ha (mt faddInvalid_comm.mp hv)⟩

/-- The same of a difference, where the infinity subtracted has its sign turned. -/
theorem fsub_of_isInf {a b : F32} (ha : isInf a = true) (hb : isNaN b = false)
    (hab : ¬ (isInf b = true ∧ sign a = sign b)) : fsub a b = a ∧ fsub b a = neg a := by
  have hneg : ¬ (isInf (neg b) = true ∧ sign a ≠ sign (neg b)) := by
    rw [isInf_neg, sign_neg, Bool.ne_not]
    exact hab
  have hneg' : ¬ (isInf b = true ∧ sign (neg a) ≠ sign b) := by
    rw [sign_neg, ne_comm, Bool.ne_not, eq_comm (a := sign b)]
    exact hab
  exact ⟨(fadd_of_isInf ha ((isNaN_neg b).trans hb) hneg).1, (fadd_of_isInf ((isInf_neg a).trans ha) hb hneg').2⟩

/-- The sum of two finite patterns: its rounding, or the signed zero of roundTiesToEven (00_scope.md R11). -/
theorem fadd_rounds {a b : F32} (ha : isFinite a = true) (hb : isFinite b = true) :
    (real a + real b ≠ 0 → IsRN32 (real a + real b) (fadd a b)) ∧
    (real a + real b = 0 → fadd a b = pack (sign a && sign b) 0) := by
  have hsum : real a + real b = ((units a + units b : Int) : ℝ) / (1 : Nat) / 2 ^ 149 := by
    unfold real
    push_cast
    ring
  have hzero : real a + real b = 0 ↔ units a + units b = 0 := by
    rw [hsum, Nat.cast_one, div_one, div_eq_zero_iff, or_iff_left (by positivity), Int.cast_eq_zero]
  rw [fadd_of_isFinite ha hb]
  constructor
  · intro h
    rw [if_neg (mt hzero.mpr h), hsum]
    exact round_isRN32 _ Nat.one_pos
  · intro h
    rw [if_pos (hzero.mp h)]

/-! ### Multiplication, by the classes of the operands -/

/-- The operands of a multiplication that has no value (00_scope.md R11). -/
def FmulInvalid (a b : F32) : Prop :=
  isNaN a = true ∨ isNaN b = true ∨ (zeroWord a ∧ isInf b = true) ∨ (isInf a = true ∧ zeroWord b)

theorem fmul_comm (a b : F32) : fmul a b = fmul b a := by
  unfold fmul
  simp only [Bool.or_comm (isNaN a), Bool.or_comm (isInf a), Bool.or_comm (isFinite a && _), bne_comm (a := sign a),
    Nat.mul_comm (mag a)]

theorem fmul_of_isFinite {a b : F32} (ha : isFinite a = true) (hb : isFinite b = true) :
    fmul a b = pack (sign a != sign b) (roundMag (mag a * mag b) (2 ^ 149)) := by
  unfold fmul
  rw [isNaN_eq_false_of_isFinite ha, isNaN_eq_false_of_isFinite hb, isInf_eq_false_of_isFinite ha,
    isInf_eq_false_of_isFinite hb]
  rfl

theorem fmul_of_isInf_of_zeroWord {a b : F32} (ha : isInf a = true) (hb : zeroWord b) : fmul a b = nan := by
  obtain ⟨hfin, hmag⟩ := (zeroWord_iff b).mp hb
  unfold fmul
  simp [ha, hfin, hmag]

theorem fmul_of_isInf_left {a b : F32} (ha : isInf a = true) (hb : isNaN b = false) (hz : ¬ zeroWord b) :
    fmul a b = pack (sign a != sign b) infMag := by
  have hzb : (isFinite b && decide (mag b = 0)) = false := by
    rw [← Bool.not_eq_true, Bool.and_eq_true, decide_eq_true_iff, ← zeroWord_iff]
    exact hz
  unfold fmul
  simp [isNaN_eq_false_of_isInf ha, isFinite_eq_false_of_isInf ha, ha, hb, hzb]

theorem fmul_of_invalid {a b : F32} (h : FmulInvalid a b) : fmul a b = nan := by
  rcases h with h | h | ⟨ha, hb⟩ | ⟨ha, hb⟩
  · simp [fmul, h]
  · simp [fmul, h]
  · rw [fmul_comm, fmul_of_isInf_of_zeroWord hb ha]
  · exact fmul_of_isInf_of_zeroWord ha hb

theorem isNaN_fmul_of_valid {a b : F32} (h : ¬ FmulInvalid a b) : isNaN (fmul a b) = false := by
  simp only [FmulInvalid, not_or, Bool.not_eq_true, not_and] at h
  obtain ⟨hna, hnb, hza, hzb⟩ := h
  cases ha : isInf a
  · cases hb : isInf b
    · rw [fmul_of_isFinite (isFinite_of_not_isNaN_of_not_isInf hna ha) (isFinite_of_not_isNaN_of_not_isInf hnb hb)]
      exact isNaN_pack _ (roundMag_le _ _)
    · rw [fmul_comm, fmul_of_isInf_left hb hna (fun hz => by simp [hza hz] at hb)]
      exact isNaN_pack _ le_rfl
  · rw [fmul_of_isInf_left ha hnb (hzb ha)]
    exact isNaN_pack _ le_rfl

theorem real_mul_real (a b : F32) :
    real a * real b = (if sign a != sign b then -1 else 1) * (((mag a * mag b : Nat) : ℝ) / (2 ^ 149 : Nat) / 2 ^ 149) := by
  rw [real_eq, real_eq, mag_eq_magOf, mag_eq_magOf]
  push_cast
  cases sign a <;> cases sign b <;> simp <;> ring

/-! ### NaN results -/

/-- An operation that gives the canonical NaN on the operands `P` and no NaN on others. -/
theorem isNaN_result {P : Prop} {r : F32} (hinv : P → r = nan) (hval : ¬ P → isNaN r = false) :
    (isNaN r = true → r = nan) ∧ (isNaN r = true ↔ P) := by
  by_cases h : P
  · rw [hinv h]
    exact ⟨fun _ => rfl, iff_of_true (by decide) h⟩
  · rw [hval h]
    exact ⟨nofun, iff_of_false nofun h⟩

end Sys2Proof.F32

namespace Sys2Proof

open Sys2Proof.F32 Sys2Proof.Machine

/-! ### The obligations on the arithmetic -/

/-- Settles O45: a finite product is the packed rounding of the product of the magnitudes. -/
theorem fmulCorrectlyRounded : Obligations.FmulCorrectlyRounded := by
  intro a b ha hb
  rw [fmul_of_isFinite ha hb]
  constructor
  · intro h
    have hmag : 0 < mag a * mag b := by
      rw [mul_ne_zero_iff, Ne, Ne, real_eq_zero_iff, real_eq_zero_iff] at h
      exact Nat.mul_pos (Nat.pos_of_ne_zero h.1) (Nat.pos_of_ne_zero h.2)
    exact pack_roundMag_isRN32 (Nat.two_pow_pos 149) hmag _ (real_mul_real a b)
  · intro h
    rw [mul_eq_zero, real_eq_zero_iff, real_eq_zero_iff, ← Nat.mul_eq_zero] at h
    rw [h, roundMag_zero, pack_zero]
    cases sign a <;> cases sign b <;> rfl

/-- Settles O46: subtraction is addition of the pattern with its sign turned. -/
theorem faddFsubCorrectlyRounded : Obligations.FaddFsubCorrectlyRounded := by
  intro a b ha hb
  obtain ⟨hadd, haddZero⟩ := fadd_rounds ha hb
  obtain ⟨hsub, hsubZero⟩ := fadd_rounds ha ((isFinite_neg b).trans hb)
  rw [real_neg, ← sub_eq_add_neg] at hsub hsubZero
  refine ⟨hadd, fun h => ?_, hsub, fun h => ?_⟩
  · rw [haddZero h]
    cases sign a <;> cases sign b <;> rfl
  · rw [fsub, hsubZero h, F32.sign_neg]
    cases sign a <;> cases sign b <;> rfl

/-- Settles O47: the canonical NaN exactly on the invalid operands, and the infinities from the case equations. -/
theorem nanResultsAreCanonical : Obligations.NanResultsAreCanonical := by
  intro a b
  obtain ⟨haddNan, haddIff⟩ := isNaN_result (@fadd_of_invalid a b) isNaN_fadd_of_valid
  obtain ⟨hsubNan, hsubIff⟩ := isNaN_result (@fadd_of_invalid a (neg b)) isNaN_fadd_of_valid
  obtain ⟨hmulNan, hmulIff⟩ := isNaN_result (@fmul_of_invalid a b) isNaN_fmul_of_valid
  refine ⟨haddNan, hsubNan, hmulNan, haddIff, hsubIff.trans faddInvalid_neg_right, hmulIff, fun ha hb =>
    ⟨fadd_of_isInf ha hb, fun hab => ?_, fun hz => ?_⟩⟩
  · obtain ⟨hleft, hright⟩ := fsub_of_isInf ha hb hab
    refine ⟨hleft, hright.trans ?_⟩
    rw [eq_pack_of_isInf ((isInf_neg a).trans ha), F32.sign_neg, pack_infMag]
    cases sign a <;> rfl
  · have hp : fmul a b = if sign a = sign b then 0x7F800000#32 else 0xFF800000#32 := by
      rw [fmul_of_isInf_left ha hb hz, pack_infMag]
      cases sign a <;> cases sign b <;> rfl
    exact ⟨hp, (fmul_comm b a).trans hp⟩

/-! ### The obligations on the designs -/

/-- Settles O28: the enclosures of the peaking section contain the exact formulas, and a settled one rounds as they do. -/
theorem peakDesignCorrectlyRounded : Obligations.PeakDesignCorrectlyRounded := by
  intro sr f q g hcontract hsettled
  exact Designer.section_rounds (fun _ _ => Designer.peakEncl_has hcontract) hsettled

/-- Settles O29: the same of the two kinds of cut section. -/
theorem cutDesignsCorrectlyRounded : Obligations.CutDesignsCorrectlyRounded := by
  intro sr f n k hcontract _ hk
  have hops := Designer.cutContract_operands hcontract
  exact ⟨Designer.section_rounds fun _ _ => Designer.highpassEncl_has hops hk,
    Designer.section_rounds fun _ _ => Designer.lowpassEncl_has hops hk⟩

end Sys2Proof

/-! # Family 10_state.md: the state, its invariant, and who writes each part of it

First the commands: what each can change, as a frame per shared operation. Then the address map, as an equation per word
and what an access of it does. The obligations follow from these two layers. -/

namespace Sys2Proof.Machine

/-! ### Chains whose cut filters keep their setting -/

/-- Two cut filters that differ at most in delay lines, of bypassed stages too. -/
structure Cut.SameButDelays (a b : Cut) : Prop where
  count  : b.count = a.count
  bypass : ∀ i, (b.stages.get i).bypass = (a.stages.get i).bypass
  cs     : ∀ i, (b.stages.get i).bq.cs = (a.stages.get i).bq.cs

/-- Two chains whose cut filters differ at most in delay lines. -/
structure Chain.SameCuts (a b : Chain) : Prop where
  low  : a.lowCut.SameButDelays b.lowCut
  high : a.highCut.SameButDelays b.highCut

theorem Cut.SameButDelays.refl (a : Cut) : a.SameButDelays a := ⟨rfl, fun _ => rfl, fun _ => rfl⟩

theorem Chain.SameCuts.refl (a : Chain) : a.SameCuts a := ⟨.refl _, .refl _⟩

theorem Cut.SameButDelays.inv {a b : Cut} (h : a.SameButDelays b) (ha : a.Inv) : b.Inv := by
  unfold Cut.Inv
  simp only [h.count, h.bypass]
  exact ha

theorem Chain.SameCuts.inv {a b : Chain} (h : a.SameCuts b) (ha : a.Inv) : b.Inv :=
  ⟨h.low.inv ha.1, h.high.inv ha.2⟩

theorem Chain.SameSetting.sameCuts {a b : Chain} (h : a.SameSetting b) : a.SameCuts b :=
  ⟨⟨h.lowCount, fun i => (h.low i).bypass, fun i => (h.low i).cs⟩,
    ⟨h.highCount, fun i => (h.high i).bypass, fun i => (h.high i).cs⟩⟩

theorem Cut.clear_sameButDelays (f : Cut) : f.SameButDelays f.clear where
  count := rfl
  bypass
    | 0 | 1 | 2 | _ + 3 => rfl
  cs
    | 0 | 1 | 2 | _ + 3 => rfl

theorem Chain.clear_sameCuts (h : Chain) : h.SameCuts h.clear :=
  ⟨h.lowCut.clear_sameButDelays, h.highCut.clear_sameButDelays⟩

theorem clearDelays_sameCuts (s : State) (c : Chan) : (s.chain c).SameCuts ((clearDelays s).chain c) := by
  rw [clearDelays_chain]
  exact (s.chain c).clear_sameCuts

theorem forChannels_setPeak_sameCuts (ch : ChMask) (cs : CoeffSet) (s : State) (c : Chan) :
    (s.chain c).SameCuts ((forChannels ch (setPeak cs) s).chain c) := by
  have one : ∀ (b : Bool) (h : Chain), h.SameCuts (if b then { h with peak := h.peak.install cs } else h) := by
    intro b h
    cases b <;> exact ⟨.refl _, .refl _⟩
  rw [forChannels_setPeak]
  cases c
  · exact one ch.left s.chainL
  · exact one ch.right s.chainR

/-! ### The block step, for a block of any length -/

/-- What the block step of PROCESS can change: the delay lines of enabled stages, the buffers, and what the model records. -/
structure BlockFrame (s t : State) : Prop where
  state   : t = { s with chainL := t.chainL, chainR := t.chainR, mem := t.mem, faults := t.faults, freeCount := t.freeCount }
  setting : ∀ c, (s.chain c).SameSetting (t.chain c)

theorem BlockFrame.refl (s : State) : BlockFrame s s := ⟨rfl, fun _ => .refl _⟩

theorem BlockFrame.trans {s t u : State} (h : BlockFrame s t) (g : BlockFrame t u) : BlockFrame s u := by
  refine ⟨?_, fun c => (h.setting c).trans (g.setting c)⟩
  have e := g.state
  rw [h.state] at e
  exact e

theorem processSample_blockFrame (c : Chan) (i : Nat) (s : State) : BlockFrame s (processSample c i s) := by
  obtain ⟨x, fs, k, he, -⟩ := processSample_cases c i s
  rw [he]
  refine ⟨by cases c <;> rfl, fun d => ?_⟩
  by_cases hd : d = c
  · subst hd
    have hself : State.chain { s.setChain d ((s.chain d).step x).2 with
        mem := s.mem.writeWord (bufAddr d i) ((s.chain d).step x).1, faults := fs, freeCount := k } d =
        ((s.chain d).step x).2 := by cases d <;> rfl
    rw [hself]
    exact chain_step_same _ _
  · have hother : State.chain { s.setChain c ((s.chain c).step x).2 with
        mem := s.mem.writeWord (bufAddr c i) ((s.chain c).step x).1, faults := fs, freeCount := k } d = s.chain d := by
      rw [← setChain_chain_other s c d ((s.chain c).step x).2 hd]
      cases d <;> rfl
    rw [hother]
    exact .refl _

theorem processFrom_blockFrame (c : Chan) (n i : Nat) (s : State) : BlockFrame s (processFrom c n i s) := by
  induction n generalizing i s with
  | zero => exact .refl s
  | succ n ih => exact (processSample_blockFrame c i s).trans (ih _ _)

theorem processBlock_blockFrame (ch : ChMask) (len : Nat) (s : State) : BlockFrame s (processBlock ch len s) := by
  have one : ∀ (b : Bool) (c : Chan) (s : State), BlockFrame s (if b then processFrom c len 0 s else s) := by
    intro b c s
    cases b
    · exact .refl s
    · exact processFrom_blockFrame c len 0 s
  exact (one (selects ch .left) .left s).trans (one (selects ch .right) .right _)

/-! ### UPDATE -/

/-- What the eight steps of UPDATE, and Host-P's turns around them, can change. -/
def UpdateFrame (s t : State) : Prop :=
  t = { s with
    lowcutFreq := t.lowcutFreq, highcutFreq := t.highcutFreq, peakFreq := t.peakFreq, peakGainDb := t.peakGainDb,
    peakQ := t.peakQ, lowcutSlope := t.lowcutSlope, highcutSlope := t.highcutSlope, latch := t.latch,
    hostP := t.hostP, readsP := t.readsP, chainL := t.chainL, chainR := t.chainR, faults := t.faults,
    freeCount := t.freeCount }

/-- What UPDATE can change without Host-P. -/
def InstallFrame (s t : State) : Prop :=
  t = { s with latch := t.latch, chainL := t.chainL, chainR := t.chainR, faults := t.faults, freeCount := t.freeCount }

theorem UpdateFrame.trans {s t u : State} (h : UpdateFrame s t) (g : UpdateFrame t u) : UpdateFrame s u := by
  unfold UpdateFrame at *
  rw [h] at g
  exact g

theorem InstallFrame.trans {s t u : State} (h : InstallFrame s t) (g : InstallFrame t u) : InstallFrame s u := by
  unfold InstallFrame at *
  rw [h] at g
  exact g

theorem ParamFrame.updateFrame {s t : State} (h : ParamFrame s t) : UpdateFrame s t := by
  unfold UpdateFrame
  rw [h]

theorem InstallFrame.updateFrame {s t : State} (h : InstallFrame s t) : UpdateFrame s t := by
  unfold UpdateFrame
  rw [h]

theorem designInstall_installFrame (d : Design) (cmd : Instr) (s : State) : InstallFrame s (designInstall d cmd s) := by
  obtain ⟨p, l, h, k, he, -⟩ := designInstall_eq d cmd s
  rw [he]
  rfl

/-- The seven read steps and the turn after them, as one. -/
theorem snapshotReads_frame (s : State) : ParamFrame s (paramTurn (snapshotPhase s)) :=
  (snapshotPhase_frame s).trans (paramTurn_frame _)

theorem updateSteps_updateFrame (d : Design) (cmd : Instr) (s : State) : UpdateFrame s (updateSteps d cmd s) :=
  (snapshotReads_frame s).updateFrame.trans (designInstall_installFrame d cmd _).updateFrame

/-- The parameters as they stand, in the form of a snapshot. -/
def State.parameters (s : State) : Snapshot :=
  { pf := s.peakFreq, pq := s.peakQ, pg := s.peakGainDb, lf := s.lowcutFreq, ls := s.lowcutSlope, hf := s.highcutFreq,
    hs := s.highcutSlope }

/-- With no access of Host-P to come, the snapshot is the parameters as they stand. -/
theorem snapshotPhase_idle {s : State} (h : s.hostP = []) : snapshotPhase s = { s with latch := s.parameters } := by
  simp [snapshotPhase, paramTurn_idle, latchPeakFreq, latchPeakQ, latchPeakGain, latchLowFreq, latchLowSlope,
    latchHighFreq, latchHighSlope, State.parameters, h]

theorem updateSteps_idle (d : Design) (cmd : Instr) {s : State} (h : s.hostP = []) :
    InstallFrame s (updateSteps d cmd s) := by
  have hlatch : InstallFrame s { s with latch := s.parameters } := rfl
  unfold updateSteps
  rw [snapshotPhase_idle h, paramTurn_idle (s := { s with latch := s.parameters }) h]
  exact hlatch.trans (designInstall_installFrame d cmd _)

/-- The parameter registers, and what belongs to Host-P, are as they were. -/
def ParametersKept (s t : State) : Prop :=
  t.lowcutFreq = s.lowcutFreq ∧ t.highcutFreq = s.highcutFreq ∧ t.peakFreq = s.peakFreq ∧
  t.peakGainDb = s.peakGainDb ∧ t.peakQ = s.peakQ ∧ t.lowcutSlope = s.lowcutSlope ∧
  t.highcutSlope = s.highcutSlope ∧ t.hostP = s.hostP ∧ t.readsP = s.readsP

theorem updateSteps_parametersKept (d : Design) (cmd : Instr) {s : State} (h : s.hostP = []) :
    ParametersKept s (updateSteps d cmd s) := by
  rw [updateSteps_idle d cmd h]
  exact ⟨rfl, rfl, rfl, rfl, rfl, rfl, rfl, rfl, rfl⟩

/-- UPDATE and the turn after it, as PROCESS with U = 1 runs them. -/
theorem paramTurn_updateSteps_frame (d : Design) (cmd : Instr) (s : State) :
    UpdateFrame s (paramTurn (updateSteps d cmd s)) :=
  (updateSteps_updateFrame d cmd s).trans (paramTurn_frame _).updateFrame

theorem paramTurn_updateSteps_parametersKept (d : Design) (cmd : Instr) {s : State} (h : s.hostP = []) :
    ParametersKept s (paramTurn (updateSteps d cmd s)) := by
  have hhostP : (updateSteps d cmd s).hostP = [] := by
    rw [updateSteps_idle d cmd h]
    exact h
  rw [paramTurn_idle hhostP]
  exact updateSteps_parametersKept d cmd h

/-! ### The design commands -/

/-- What a design command for `n` sections does: it writes DOUT and DESIGN_N, and the model may record. -/
def DesignFrame (n : Nat) (s t : State) : Prop :=
  t = { s with dout := t.dout, designN := BitVec.ofNat 3 n, faults := t.faults, freeCount := t.freeCount }

theorem DesignFrame.chain {n : Nat} {s t : State} (h : DesignFrame n s t) (c : Chan) : t.chain c = s.chain c := by
  rw [h]
  cases c <;> rfl

theorem designPeakWith_frame (d : Design) (s : State) : DesignFrame 1 s (designPeakWith d s) := by
  unfold DesignFrame designPeakWith
  dsimp only
  rw [peakSet_state, recordUnless_eq]
  rfl

theorem designCutWith_frame (sect : F32 → F32 → Nat → Nat → CoeffSet) (cmd : Instr) (n : Nat) (s : State) :
    DesignFrame n s (designCutWith sect cmd n s) := by
  unfold DesignFrame designCutWith
  dsimp only
  rw [cutSets_state, recordUnless_eq]
  rfl

/-! ### The two commands that can raise an error -/

theorem execPrepare_next {s t : State} (h : execPrepare s = .next t) :
    (prepareAccepts s = true ∧ t = clearDelays { s with sr := s.srReq, maxblk := s.maxblkReq }) ∨
    t = raiseError badPrepare s := by
  unfold execPrepare at h
  split at h
  · rename_i ha
    exact .inl ⟨ha, (Host.Outcome.next.inj h).symm⟩
  · exact .inr (Host.Outcome.next.inj h).symm

theorem execProcess_next {ch : ChMask} {u : Bool} {len : Nat} {s t : State} (h : execProcess ch u len s = .next t) :
    (lengthAccepted s len = true ∧ t = processBlock ch len
      (if u then paramTurn (updateSteps Config.design (.process ch u len) s) else s)) ∨
    t = raiseError badLength s := by
  unfold execProcess at h
  split at h
  · rename_i ha
    exact .inl ⟨ha, (Host.Outcome.next.inj h).symm⟩
  · exact .inr (Host.Outcome.next.inj h).symm

/-! ### The address map -/

theorem mem_registerMap_of_lookup {b : Nat} {l : Loc} (h : registerMap.lookup b = some l) : (b, l) ∈ registerMap := by
  obtain ⟨before, after, e, -⟩ := List.lookup_eq_some_iff.mp h
  rw [e]
  exact List.mem_append_right _ List.mem_cons_self

/-- The words of the map, region by region (20_memory.md R66). -/
theorem locAt_cases (b : Nat) :
    (b, locAt b) ∈ registerMap ∨ (∃ k j, locAt b = .dout k j) ∨ (∃ c slot j, locAt b = .stage c slot j) ∨
    (∃ c, locAt b = .lcn c ∨ locAt b = .hcn c) ∨ locAt b = .reserved ∨
    (0x2000 ≤ b ∧ locAt b = .buf (chanAt ((b - 0x2000) / 0x1000)) ((b - 0x2000) % 0x1000 / 4)) := by
  unfold locAt stageLoc
  split_ifs
  · cases h : registerMap.lookup b with
    | some l => exact .inl (mem_registerMap_of_lookup h)
    | none => simp
  all_goals simp
  omega

/-- STATUS is at no address but its own; the next two say so of CMD and of the buffers. -/
theorem locAt_eq_status {b : Nat} (h : locAt b = .status) : b = 0x0004 := by
  have := locAt_cases b
  rw [h] at this
  simpa [registerMap] using this

theorem locAt_eq_cmd {b : Nat} (h : locAt b = .cmd) : b = 0x0008 := by
  have := locAt_cases b
  rw [h] at this
  simpa [registerMap] using this

theorem locAt_eq_buf {b i : Nat} {c : Chan} (h : locAt b = .buf c i) :
    0x2000 ≤ b ∧ c = chanAt ((b - 0x2000) / 0x1000) ∧ i = (b - 0x2000) % 0x1000 / 4 := by
  have := locAt_cases b
  rw [h] at this
  simpa [registerMap] using this

theorem locAt_buf {b : Nat} (h : 0x2000 ≤ b) :
    locAt b = .buf (chanAt ((b - 0x2000) / 0x1000)) ((b - 0x2000) % 0x1000 / 4) := by
  unfold locAt
  rw [if_neg (by omega), if_neg (by omega), if_neg (by omega), if_neg (by omega), if_neg (by omega)]

theorem locOf_eq {a : Addr} {b : Nat} (h : a.toNat / 4 * 4 = b) : locOf a = locAt b := congrArg locAt h

theorem locOf_eq_status {a : Addr} (h : locOf a = .status) : a.toNat / 4 = 1 := by
  have : wordAddr a = 0x0004 := locAt_eq_status h
  unfold wordAddr at this
  omega

theorem locOf_eq_cmd_iff {a : Addr} : locOf a = .cmd ↔ a.toNat / 4 = 2 := by
  constructor
  · intro h
    have : wordAddr a = 0x0008 := locAt_eq_cmd h
    unfold wordAddr at this
    omega
  · intro h
    exact locOf_eq (b := 0x0008) (by omega)

theorem locOf_eq_buf {a : Addr} {c : Chan} {i : Nat} (h : locOf a = .buf c i) : 0x2000 ≤ a.toNat ∧ i < 1024 := by
  obtain ⟨hlo, -, hi⟩ := locAt_eq_buf h
  unfold wordAddr at hlo hi
  omega

/-- An address of the buffer region is that of one buffer word. -/
theorem locOf_buf {a : Addr} (h : 0x2000 ≤ a.toNat) : ∃ c i, locOf a = .buf c i ∧ bufAddr c i = a.toNat / 4 * 4 := by
  have hlt := a.isLt
  refine ⟨_, _, locAt_buf (by unfold wordAddr; omega), ?_⟩
  unfold bufAddr chanAt wordAddr
  split
  · simp only [Chan.num]
    omega
  · simp only [Chan.num]
    omega

/-! ### Accesses of Host-A, by the word they reach -/

theorem hostAWrite_cmd {a : Addr} (h : locOf a = .cmd) (v : Word) (s : State) : hostAWrite a v s = execute v s := by
  unfold hostAWrite
  rw [h]

theorem hostAWrite_of_ne_cmd {a : Addr} (h : locOf a ≠ .cmd) (v : Word) (s : State) :
    hostAWrite a v s = .next (writeLoc (locOf a) v s) := by
  unfold hostAWrite
  split
  · contradiction
  · rfl

/-- A write of the word at `b`, by any of its byte addresses. -/
theorem hostAWrite_at {a : Addr} {b : Nat} (hb : a.toNat / 4 * 4 = b) (hcmd : locAt b ≠ .cmd) (v : Word) (s : State) :
    hostAWrite a v s = .next (writeLoc (locAt b) v s) := by
  rw [hostAWrite_of_ne_cmd (by rwa [locOf_eq hb]), locOf_eq hb]

/-- A read of the word at `b` below the buffers, by any of its byte addresses. -/
theorem hostARead_at {a : Addr} {b : Nat} (hb : a.toNat / 4 * 4 = b) (hlt : b < 0x2000) (s : State) :
    hostARead a s = { s with readsA := plainWord s (locAt b) :: s.readsA } := by
  unfold hostARead readLoc
  rw [locOf_eq hb]
  split
  · rename_i h
    exact absurd (locAt_eq_buf h).1 (by omega)
  · rfl

theorem readLoc_state (l : Loc) (s : State) :
    (readLoc l s).2 = { s with faults := (readLoc l s).2.faults, freeCount := (readLoc l s).2.freeCount } := by
  unfold readLoc
  split
  · unfold readBuf
    split
    · rfl
    · dsimp only
      rw [record_eq]
      rfl
  · rfl

/-- What a Host-A write of a word other than CMD can change. -/
def HostAWriteFrame (s t : State) : Prop :=
  t = { s with
    err := t.err, errCode := t.errCode, srReq := t.srReq, maxblkReq := t.maxblkReq, lowcutFreq := t.lowcutFreq,
    highcutFreq := t.highcutFreq, peakFreq := t.peakFreq, peakGainDb := t.peakGainDb, peakQ := t.peakQ,
    lowcutSlope := t.lowcutSlope, highcutSlope := t.highcutSlope, argSr := t.argSr, argFreq := t.argFreq,
    argQ := t.argQ, argGainDb := t.argGainDb, mem := t.mem }

theorem writeLoc_frame (l : Loc) (v : Word) (s : State) : HostAWriteFrame s (writeLoc l v s) := by
  unfold HostAWriteFrame writeLoc
  split
  case h_1 => split <;> rfl
  case h_9 => rw [writeParam_frame]
  all_goals rfl

/-- A Host-A write changes STATUS at its own word only, by clearing it. -/
theorem writeLoc_status (l : Loc) (v : Word) (s : State) :
    (writeLoc l v s).err = s.err ∧ (writeLoc l v s).errCode = s.errCode ∨
    l = .status ∧ (writeLoc l v s).err = false ∧ (writeLoc l v s).errCode = 0#4 := by
  unfold writeLoc
  split
  case h_1 =>
    split
    · exact .inr ⟨rfl, rfl, rfl⟩
    · exact .inl ⟨rfl, rfl⟩
  case h_9 => exact .inl (by rw [writeParam_paramFrame]; exact ⟨rfl, rfl⟩)
  all_goals exact .inl ⟨rfl, rfl⟩

/-- A Host-A write changes the buffers at their own words only. -/
theorem writeLoc_mem {l : Loc} (h : ∀ c i, l ≠ .buf c i) (v : Word) (s : State) : (writeLoc l v s).mem = s.mem := by
  unfold writeLoc
  split
  case h_1 => split <;> rfl
  case h_8 => exact absurd rfl (h _ _)
  case h_9 => rw [writeParam_paramFrame]
  all_goals rfl

/-! ### The turns a step takes -/

theorem step_of_hostP_nil {s : State} (h : s.hostP = []) : step s = controlTurn s := by
  simp only [step, turn, h]

theorem step_of_hostP_yield {s : State} {p : List ParamInput} (h : s.hostP = .yield :: p) :
    step s = controlTurn { s with hostP := p } := by
  simp only [step, turn, h]

theorem controlTurn_reset {s : State} {rest : List ControlInput} (h : s.hostA = .reset :: rest) :
    controlTurn s = .next (resetEvent { s with hostA := rest }) := by
  simp only [controlTurn, h]

theorem controlTurn_write {s : State} {a : Addr} {v : Word} {rest : List ControlInput}
    (h : s.hostA = .write a v :: rest) : controlTurn s = hostAWrite a v { s with hostA := rest } := by
  simp only [controlTurn, h]

/-! ### The words of STATUS, of the stage file and of DOUT -/

/-- STATUS bit by bit (10_state.md R32). -/
theorem statusWord_getLsbD (s : State) {k : Nat} (h : k < 32) :
    (statusWord s).getLsbD k = if k < 4 then decide (k = 0) && s.err else s.errCode.getLsbD (k - 4) := by
  have hbit : ((if s.err then 1 else 0) : Nat) = s.err.toNat := by cases s.err <;> rfl
  have herr : s.err.toNat < 2 ^ 4 := by cases s.err <;> decide
  have hsum : (if s.err then 1 else 0) + s.errCode.toNat * 2 ^ 4 = 2 ^ 4 * s.errCode.toNat + s.err.toNat := by
    rw [hbit]
    omega
  rw [statusWord, BitVec.getLsbD_ofNat, hsum, Nat.testBit_two_pow_mul_add _ herr]
  simp only [h, decide_true, Bool.true_and, Nat.testBit_bool_toNat, BitVec.testBit_toNat]

theorem statusWord_err (s : State) : (statusWord s).getLsbD 0 = s.err := by
  rw [statusWord_getLsbD s (by decide)]
  simp

theorem statusWord_errCode (s : State) : (statusWord s).extractLsb' 4 4 = s.errCode := by
  ext k hk
  simp [statusWord_getLsbD s (show 4 + k < 32 by omega), hk]

theorem statusWord_reserved (s : State) {k : Nat} (hk : (1 ≤ k ∧ k < 4) ∨ 8 ≤ k) : (statusWord s).getLsbD k = false := by
  by_cases hlt : k < 32
  · rw [statusWord_getLsbD s hlt]
    split
    · simp [show k ≠ 0 by omega]
    · exact BitVec.getLsbD_of_ge _ _ (by omega)
  · exact BitVec.getLsbD_of_ge _ _ (by omega)

/-- A Host-A read of the byte address `b` returns `v` and has no side effect. -/
def ReadsAt (s : State) (b : Nat) (v : Word) : Prop :=
  ∀ a : Addr, a.toNat = b → hostARead a s = { s with readsA := v :: s.readsA }

/-- The five coefficient words from `base` on read as `cs`. -/
def ReadsSet (s : State) (base : Nat) (cs : CoeffSet) : Prop :=
  ReadsAt s base cs.b0 ∧ ReadsAt s (base + 0x04) cs.b1 ∧ ReadsAt s (base + 0x08) cs.b2 ∧ ReadsAt s (base + 0x0C) cs.a1 ∧
  ReadsAt s (base + 0x10) cs.a2

/-- The eight words of a stage record at `base` (10_state.md R24). -/
def ReadsRecord (s : State) (base : Nat) (bq : Biquad) (bypass : Bool) : Prop :=
  ReadsSet s base bq.cs ∧ ReadsAt s (base + 0x14) bq.s1 ∧ ReadsAt s (base + 0x18) bq.s2 ∧
  ReadsAt s (base + 0x1C) (if bypass then 0x00000001#32 else 0x00000000#32)

theorem readsAt_of_locAt {b : Nat} {l : Loc} (hloc : locAt b = l) (h4 : b % 4 = 0) (hlt : b < 0x2000) (s : State) :
    ReadsAt s b (plainWord s l) := by
  intro a ha
  rw [hostARead_at (b := b) (by omega) hlt, hloc]

theorem chanAt_num (c : Chan) : chanAt c.num = c := by cases c <;> rfl

theorem chan_num_lt (c : Chan) : c.num < 2 := by cases c <;> decide

theorem locAt_stageRegion (c : Chan) {off : Nat} (h : off < 0x200) :
    locAt (0x1000 + 0x200 * c.num + off) = stageLoc c off := by
  have hc := chan_num_lt c
  unfold locAt
  rw [if_neg (by omega), if_neg (by omega), if_neg (by omega), if_pos (by omega),
    show (0x1000 + 0x200 * c.num + off - 0x1000) / 0x200 = c.num by omega, chanAt_num,
    show (0x1000 + 0x200 * c.num + off - 0x1000) % 0x200 = off by omega]

theorem readsAt_slotWord (s : State) (c : Chan) {slot j : Nat} (hslot : slot < 9) (hj : j < 8) :
    ReadsAt s (0x1000 + 0x200 * c.num + (0x20 * slot + 4 * j)) (slotWord (s.chain c) slot j) := by
  have hc := chan_num_lt c
  have hloc : stageLoc c (0x20 * slot + 4 * j) = .stage c slot j := by
    unfold stageLoc
    rw [if_pos (by omega), show (0x20 * slot + 4 * j) / 0x20 = slot by omega,
      show (0x20 * slot + 4 * j) % 0x20 / 4 = j by omega]
  exact readsAt_of_locAt ((locAt_stageRegion c (by omega)).trans hloc) (by omega) (by omega) s

theorem readsRecord_slot (s : State) (c : Chan) {slot : Nat} (hslot : slot < 9) {bq : Biquad} {bypass : Bool}
    (hrecord : ∀ j, slotWord (s.chain c) slot j = recordWord bq bypass j) :
    ReadsRecord s (0x1000 + 0x200 * c.num + 0x20 * slot) bq bypass := by
  have word : ∀ j, j < 8 → ReadsAt s (0x1000 + 0x200 * c.num + 0x20 * slot + 4 * j) (recordWord bq bypass j) := by
    intro j hj
    rw [← hrecord, Nat.add_assoc]
    exact readsAt_slotWord s c hslot hj
  exact ⟨⟨word 0 (by decide), word 1 (by decide), word 2 (by decide), word 3 (by decide), word 4 (by decide)⟩,
    word 5 (by decide), word 6 (by decide), word 7 (by decide)⟩

theorem locAt_dout {k j : Nat} (hk : k < 4) (hj : j < 8) :
    locAt (0x0080 + 0x20 * k + 4 * j) = if j < 5 then .dout k j else .reserved := by
  unfold locAt
  rw [if_neg (by omega), if_pos (by omega), show (0x0080 + 0x20 * k + 4 * j - 0x80) / 0x20 = k by omega,
    show (0x0080 + 0x20 * k + 4 * j - 0x80) % 0x20 / 4 = j by omega]

/-- Word `j` of entry `k` of DOUT, its words 5 to 7 included (10_state.md R39). -/
theorem readsAt_dout (s : State) {k j : Nat} (hk : k < 4) (hj : j < 8) :
    ReadsAt s (0x0080 + 0x20 * k + 4 * j) (csWord (s.dout.get k) j) := by
  have hword : plainWord s (if j < 5 then .dout k j else .reserved) = csWord (s.dout.get k) j := by
    split
    · rfl
    · have : j = 5 ∨ j = 6 ∨ j = 7 := by omega
      rcases this with rfl | rfl | rfl <;> rfl
  rw [← hword]
  exact readsAt_of_locAt (locAt_dout hk hj) (by omega) (by omega) s

end Sys2Proof.Machine

namespace Sys2Proof

/-! ### Decoded commands -/

/-- A decoded command has operands that fit their fields (30_encoding.md R91). -/
theorem decode_wf {w : Word} {i : Instr} (h : decode w = .ok i) : i.wf = true := by
  have hcount : stageCountOk (field w 6 2 + 1) = true := by
    have : field w 6 2 < 4 := Nat.mod_lt _ (by decide)
    exact stageCountOk_iff.mpr ⟨by omega, by omega⟩
  have hlen : lengthOk (field w 16 11) = true := by
    have : field w 16 11 < 2048 := Nat.mod_lt _ (by decide)
    exact lengthOk_iff.mpr (by omega)
  unfold decode at h
  dsimp only at h
  split at h
  · cases h
  · split at h
    case h_12 => cases h
    all_goals obtain ⟨-, rfl⟩ := accept_ok.mp h
    case h_5 => exact hlen
    case h_7 | h_8 | h_10 | h_11 => exact hcount
    all_goals rfl

end Sys2Proof

namespace Sys2Proof.Machine

/-! ### The invariant -/

theorem Cut.reset_inv : Cut.reset.Inv := by
  unfold Cut.Inv
  decide

theorem Chain.reset_inv : Chain.reset.Inv := ⟨Cut.reset_inv, Cut.reset_inv⟩

theorem Memory.inBuffers_nil : Memory.inBuffers [] := ⟨rfl, by simp, fun _ _ _ _ => Iff.rfl⟩

theorem State.reset_inv : State.reset.Inv where
  left := Chain.reset_inv
  right := Chain.reset_inv
  status := by unfold State.statusLegal; decide
  rate := by decide +kernel
  block := by decide
  designN := by decide
  buffers := Memory.inBuffers_nil

theorem ParamFrame.inv {s t : State} (h : ParamFrame s t) (hs : s.Inv) : t.Inv := by
  rw [h]
  exact { hs with }

theorem raiseError_inv {code : BitVec 4} (hcode : 1 ≤ code.toNat ∧ code.toNat ≤ 3) {s : State} (hs : s.Inv) :
    (raiseError code s).Inv := by
  unfold raiseError
  split
  · exact hs
  · exact { hs with status := ⟨nofun, fun _ => hcode⟩ }

theorem clearError_inv {s : State} (hs : s.Inv) : (clearError s).Inv :=
  { hs with status := ⟨fun _ => rfl, nofun⟩ }

theorem clearDelays_inv {s : State} (hs : s.Inv) : (clearDelays s).Inv :=
  { hs with left := s.chainL.clear_sameCuts.inv hs.left, right := s.chainR.clear_sameCuts.inv hs.right }

theorem prepareAccepts_iff {s : State} :
    prepareAccepts s = true ↔
      F32.finitePos s.srReq = true ∧ 1 ≤ s.maxblkReq.toNat ∧ s.maxblkReq.toNat ≤ Config.bufDepth := by
  unfold prepareAccepts
  simp [and_assoc]

theorem execPrepare_inv {s t : State} (hs : s.Inv) (h : execPrepare s = .next t) : t.Inv := by
  rcases execPrepare_next h with ⟨ha, rfl⟩ | rfl
  · obtain ⟨hrate, hblock⟩ := prepareAccepts_iff.mp ha
    exact clearDelays_inv { hs with rate := hrate, block := hblock }
  · exact raiseError_inv (by decide) hs

/-- Slopes of legal stage counts in both cut filters give a chain that meets the invariant. -/
theorem Chain.installed_inv (nl nh : BitVec 2) (p : CoeffSet) (l h : Four CoeffSet) (c : Chain) :
    (c.installed (slopeCount nl) (slopeCount nh) p l h).Inv :=
  ⟨setSlope_inv _ l c.lowCut (slopeCount_range nl).1 (slopeCount_range nl).2,
    setSlope_inv _ h c.highCut (slopeCount_range nh).1 (slopeCount_range nh).2⟩

theorem updateSteps_inv (d : Design) (cmd : Instr) {s : State} (hs : s.Inv) : (updateSteps d cmd s).Inv := by
  obtain ⟨p, l, h, k, he, -⟩ := designInstall_eq d cmd (paramTurn (snapshotPhase s))
  unfold updateSteps
  rw [he]
  exact { (snapshotReads_frame s).inv hs with left := Chain.installed_inv .., right := Chain.installed_inv .. }

theorem processBlock_inv (ch : ChMask) {len : Nat} {s : State} (hlen : len ≤ 1024) (hs : s.Inv) :
    (processBlock ch len s).Inv := by
  have hsetting := (processBlock_blockFrame ch len s).setting
  obtain ⟨xs, fs, k, hxs, he, -⟩ := processBlock_cases ch len s hlen
  have hmem := storeBlock_inBuffers ch (fun c => (runChain (s.chain c) (xs c)).1) s.mem
    (fun c => by rw [runChain_length, hxs]; exact hlen) hs.buffers
  have hleft := (hsetting .left).sameCuts.inv hs.left
  have hright := (hsetting .right).sameCuts.inv hs.right
  rw [he] at hleft hright ⊢
  exact { hs with left := hleft, right := hright, buffers := hmem }

theorem lengthAccepted_iff {s : State} {len : Nat} : lengthAccepted s len = true ↔ 1 ≤ len ∧ len ≤ s.maxblk.toNat := by
  unfold lengthAccepted
  simp

theorem execProcess_inv {ch : ChMask} {u : Bool} {len : Nat} {s t : State} (hs : s.Inv)
    (h : execProcess ch u len s = .next t) : t.Inv := by
  rcases execProcess_next h with ⟨ha, rfl⟩ | rfl
  · have hlen : len ≤ 1024 := (lengthAccepted_iff.mp ha).2.trans hs.block.2
    refine processBlock_inv ch hlen ?_
    split
    · exact (paramTurn_frame _).inv (updateSteps_inv _ _ hs)
    · exact hs
  · exact raiseError_inv (by decide) hs

theorem DesignFrame.inv {n : Nat} (hn : n ≤ 4) {s t : State} (h : DesignFrame n s t) (hs : s.Inv) : t.Inv := by
  rw [h]
  exact { hs with designN := (count_toNat hn).le.trans hn }

/-- A loop over the selected channels keeps what each pass keeps. -/
theorem forChannels_inv (ch : ChMask) {f : Chan → State → State} (hf : ∀ c s, s.Inv → (f c s).Inv) {s : State}
    (hs : s.Inv) : (forChannels ch f s).Inv := by
  have one : ∀ (b : Bool) (c : Chan) {s : State}, s.Inv → (if b then f c s else s).Inv := by
    intro b c s hs
    cases b
    · exact hs
    · exact hf c s hs
  exact one _ .right (one _ .left hs)

theorem State.Inv.chain {s : State} (hs : s.Inv) : ∀ c, (s.chain c).Inv
  | .left => hs.left
  | .right => hs.right

theorem setChain_inv {s : State} (hs : s.Inv) {v : Chain} (hv : v.Inv) : ∀ c, (s.setChain c v).Inv
  | .left => { hs with left := hv }
  | .right => { hs with right := hv }

theorem setPeak_inv (cs : CoeffSet) (c : Chan) (s : State) (hs : s.Inv) : (setPeak cs c s).Inv :=
  setChain_inv hs (v := { s.chain c with peak := (s.chain c).peak.install cs }) (hs.chain c) c

theorem setLowCut_inv {n : Nat} (hn : 1 ≤ n ∧ n ≤ 4) (seq : Four CoeffSet) (c : Chan) (s : State) (hs : s.Inv) :
    (setLowCut n seq c s).Inv :=
  setChain_inv hs (v := { s.chain c with lowCut := (s.chain c).lowCut.setSlope n seq })
    ⟨setSlope_inv n seq _ hn.1 hn.2, (hs.chain c).2⟩ c

theorem setHighCut_inv {n : Nat} (hn : 1 ≤ n ∧ n ≤ 4) (seq : Four CoeffSet) (c : Chan) (s : State) (hs : s.Inv) :
    (setHighCut n seq c s).Inv :=
  setChain_inv hs (v := { s.chain c with highCut := (s.chain c).highCut.setSlope n seq })
    ⟨(hs.chain c).1, setSlope_inv n seq _ hn.1 hn.2⟩ c

/-- Every well-formed command keeps the invariant. -/
theorem exec_inv {i : Instr} (hi : i.wf = true) {s t : State} (hs : s.Inv) (h : exec i s = .next t) : t.Inv := by
  cases i with
  | prepare => exact execPrepare_inv hs h
  | process ch u len => exact execProcess_inv hs h
  | nop => exact Host.Outcome.next.inj h ▸ hs
  | release => exact Host.Outcome.next.inj h ▸ clearDelays_inv hs
  | update => exact Host.Outcome.next.inj h ▸ updateSteps_inv _ _ hs
  | designPeak => exact Host.Outcome.next.inj h ▸ (designPeakWith_frame _ s).inv (by decide) hs
  | designLc n => exact Host.Outcome.next.inj h ▸ (designCutWith_frame _ _ n s).inv (stageCountOk_iff.mp hi).2 hs
  | designHc n => exact Host.Outcome.next.inj h ▸ (designCutWith_frame _ _ n s).inv (stageCountOk_iff.mp hi).2 hs
  | setPeak ch => exact Host.Outcome.next.inj h ▸ forChannels_inv ch (setPeak_inv _) hs
  | setLc ch n => exact Host.Outcome.next.inj h ▸ forChannels_inv ch (setLowCut_inv (stageCountOk_iff.mp hi) _) hs
  | setHc ch n => exact Host.Outcome.next.inj h ▸ forChannels_inv ch (setHighCut_inv (stageCountOk_iff.mp hi) _) hs

theorem execute_inv (w : Word) {s t : State} (hs : s.Inv) (h : execute w s = .next t) : t.Inv := by
  unfold execute at h
  split at h
  · rename_i i hi
    exact exec_inv (decode_wf hi) hs h
  · obtain rfl := Host.Outcome.next.inj h
    exact raiseError_inv (by decide) hs

theorem writeBuf_inv (c : Chan) {i : Nat} (hi : i < 1024) (w : Word) {s : State} (hs : s.Inv) : (writeBuf c i w s).Inv := by
  obtain ⟨hlo, hhi⟩ := bufAddr_range c i hi
  exact { hs with buffers := Memory.inBuffers_writeWord _ _ w hs.buffers (bufAddr_aligned c i) hlo hhi }

theorem writeLoc_inv {l : Loc} (hl : ∀ c i, l = .buf c i → i < 1024) (v : Word) {s : State} (hs : s.Inv) :
    (writeLoc l v s).Inv := by
  unfold writeLoc
  split
  case h_1 =>
    split
    · exact clearError_inv hs
    · exact hs
  case h_8 => exact writeBuf_inv _ (hl _ _ rfl) v hs
  case h_9 => exact (writeParam_paramFrame _ v s).inv hs
  all_goals exact { hs with }

theorem hostAWrite_inv (a : Addr) (v : Word) {s t : State} (hs : s.Inv) (h : hostAWrite a v s = .next t) : t.Inv := by
  by_cases hcmd : locOf a = .cmd
  · rw [hostAWrite_cmd hcmd] at h
    exact execute_inv v hs h
  · rw [hostAWrite_of_ne_cmd hcmd] at h
    obtain rfl := Host.Outcome.next.inj h
    exact writeLoc_inv (fun _ _ e => (locOf_eq_buf e).2) v hs

theorem hostARead_inv (a : Addr) {s : State} (hs : s.Inv) : (hostARead a s).Inv := by
  unfold hostARead
  dsimp only
  rw [readLoc_state]
  exact { hs with }

theorem resetEvent_inv (s : State) : (resetEvent s).Inv := { State.reset_inv with }

/-- The accesses still to come are no part of the invariant. -/
theorem State.Inv.queues {s : State} (hs : s.Inv) (a : List ControlInput) (p : List ParamInput) :
    State.Inv { s with hostA := a, hostP := p } :=
  { hs with }

theorem controlTurn_inv {s t : State} (hs : s.Inv) (h : controlTurn s = .next t) : t.Inv := by
  unfold controlTurn at h
  split at h
  · obtain rfl := Host.Outcome.next.inj h
    exact hs
  · obtain rfl := Host.Outcome.next.inj h
    exact resetEvent_inv _
  · obtain rfl := Host.Outcome.next.inj h
    exact hostARead_inv _ (hs.queues _ _)
  · exact hostAWrite_inv _ _ (hs.queues _ _) h

/-- Every turn keeps the invariant, whoever takes it. -/
theorem turn_inv {s t : State} (hs : s.Inv) (h : turn s = .next t) : t.Inv := by
  unfold turn at h
  split at h
  · exact controlTurn_inv hs h
  · exact controlTurn_inv (hs.queues _ _) h
  · obtain rfl := Host.Outcome.next.inj h
    exact { hs with }
  · obtain rfl := Host.Outcome.next.inj h
    exact (writeParam_paramFrame _ _ _).inv (hs.queues _ _)

/-! ### Which commands keep the setting of the cut filters -/

/-- Every command but SET.LC, SET.HC and UPDATE keeps the stage counts, bypass bits and coefficients of the cut filters. -/
theorem exec_sameCuts {i : Instr} {s t : State} (h : exec i s = .next t) (hupdate : i ≠ .update)
    (hset : ∀ ch n, i ≠ .setLc ch n ∧ i ≠ .setHc ch n) (hprocess : ∀ ch len, i ≠ .process ch true len) (c : Chan) :
    (s.chain c).SameCuts (t.chain c) := by
  cases i with
  | update => exact absurd rfl hupdate
  | setLc ch n => exact absurd rfl (hset ch n).1
  | setHc ch n => exact absurd rfl (hset ch n).2
  | nop => exact Host.Outcome.next.inj h ▸ .refl _
  | prepare =>
    rcases execPrepare_next h with ⟨-, rfl⟩ | rfl
    · exact clearDelays_sameCuts _ c
    · exact raiseError_chain badPrepare s c ▸ .refl _
  | release => exact Host.Outcome.next.inj h ▸ clearDelays_sameCuts s c
  | process ch u len =>
    cases u with
    | true => exact absurd rfl (hprocess ch len)
    | false =>
      rcases execProcess_next h with ⟨-, rfl⟩ | rfl
      · exact ((processBlock_blockFrame ch len s).setting c).sameCuts
      · exact raiseError_chain badLength s c ▸ .refl _
  | designPeak => exact Host.Outcome.next.inj h ▸ (designPeakWith_frame _ s).chain c ▸ .refl _
  | designLc n => exact Host.Outcome.next.inj h ▸ (designCutWith_frame _ _ n s).chain c ▸ .refl _
  | designHc n => exact Host.Outcome.next.inj h ▸ (designCutWith_frame _ _ n s).chain c ▸ .refl _
  | setPeak ch => exact Host.Outcome.next.inj h ▸ forChannels_setPeak_sameCuts ch _ s c

/-- The stage file after reset, word by word (10_state.md R44). -/
theorem Chain.reset_slotWord : ∀ slot, slot < 9 → ∀ j, j < 8 → slotWord Chain.reset slot j =
    if j = 0 then 0x3F800000#32 else if j = 7 ∧ slot ≠ 0 ∧ slot ≠ 4 ∧ slot ≠ 5 then 1#32 else 0#32 := by
  decide

end Sys2Proof.Machine

namespace Sys2Proof

open Sys2Proof.Machine

/-! ### The obligations -/

/-- Settles O57: each command, each access of a host and the reset input keeps the invariant. -/
theorem stepKeepsInvariant : Obligations.StepKeepsInvariant := fun _ _ hs h => turn_inv hs h

/-- Settles O42: the case of the block step in which a word has no value. -/
theorem processRecordsUnwrittenRead : Obligations.ProcessRecordsUnwrittenRead := by
  intro ch len s c i hlen hmax hc hi hnone
  have hacc : lengthAccepted s len = true := lengthAccepted_iff.mpr ⟨by omega, hlen⟩
  obtain ⟨xs, fs, k, hxs, he, -, hrec, -⟩ := processBlock_cases ch len s (by omega)
  have hys : ∀ d, (runChain (s.chain d) (xs d)).1.length = len := fun d => (runChain_length _ _).trans (hxs d)
  refine ⟨processBlock ch len s, if_pos hacc, (processBlock_blockFrame ch len s).state, ?_, ?_, fun a ha => ?_⟩
  · rw [he]
    exact hrec c i hc hi hnone
  · rw [he, storeBlock_readWord _ _ _ _ _ (fun d => by rw [hys]; omega) (by omega), if_pos ⟨hc, by rw [hys]; exact hi⟩,
      List.getElem?_eq_getElem (by rw [hys]; exact hi)]
    rfl
  · rw [he]
    exact storeBlock_read_other ch _ s.mem len a (fun d _ => hys d) ha

/-- Settles O43: a block of any length keeps the setting of every stage, and a refused one changes STATUS only. -/
theorem processWritesOnlyEnabledDelayLines : Obligations.ProcessWritesOnlyEnabledDelayLines := by
  intro ch len s
  obtain ⟨t, ht, hsame⟩ : ∃ t, exec (.process ch false len) s = .next t ∧ ∀ c, (s.chain c).SameSetting (t.chain c) := by
    by_cases hacc : lengthAccepted s len = true
    · exact ⟨_, if_pos hacc, (processBlock_blockFrame ch len s).setting⟩
    · refine ⟨_, if_neg hacc, fun c => ?_⟩
      rw [raiseError_chain]
      exact .refl _
  refine ⟨t, ht, fun c => ⟨(hsame c).peak, (hsame c).lowCount, (hsame c).highCount, fun i _ => ?_⟩⟩
  have hlow := (hsame c).low i
  have hhigh := (hsame c).high i
  exact ⟨hlow.bypassed, hhigh.bypassed, hlow.bypass, hhigh.bypass, hlow.cs, hhigh.cs⟩

/-- Settles O49: each register from its address, and STATUS bit by bit. -/
theorem registerReadValues : Obligations.RegisterReadValues := by
  intro a s
  have read : ∀ {b : Nat}, b < 0x2000 → a.toNat / 4 * 4 = b →
      hostARead a s = { s with readsA := plainWord s (locAt b) :: s.readsA } := fun hlt hb => hostARead_at hb hlt s
  simp only [BitVec.ofNat_toNat]
  exact ⟨read (by decide),
    fun h => ⟨statusWord s, read (by decide) h, statusWord_err s, statusWord_errCode s, fun _ => statusWord_reserved s⟩,
    read (by decide), read (by decide), read (by decide), read (by decide), read (by decide), read (by decide),
    read (by decide), read (by decide), read (by decide), read (by decide), read (by decide), read (by decide),
    read (by decide), read (by decide), read (by decide), read (by decide), read (by decide)⟩

/-- Settles O50: each register from its address. -/
theorem registerWritesStore : Obligations.RegisterWritesStore := by
  intro a v s
  have write : ∀ {b : Nat}, locAt b ≠ .cmd → a.toNat / 4 * 4 = b →
      hostAWrite a v s = .next (writeLoc (locAt b) v s) := fun hcmd hb => hostAWrite_at hb hcmd v s
  simp only [BitVec.ofNat_toNat]
  exact ⟨write (by decide), write (by decide), write (by decide), write (by decide), write (by decide),
    write (by decide), write (by decide), write (by decide), write (by decide), write (by decide),
    write (by decide), write (by decide), write (by decide)⟩

/-- Settles O51: the records of the stage file slot by slot, the counts and DOUT from their addresses. -/
theorem stageFileAndDoutAddresses : Obligations.StageFileAndDoutAddresses := by
  intro s
  refine ⟨fun c => ⟨fun i hi => ?_, ?_, fun i hi => ?_, ?_, ?_⟩, fun k hk => ?_⟩
  · exact readsRecord_slot s c (by omega) fun j => if_pos hi
  · exact readsRecord_slot s c (by decide) fun j => rfl
  · refine readsRecord_slot s c (by omega) fun j => ?_
    unfold slotWord
    rw [if_neg (by omega), if_neg (by omega), Nat.add_sub_cancel_left]
  · have hc := chan_num_lt c
    rw [BitVec.ofNat_toNat]
    exact readsAt_of_locAt (locAt_stageRegion c (by decide)) (by omega) (by omega) s
  · have hc := chan_num_lt c
    rw [BitVec.ofNat_toNat]
    exact readsAt_of_locAt (locAt_stageRegion c (by decide)) (by omega) (by omega) s
  · have word : ∀ j, j < 8 → ReadsAt s (0x0080 + 0x20 * k + 4 * j) (csWord (s.dout.get k) j) :=
      fun j hj => readsAt_dout s hk hj
    exact ⟨⟨word 0 (by decide), word 1 (by decide), word 2 (by decide), word 3 (by decide), word 4 (by decide)⟩,
      word 5 (by decide), word 6 (by decide), word 7 (by decide)⟩

/-- Settles O53: the address is that of one buffer word, which is stored and read in whole. -/
theorem bufferWriteThenRead : Obligations.BufferWriteThenRead := by
  intro a v s ha
  obtain ⟨c, i, hloc, haddr⟩ := locOf_buf ha
  have hwrite : hostAWrite a v s = .next (writeBuf c i v s) := by
    rw [hostAWrite_of_ne_cmd (by rw [hloc]; nofun), hloc]
    rfl
  have hread : hostARead a (writeBuf c i v s) = { writeBuf c i v s with readsA := v :: s.readsA } := by
    simp [hostARead, hloc, readLoc, readBuf, Memory.readWord_writeWord_self]
  refine ⟨_, hwrite, rfl, by rw [hread], by rw [hread]; rfl, fun d hd => ?_⟩
  rw [← haddr] at hd
  exact Memory.read_writeWord_other s.mem (bufAddr c i) d v hd

/-- Settles O55: the step is the reset event, whose values stand in `State.reset`. -/
theorem resetSetsEveryRegister : Obligations.ResetSetsEveryRegister := by
  intro s rest p hA hP
  have hstep : step s = .next (resetEvent { s with hostA := rest, hostP := p }) := by
    rcases hP with ⟨hP, rfl⟩ | hP
    · rw [step_of_hostP_nil hP, controlTurn_reset hA, ← hP]
    · exact (step_of_hostP_yield hP).trans (controlTurn_reset (s := { s with hostP := p }) hA)
  have hchain : ∀ c, (resetEvent { s with hostA := rest, hostP := p }).chain c = Chain.reset := by
    intro c
    cases c <;> rfl
  have hdout : ∀ k, k < 4 → State.reset.dout.get k = CoeffSet.identity := by decide
  refine ⟨_, hstep, rfl, rfl, rfl, rfl, rfl, rfl, rfl, rfl, rfl, rfl, rfl, rfl, rfl, rfl, rfl, rfl, rfl, rfl, rfl, rfl, rfl,
    rfl, rfl, rfl, hdout, fun c => ?_, fun a => rfl⟩
  rw [hchain]
  exact ⟨rfl, rfl, fun slot j hslot hj => Chain.reset_slotWord slot hslot j hj⟩

/-- Settles O59: each command by its frame, and the hosts' writes by theirs. -/
theorem commandsWriteOnlyTheirRegisters : Obligations.CommandsWriteOnlyTheirRegisters := by
  refine ⟨fun i s t h => ?_, fun a v s => ⟨fun ha => ?_, ?_⟩⟩
  · cases i with
    | nop =>
      obtain rfl := Host.Outcome.next.inj h
      simp
    | prepare =>
      rcases execPrepare_next h with ⟨-, rfl⟩ | rfl
      · simp
      · simp
    | release =>
      obtain rfl := Host.Outcome.next.inj h
      simp
    | update =>
      obtain rfl := Host.Outcome.next.inj h
      have hkept := updateSteps_parametersKept Config.design .update (s := s)
      rw [updateSteps_updateFrame]
      simpa [ParametersKept] using hkept
    | process ch u len =>
      rcases execProcess_next h with ⟨-, rfl⟩ | rfl
      · cases u with
        | false =>
          rw [(processBlock_blockFrame ch len _).state]
          simp
        | true =>
          have hkept := paramTurn_updateSteps_parametersKept Config.design (.process ch true len) (s := s)
          rw [(processBlock_blockFrame ch len _).state, if_pos rfl, paramTurn_updateSteps_frame]
          simpa [ParametersKept] using hkept
      · simp
    | designPeak =>
      obtain rfl := Host.Outcome.next.inj h
      rw [designPeakWith_frame]
      simp
    | designLc n =>
      obtain rfl := Host.Outcome.next.inj h
      rw [designCutWith_frame]
      simp
    | designHc n =>
      obtain rfl := Host.Outcome.next.inj h
      rw [designCutWith_frame]
      simp
    | setPeak ch =>
      obtain rfl := Host.Outcome.next.inj h
      rw [forChannels_setPeak]
      simp
    | setLc ch n =>
      obtain rfl := Host.Outcome.next.inj h
      rw [forChannels_setLowCut]
      simp
    | setHc ch n =>
      obtain rfl := Host.Outcome.next.inj h
      rw [forChannels_setHighCut]
      simp
  · have hcmd : locOf a ≠ .cmd := mt locOf_eq_cmd_iff.mp ha
    refine ⟨_, hostAWrite_of_ne_cmd hcmd v s, writeLoc_frame _ v s, ?_, fun hlt => ?_⟩
    · exact (writeLoc_status (locOf a) v s).imp_right fun ⟨hloc, hclear⟩ => ⟨locOf_eq_status hloc, hclear⟩
    · exact writeLoc_mem (fun c i e => absurd (locOf_eq_buf e).1 (by omega)) v s
  · exact ⟨_, rfl, writeParam_frame _ v s⟩

/-- Settles O60: the other commands keep the setting of every cut filter. -/
theorem bypassBitsHaveFewWriters : Obligations.BypassBitsHaveFewWriters := by
  intro i s t h hupdate hset hprocess c k _
  obtain ⟨hlow, hhigh⟩ := exec_sameCuts h hupdate hset hprocess c
  exact ⟨hlow.count, hhigh.count, hlow.bypass k, hhigh.bypass k, hlow.cs k, hhigh.cs k⟩

/-- Settles O5: the word at any byte address of CMD is the word executed. -/
theorem stepExecutesTheCommand : Obligations.StepExecutesTheCommand := by
  intro s w i hw
  have hexec : ∀ (a : Addr) (t : State), a.toNat / 4 = 2 → hostAWrite a w t = exec i t := by
    intro a t ha
    rw [hostAWrite_cmd (locOf_eq_cmd_iff.mpr ha)]
    simp only [execute, hw]
  refine ⟨fun a rest ha hA hP => ?_, fun a rest p ha hA hP => ?_, ?_⟩
  · rw [step_of_hostP_nil hP, controlTurn_write hA, hexec a _ ha]
  · rw [step_of_hostP_yield hP, controlTurn_write (s := { s with hostP := p }) hA, hexec a _ ha]
  · have hword : BitVec.ofNat 32 (w.toNat % 2 ^ 32) = w := by
      rw [Nat.mod_eq_of_lt w.isLt, BitVec.ofNat_toNat, BitVec.setWidth_eq]
    have hissue : step (issue w s) = hostAWrite cmdAddr w s := rfl
    rw [State.withFetchWord, hword, hissue, hexec cmdAddr s rfl]

/-- Settles O9: the write reaches STATUS, whatever its byte address. -/
theorem statusWriteClearsError : Obligations.StatusWriteClearsError := by
  intro s v a ha
  have hwrite := hostAWrite_at (b := 0x0004) (show a.toNat / 4 * 4 = 0x0004 by omega) (by decide) v s
  rw [hwrite]
  exact ⟨fun hv => congrArg Host.Outcome.next (if_pos hv),
    fun hv => congrArg Host.Outcome.next (if_neg (by rw [hv]; decide))⟩

/-- Settles O56: the reset state, part by part. -/
theorem resetMeetsInvariant : Obligations.ResetMeetsInvariant := State.reset_inv

end Sys2Proof

/-! # Family 20_memory.md: the turns of a step, the parameter port, the read-only and reserved words, and the snapshot

First what each host's access does by the word it reaches, and which addresses hold which words; then the snapshot as a
run of Host-P's accesses with a read after each part of it. The obligations follow from these. -/

namespace Sys2Proof.Machine

/-! ### The turns of the other accesses -/

theorem step_hostP_read {s : State} {a : Addr} {rest : List ParamInput} (h : s.hostP = .read a :: rest) :
    step s = .next (hostPRead a { s with hostP := rest }) := by
  simp only [step, turn, h]

theorem step_hostP_write {s : State} {a : Addr} {v : Word} {rest : List ParamInput} (h : s.hostP = .write a v :: rest) :
    step s = .next (hostPWrite a v { s with hostP := rest }) := by
  simp only [step, turn, h]

/-- Host-P having no access, or leaving the turn: the step is Host-A's or the reset input's. -/
theorem step_eq_controlTurn {s : State} {p : List ParamInput} (h : s.hostP = [] ∧ p = [] ∨ s.hostP = .yield :: p) :
    step s = controlTurn { s with hostP := p } := by
  rcases h with ⟨h, rfl⟩ | h
  · rw [step_of_hostP_nil h, ← h]
  · exact step_of_hostP_yield h

theorem controlTurn_read {s : State} {a : Addr} {rest : List ControlInput} (h : s.hostA = .read a :: rest) :
    controlTurn s = .next (hostARead a { s with hostA := rest }) := by
  simp only [controlTurn, h]

theorem controlTurn_nil {s : State} (h : s.hostA = []) : controlTurn s = .next s := by
  simp only [controlTurn, h]

/-! ### The seven words of the parameter port -/

/-- The words Host-P reaches (20_memory.md R63). -/
def Loc.isParam : Loc → Bool
  | .lowcutFreq | .highcutFreq | .peakFreq | .peakGainDb | .peakQ | .lowcutSlope | .highcutSlope => true
  | _ => false

theorem registerMap_isParam : ∀ p ∈ registerMap, (p.2.isParam = true ↔ 0x0020 ≤ p.1 ∧ p.1 < 0x003C) := by decide

theorem locAt_isParam_of_range {b : Nat} (h4 : b % 4 = 0) (hlo : 0x0020 ≤ b) (hhi : b < 0x003C) :
    (locAt b).isParam = true := by
  have hall : ∀ b < 0x003C, b % 4 = 0 → 0x0020 ≤ b → (locAt b).isParam = true := by decide
  exact hall b hhi h4 hlo

theorem locAt_isParam_of_outside {b : Nat} (h : b < 0x0020 ∨ 0x003C ≤ b) : (locAt b).isParam = false := by
  rcases locAt_cases b with hreg | ⟨_, _, e⟩ | ⟨_, _, _, e⟩ | ⟨_, e | e⟩ | e | ⟨-, e⟩
  · rw [Bool.eq_false_iff, Ne, registerMap_isParam _ hreg]
    omega
  all_goals rw [e]; rfl

theorem writeParam_of_not_isParam {l : Loc} (h : l.isParam = false) (v : Word) (s : State) : writeParam l v s = s := by
  unfold writeParam
  split
  case h_8 => rfl
  all_goals cases h

theorem paramWord_of_not_isParam {l : Loc} (h : l.isParam = false) (s : State) : paramWord s l = none := by
  unfold paramWord
  split
  case h_8 => rfl
  all_goals cases h

/-- A parameter register is written by Host-A as by Host-P. -/
theorem writeLoc_of_isParam {l : Loc} (h : l.isParam = true) (v : Word) (s : State) :
    writeLoc l v s = writeParam l v s := by
  unfold writeLoc
  split
  case h_9 => rfl
  all_goals cases h

/-- A parameter register is read by Host-A as by Host-P. -/
theorem plainWord_of_isParam {l : Loc} (h : l.isParam = true) (s : State) :
    plainWord s l = (paramWord s l).getD 0#32 := by
  unfold plainWord
  split
  case h_16 => rfl
  all_goals cases h

/-- Host-P's write outside the seven registers is ignored. -/
theorem hostPWrite_outside {a : Addr} (h : a.toNat / 4 * 4 < 0x0020 ∨ 0x003C ≤ a.toNat / 4 * 4) (v : Word) (s : State) :
    hostPWrite a v s = s :=
  writeParam_of_not_isParam (locAt_isParam_of_outside h) v s

/-- Host-P's read outside the seven registers returns 0. -/
theorem hostPRead_outside {a : Addr} (h : a.toNat / 4 * 4 < 0x0020 ∨ 0x003C ≤ a.toNat / 4 * 4) (s : State) :
    hostPRead a s = { s with readsP := 0x00000000#32 :: s.readsP } := by
  have hnone : paramWord s (locOf a) = none := paramWord_of_not_isParam (locAt_isParam_of_outside h) s
  rw [hostPRead, hnone]
  rfl

/-! ### Read-only and reserved words -/

/-- The words no write reaches (20_memory.md R66, R70). -/
def Loc.isReadOnly : Loc → Bool
  | .id | .sr | .maxblk | .designN | .dout .. | .stage .. | .lcn _ | .hcn _ | .reserved => true
  | _ => false

theorem hostAWrite_readOnly {a : Addr} (h : (locOf a).isReadOnly = true) (v : Word) (s : State) :
    hostAWrite a v s = .next s := by
  unfold hostAWrite
  generalize locOf a = l at h
  cases l with
  | id | sr | maxblk | designN | dout | stage | lcn | hcn | reserved => rfl
  | _ => cases h

/-- Where the read-only and the reserved words are. -/
theorem locAt_isReadOnly {b : Nat}
    (h : b = 0x0000 ∨ b = 0x000C ∨ b = 0x0018 ∨ b = 0x001C ∨ b = 0x003C ∨ (0x0050 ≤ b ∧ b < 0x2000)) :
    (locAt b).isReadOnly = true := by
  have hregs : ∀ p ∈ registerMap,
      p.1 = 0x0000 ∨ p.1 = 0x000C ∨ p.1 = 0x0018 ∨ p.1 = 0x001C ∨ p.1 = 0x003C ∨ (0x0050 ≤ p.1 ∧ p.1 < 0x2000) →
      p.2.isReadOnly = true := by decide
  rcases locAt_cases b with hreg | ⟨_, _, e⟩ | ⟨_, _, _, e⟩ | ⟨_, e | e⟩ | e | ⟨hbuf, -⟩
  · exact hregs _ hreg h
  case inr.inr.inr.inr.inr => omega
  all_goals rw [e]; rfl

theorem stageLoc_reserved (c : Chan) {off : Nat} (h : 0x120 ≤ off) (hlcn : off ≠ 0x180) (hhcn : off ≠ 0x184) :
    stageLoc c off = .reserved := by
  unfold stageLoc
  rw [if_neg (by omega), if_neg hlcn, if_neg hhcn]

/-- Where the reserved words are, region by region (20_memory.md R66). -/
theorem locAt_reserved {b : Nat} (h4 : b % 4 = 0)
    (h : b = 0x000C ∨ b = 0x003C ∨ (0x0054 ≤ b ∧ b < 0x0080) ∨ (0x0080 ≤ b ∧ b < 0x0100 ∧ 0x14 ≤ b % 0x20) ∨
      (0x0100 ≤ b ∧ b < 0x1000) ∨ (0x1120 ≤ b ∧ b < 0x1180) ∨ (0x1188 ≤ b ∧ b < 0x1200) ∨
      (0x1320 ≤ b ∧ b < 0x1380) ∨ (0x1388 ≤ b ∧ b < 0x2000)) : locAt b = .reserved := by
  have hregs : ∀ b < 0x0080, b % 4 = 0 → 0x0054 ≤ b → locAt b = .reserved := by decide
  have hgap : 0x0100 ≤ b ∧ b < 0x1000 ∨ 0x1400 ≤ b ∧ b < 0x2000 → locAt b = .reserved := by
    rintro (hb | hb)
    · unfold locAt
      rw [if_neg (by omega), if_neg (by omega), if_pos hb.2]
    · unfold locAt
      rw [if_neg (by omega), if_neg (by omega), if_neg (by omega), if_neg (by omega), if_pos hb.2]
  have hstage : ∀ c : Chan, 0x1000 + 0x200 * c.num + 0x120 ≤ b → b < 0x1000 + 0x200 * c.num + 0x200 →
      b ≠ 0x1000 + 0x200 * c.num + 0x180 → b ≠ 0x1000 + 0x200 * c.num + 0x184 → locAt b = .reserved := by
    intro c hlo hhi hlcn hhcn
    obtain ⟨off, rfl⟩ : ∃ off, b = 0x1000 + 0x200 * c.num + off := ⟨b - (0x1000 + 0x200 * c.num), by omega⟩
    rw [locAt_stageRegion c (by omega)]
    exact stageLoc_reserved c (by omega) (by omega) (by omega)
  have hleft := hstage .left
  have hright := hstage .right
  simp only [Chan.num] at hleft hright
  rcases h with rfl | rfl | hb | hb | hb | hb | hb | hb | hb
  · rfl
  · rfl
  · exact hregs b hb.2 h4 hb.1
  · unfold locAt
    rw [if_neg (by omega), if_pos hb.2.1, if_neg (by omega)]
  · exact hgap (.inl hb)
  · exact hleft (by omega) (by omega) (by omega) (by omega)
  · exact hleft (by omega) (by omega) (by omega) (by omega)
  · exact hright (by omega) (by omega) (by omega) (by omega)
  · by_cases hend : b < 0x1400
    · exact hright (by omega) (by omega) (by omega) (by omega)
    · exact hgap (.inr ⟨by omega, hb.2⟩)

/-! ### Reads of buffer words -/

theorem readBuf_written {c : Chan} {i : Nat} {s : State} {w : Word} (h : s.mem.readWord (bufAddr c i) = some w) :
    readBuf c i s = (w, s) := by
  simp only [readBuf, h]

theorem readBuf_unwritten {c : Chan} {i : Nat} {s : State} (h : s.mem.readWord (bufAddr c i) = none) :
    readBuf c i s = (freeWordAt s 0, record (.unwrittenRead c i) (takeFree 1 s)) := by
  simp only [readBuf, h]

/-- Two buffer words at one address are the same word. -/
theorem bufAddr_inj {c d : Chan} {i j : Nat} (hi : i < 1024) (hj : j < 1024) (h : bufAddr c i = bufAddr d j) :
    c = d ∧ i = j := by
  by_contra hne
  have := bufAddr_apart c d i j hi hj hne
  omega

/-! ### The snapshot among Host-P's accesses -/

/-- A state in the snapshot phase: `s` after the accesses `done`, with `todo` still to come and `sn` latched so far. -/
def State.midSnapshot (s : State) (done todo : List ParamInput) (sn : Snapshot) : State :=
  { paramAccesses done s with hostP := todo, latch := sn }

/-- Host-P's turn makes the next part of its accesses. -/
theorem paramTurn_midSnapshot (s : State) (done : List ParamInput) {w : List ParamInput} (hw : .yield ∉ w)
    (rest : List ParamInput) (sn : Snapshot) :
    paramTurn (s.midSnapshot done (w ++ .yield :: rest) sn) = s.midSnapshot (done ++ w) rest sn := by
  have hsegment : paramTurn (s.midSnapshot done (w ++ .yield :: rest) sn) =
      { paramAccesses w (s.midSnapshot done (w ++ .yield :: rest) sn) with hostP := rest } :=
    paramTurnFrom_segment hw rest _
  rw [hsegment, State.midSnapshot, State.midSnapshot, paramAccesses_with, paramAccesses_append]

/-- The seven reads with Host-P's accesses `w1` to `w6` in the places between them. -/
theorem snapshotPhase_schedule (s : State) {w1 w2 w3 w4 w5 w6 : List ParamInput} (rest : List ParamInput)
    (h1 : .yield ∉ w1) (h2 : .yield ∉ w2) (h3 : .yield ∉ w3) (h4 : .yield ∉ w4) (h5 : .yield ∉ w5) (h6 : .yield ∉ w6) :
    snapshotPhase { s with hostP := w1 ++ .yield :: (w2 ++ .yield :: (w3 ++ .yield :: (w4 ++ .yield :: (w5 ++ .yield ::
      (w6 ++ .yield :: rest))))) } =
    s.midSnapshot (w1 ++ w2 ++ w3 ++ w4 ++ w5 ++ w6) rest
      { pf := s.peakFreq
        pq := (paramAccesses w1 s).peakQ
        pg := (paramAccesses (w1 ++ w2) s).peakGainDb
        lf := (paramAccesses (w1 ++ w2 ++ w3) s).lowcutFreq
        ls := (paramAccesses (w1 ++ w2 ++ w3 ++ w4) s).lowcutSlope
        hf := (paramAccesses (w1 ++ w2 ++ w3 ++ w4 ++ w5) s).highcutFreq
        hs := (paramAccesses (w1 ++ w2 ++ w3 ++ w4 ++ w5 ++ w6) s).highcutSlope } := by
  have hfirst : ∀ todo, latchPeakFreq { s with hostP := todo } =
      s.midSnapshot [] todo { s.latch with pf := s.peakFreq } := fun _ => rfl
  have hq : ∀ done todo sn, latchPeakQ (s.midSnapshot done todo sn) =
      s.midSnapshot done todo { sn with pq := (paramAccesses done s).peakQ } := fun _ _ _ => rfl
  have hg : ∀ done todo sn, latchPeakGain (s.midSnapshot done todo sn) =
      s.midSnapshot done todo { sn with pg := (paramAccesses done s).peakGainDb } := fun _ _ _ => rfl
  have hlf : ∀ done todo sn, latchLowFreq (s.midSnapshot done todo sn) =
      s.midSnapshot done todo { sn with lf := (paramAccesses done s).lowcutFreq } := fun _ _ _ => rfl
  have hls : ∀ done todo sn, latchLowSlope (s.midSnapshot done todo sn) =
      s.midSnapshot done todo { sn with ls := (paramAccesses done s).lowcutSlope } := fun _ _ _ => rfl
  have hhf : ∀ done todo sn, latchHighFreq (s.midSnapshot done todo sn) =
      s.midSnapshot done todo { sn with hf := (paramAccesses done s).highcutFreq } := fun _ _ _ => rfl
  have hhs : ∀ done todo sn, latchHighSlope (s.midSnapshot done todo sn) =
      s.midSnapshot done todo { sn with hs := (paramAccesses done s).highcutSlope } := fun _ _ _ => rfl
  unfold snapshotPhase
  dsimp only
  rw [hfirst, paramTurn_midSnapshot s _ h1, hq, paramTurn_midSnapshot s _ h2, hg, paramTurn_midSnapshot s _ h3, hlf,
    paramTurn_midSnapshot s _ h4, hls, paramTurn_midSnapshot s _ h5, hhf, paramTurn_midSnapshot s _ h6, hhs,
    List.nil_append]

/-- A slope is what its register stores of it. -/
theorem slope_setWidth (v : BitVec 2) : (v.setWidth 32).setWidth 2 = v := by
  rw [BitVec.setWidth_setWidth_of_le v (by decide), BitVec.setWidth_eq]

/-! ### The command an UPDATE is part of -/

theorem exec_process_of_accepted {ch : ChMask} {len : Nat} {s : State} (h : lengthAccepted s len = true) :
    exec (.process ch false len) s = .next (processBlock ch len s) := if_pos h

theorem exec_process_update_of_accepted {ch : ChMask} {len : Nat} {s : State} (h : lengthAccepted s len = true) :
    exec (.process ch true len) s =
      .next (processBlock ch len (paramTurn (updateSteps Config.design (.process ch true len) s))) := if_pos h

theorem updateSteps_cmd (d : Design) (cmd cmd' : Instr) (s : State) :
    updateSteps d cmd s = { updateSteps d cmd' s with
      faults := (recordUnless (snapshotContract (paramTurn (snapshotPhase s))) cmd (paramTurn (snapshotPhase s))).faults } :=
  designInstall_cmd d cmd cmd' _

theorem updateSteps_faults (d : Design) (cmd : Instr) (s : State) :
    (updateSteps d cmd s).faults =
      (recordUnless (snapshotContract (paramTurn (snapshotPhase s))) cmd (paramTurn (snapshotPhase s))).faults := by
  rw [updateSteps_cmd d cmd cmd s]

/-- In contract the command an UPDATE is part of is not seen at all. -/
theorem updateSteps_inContract (d : Design) (cmd cmd' : Instr) {s : State}
    (h : snapshotContract (paramTurn (snapshotPhase s)) = true) : updateSteps d cmd s = updateSteps d cmd' s := by
  have hfaults : (updateSteps d cmd' s).faults = (paramTurn (snapshotPhase s)).faults := by
    rw [updateSteps_faults, h]
    rfl
  rw [updateSteps_cmd d cmd cmd', h, recordUnless_true, ← hfaults]

/-- Out of contract the record gains the violation, and nothing else. -/
theorem mem_updateSteps_faults_of_not_inContract (d : Design) (cmd : Instr) {s : State}
    (h : snapshotContract (paramTurn (snapshotPhase s)) = false) (g : Fault) :
    g ∈ (updateSteps d cmd s).faults ↔ g ∈ (paramTurn (snapshotPhase s)).faults ∨ g = .contractViolation cmd := by
  rw [updateSteps_faults, h]
  exact mem_record_iff _ g _

/-- Two states that differ at most in the record stay so, and the same faults are added to both records. -/
theorem RecordsOnly.apply_sameButFaults {T : State → State} (hT : RecordsOnly T) {s s' : State}
    (h : s' = { s with faults := s'.faults }) :
    T s' = { T s with faults := (T s').faults } ∧
    ∃ N : List Fault, (∀ f, f ∈ (T s).faults ↔ f ∈ s.faults ∨ f ∈ N) ∧ ∀ f, f ∈ (T s').faults ↔ f ∈ s'.faults ∨ f ∈ N := by
  obtain ⟨N, hrecords⟩ := hT s
  obtain ⟨G, hG, hmem⟩ := hrecords s.faults
  obtain ⟨G', hG', hmem'⟩ := hrecords s'.faults
  rw [← h] at hG'
  have hfaults : (T s).faults = G := congrArg State.faults hG
  have hfaults' : (T s').faults = G' := congrArg State.faults hG'
  exact ⟨hfaults' ▸ hG', N, hfaults ▸ hmem, hfaults' ▸ hmem'⟩

/-- Host-P's turn and the block step after it add to the record and never look at it. -/
theorem processBlock_paramTurn_recordsOnly (ch : ChMask) (len : Nat) :
    RecordsOnly fun s => processBlock ch len (paramTurn s) :=
  paramTurn_recordsOnly.comp (processBlock_recordsOnly ch len)

end Sys2Proof.Machine

namespace Sys2Proof

open Sys2Proof.Machine

/-! ### The obligations -/

/-- Settles O18: the reads between the parts of Host-P's accesses, and a schedule of one write before each read. -/
theorem snapshotAdmitsEveryMix : Obligations.SnapshotAdmitsEveryMix := by
  constructor
  · intro s w1 w2 w3 w4 w5 w6 rest hyield
    simp only [List.mem_append, not_or] at hyield
    obtain ⟨⟨⟨⟨⟨h1, h2⟩, h3⟩, h4⟩, h5⟩, h6⟩ := hyield
    exact snapshotPhase_schedule s rest h1 h2 h3 h4 h5 h6
  · intro s pq pg lf hf ls hs
    have hwrites := snapshotPhase_schedule s (w1 := [.write 0x0030#14 pq]) (w2 := [.write 0x002C#14 pg])
      (w3 := [.write 0x0020#14 lf]) (w4 := [.write 0x0034#14 (ls.setWidth 32)]) (w5 := [.write 0x0024#14 hf])
      (w6 := [.write 0x0038#14 (hs.setWidth 32)]) [] (by simp) (by simp) (by simp) (by simp) (by simp) (by simp)
    refine ⟨_, (congrArg State.latch hwrites).trans ?_⟩
    rw [State.midSnapshot, Snapshot.mk.injEq]
    exact ⟨rfl, rfl, rfl, rfl, slope_setWidth ls, rfl, slope_setWidth hs⟩

/-- Settles O19: the reads and the turns keep the frame of Host-P's port. -/
theorem snapshotPhaseFrame : Obligations.SnapshotPhaseFrame := snapshotReads_frame

/-- Settles O41: the two runs reach the block step in states that differ at most in the record, which it does not read. -/
theorem processWithUpdateFirst : Obligations.ProcessWithUpdateFirst := by
  intro ch len s hlo hhi
  have hacc : lengthAccepted s len = true := lengthAccepted_iff.mpr ⟨hlo, hhi⟩
  have hacc' : lengthAccepted (paramTurn (updateSteps Config.design .update s)) len = true := by
    rw [lengthAccepted_iff, paramTurn_updateSteps_frame]
    exact ⟨hlo, hhi⟩
  have hexec := exec_process_update_of_accepted (ch := ch) hacc
  refine ⟨_, _, rfl, exec_process_of_accepted hacc', fun hc => ?_, fun hc => ?_⟩
  · rw [hexec, updateSteps_inContract Config.design _ .update hc]
  · have hcmd : updateSteps Config.design (.process ch true len) s = { updateSteps Config.design .update s with
        faults := (updateSteps Config.design (.process ch true len) s).faults } := by
      rw [updateSteps_faults]
      exact updateSteps_cmd Config.design _ .update s
    obtain ⟨hsame, N, hmem, hmem'⟩ := (processBlock_paramTurn_recordsOnly ch len).apply_sameButFaults hcmd
    refine ⟨_, hexec, hsame, ?_, fun c i => ?_⟩
    · rw [hmem', mem_updateSteps_faults_of_not_inContract _ _ hc]
      exact .inl (.inr rfl)
    · rw [hmem', hmem, mem_updateSteps_faults_of_not_inContract _ _ hc, mem_updateSteps_faults_of_not_inContract _ _ hc]
      simp

/-- Settles O48: the map says which words are read-only or reserved, and none of them is Host-P's. -/
theorem readOnlyAndReservedWords : Obligations.ReadOnlyAndReservedWords := by
  intro a v s
  refine ⟨fun h => ⟨hostAWrite_readOnly (locAt_isReadOnly h) v s, hostPWrite_outside (by omega) v s⟩,
    fun h => ⟨?_, hostPRead_outside (by omega) s⟩⟩
  rw [hostARead_at rfl (by omega) s, locAt_reserved (Nat.mul_mod_left _ 4) h]
  rfl

/-- Settles O52: below the buffers a read returns a word only, and a buffer word is read by its two cases. -/
theorem readsHaveNoSideEffect : Obligations.ReadsHaveNoSideEffect := by
  intro a s
  by_cases hlt : a.toNat < 0x2000
  · have hread := hostARead_at (a := a) rfl (by omega) s
    exact ⟨_, by rw [hread], fun _ => hread, fun c i _ haddr => by omega⟩
  · obtain ⟨c, i, hloc, haddr⟩ := locOf_buf (a := a) (by omega)
    have hread : hostARead a s = { (readBuf c i s).2 with readsA := (readBuf c i s).1 :: s.readsA } := by
      simp only [hostARead, hloc, readLoc]
    rw [← haddr]
    cases hw : s.mem.readWord (bufAddr c i) with
    | some w =>
      rw [readBuf_written hw] at hread
      exact ⟨w, by rw [hread], fun _ => hread, nofun⟩
    | none =>
      rw [readBuf_unwritten hw, record_eq] at hread
      refine ⟨_, by rw [hread]; rfl, fun h => ?_, fun d j hj e _ => ?_⟩
      · rcases h with h | h
        · exact absurd h hlt
        · cases h
      · obtain ⟨rfl, rfl⟩ := bufAddr_inj (locOf_eq_buf hloc).2 hj e
        rw [hread]
        exact mem_record _ _

/-- Settles O54: the seven words are those Host-P's port and Host-A's give the same meaning. -/
theorem hostPReachesOnlyParameters : Obligations.HostPReachesOnlyParameters := by
  intro s a v rest
  have h4 : a.toNat / 4 * 4 % 4 = 0 := Nat.mul_mod_left _ 4
  refine ⟨fun h => ?_, fun h => ?_⟩
  · rw [step_hostP_write h]
    refine ⟨fun hlo hhi => ?_, fun hout => by rw [hostPWrite_outside hout]⟩
    have hparam := locAt_isParam_of_range h4 hlo hhi
    rw [hostAWrite_at rfl (fun e => by rw [e] at hparam; cases hparam), writeLoc_of_isParam hparam]
    rfl
  · refine ⟨_, step_hostP_read h, fun hlo hhi => ?_, fun hout => ?_⟩
    · rw [hostARead_at rfl (by omega), plainWord_of_isParam (locAt_isParam_of_range h4 hlo hhi)]
      rfl
    · exact congrArg (Option.getD · 0#32) (paramWord_of_not_isParam (locAt_isParam_of_outside hout) _)

/-- Settles O6: each access at the head of a queue is the step's. -/
theorem stepTakesTheNextAccess : Obligations.StepTakesTheNextAccess := by
  intro s
  refine ⟨fun a rest h => step_hostP_read h, fun a v rest h => step_hostP_write h, fun p hP => ?_⟩
  rw [step_eq_controlTurn hP]
  exact ⟨fun a rest h => controlTurn_read h, fun a v rest h => controlTurn_write h, fun rest h => controlTurn_reset h,
    fun h => controlTurn_nil h⟩

end Sys2Proof

namespace Sys2Proof

open Laws.Fields (opcode)

/-! ### The fields of a command word -/

theorem field_lt (w : Word) (lo len : Nat) : field w lo len < 2 ^ len := Nat.mod_lt _ (Nat.two_pow_pos len)

/-- The seven fields of R91 make up the word: no bit stands outside them. -/
theorem toNat_eq_fields (w : Word) :
    w.toNat = field w 0 4 + field w 4 2 * 2 ^ 4 + field w 6 2 * 2 ^ 6 + field w 8 1 * 2 ^ 8 + field w 9 7 * 2 ^ 9 +
      field w 16 11 * 2 ^ 16 + field w 27 5 * 2 ^ 27 := by
  have := w.isLt
  unfold field
  omega

theorem chBits_inj {c d : ChMask} (h : chBits c = chBits d) : c = d := by
  obtain ⟨k, -, hc, hcl, hcr⟩ := chBits_cases c
  obtain ⟨l, -, hd, hdl, hdr⟩ := chBits_cases d
  obtain rfl : k = l := by omega
  cases c
  cases d
  simp_all

@[simp] theorem chBits_none : chBits { left := false, right := false } = 0 := rfl

/-! ### What a command puts in each field (30_encoding.md R91, R94)

An operand a command does not have has the value whose field is 0. -/

@[simp] def Instr.chOperand : Instr → ChMask
  | .process ch _ _ | .setPeak ch | .setLc ch _ | .setHc ch _ => ch
  | _ => { left := false, right := false }

@[simp] def Instr.countOperand : Instr → Nat
  | .designLc n | .designHc n | .setLc _ n | .setHc _ n => n
  | _ => 1

@[simp] def Instr.updateOperand : Instr → Bool
  | .process _ u _ => u
  | _ => false

@[simp] def Instr.lengthOperand : Instr → Nat
  | .process _ _ len => len
  | _ => 0

/-- The word `w` has the opcode and the operands of `i` in its fields, and 0 in the reserved ones. -/
structure Carries (w : Word) (i : Instr) : Prop where
  op : field w 0 4 = opcode i
  ch : field w 4 2 * 2 ^ 4 = chBits i.chOperand
  nsel : field w 6 2 + 1 = i.countOperand
  u : field w 8 1 = i.updateOperand.toNat
  reservedLow : field w 9 7 = 0
  len : field w 16 11 = i.lengthOperand
  reservedHigh : field w 27 5 = 0

/-- The opcode and the operands of a command, each in its place. -/
def Instr.bits (i : Instr) : Nat :=
  opcode i + chBits i.chOperand + nselBits i.countOperand + i.updateOperand.toNat * 2 ^ 8 + i.lengthOperand * 2 ^ 16

theorem encode_eq_bits (i : Instr) : encode i = BitVec.ofNat 32 i.bits := by
  cases i
  case process ch u len => cases u <;> simp [encode, Instr.bits, opcode, nselBits]
  all_goals simp [encode, Instr.bits, opcode, nselBits]

theorem opcode_lt_rows (i : Instr) : opcode i < rows.length := by cases i <;> simp [opcode, rows]

theorem operands_of_wf {i : Instr} (h : i.wf = true) :
    1 ≤ i.countOperand ∧ i.countOperand ≤ 4 ∧ i.lengthOperand ≤ 2047 := by
  cases i
  case process ch u len => exact ⟨by simp, by simp, lengthOk_iff.mp h⟩
  case designLc n | designHc n | setLc ch n | setHc ch n =>
    obtain ⟨hlo, hhi⟩ := stageCountOk_iff.mp h
    exact ⟨hlo, hhi, by simp⟩
  all_goals simp

/-- The word of a well-formed command carries it: each operand fits its field. -/
theorem carries_encode {i : Instr} (h : i.wf = true) : Carries (encode i) i := by
  obtain ⟨hlo, hhi, hlen⟩ := operands_of_wf h
  have hop : opcode i < 11 := opcode_lt_rows i
  have hu := Bool.toNat_le i.updateOperand
  obtain ⟨k, hk, hch, -, -⟩ := chBits_cases i.chOperand
  have hfield := field_ofNat (v := i.bits) (by unfold Instr.bits nselBits; omega)
  rw [← encode_eq_bits, Instr.bits, nselBits] at hfield
  constructor <;> rw [hfield] <;> omega

/-- A word is the word of the command it carries. -/
theorem Carries.encode_eq {w : Word} {i : Instr} (h : Carries w i) : encode i = w := by
  have hbits : w.toNat = i.bits := by
    rw [toNat_eq_fields, h.op, h.ch, h.u, h.reservedLow, h.len, h.reservedHigh, Instr.bits, nselBits, ← h.nsel]
    omega
  rw [encode_eq_bits, ← hbits, BitVec.ofNat_toNat, BitVec.setWidth_eq]

theorem decide_bit_toNat {b : Nat} (h : b < 2) : (decide (b = 1)).toNat = b := by
  interval_cases b <;> rfl

/-- A word decodes to the command it carries, and to no other. -/
theorem decode_ok_iff {w : Word} {i : Instr} : decode w = .ok i ↔ Carries w i := by
  constructor
  · intro h
    have hu := decide_bit_toNat (field_lt w 8 1)
    have hch := chBits_chField w
    unfold decode at h
    dsimp only at h
    split at h
    · cases h
    case isFalse hres =>
      obtain ⟨hlow, hhigh⟩ : field w 9 7 = 0 ∧ field w 27 5 = 0 := by simpa using hres
      split at h
      case h_12 => cases h
      all_goals
        obtain ⟨hclear, rfl⟩ := accept_ok.mp h
        simp only [Bool.and_eq_true, decide_eq_true_eq] at hclear
        constructor <;> simp [*, opcode]
  · intro h
    obtain ⟨hop, hch, hnsel, hu, hlow, hlen, hhigh⟩ := h
    have hmask : chField w = i.chOperand := chBits_inj ((chBits_chField w).trans hch)
    cases i
    all_goals
      simp at hch hnsel hu
      simp [decode, accept, opcode, hop, hmask, hch, hnsel, hu, hlow, hlen, hhigh]

/-! ### The table of mask and match (30_encoding.md R95) -/

theorem field_and (w m : Word) (lo len : Nat) : field (w &&& m) lo len = field w lo len &&& field m lo len := by
  unfold field
  rw [BitVec.toNat_and, Nat.and_div_two_pow, Nat.and_mod_two_pow]

/-- The seven fields of R91, each by its lowest bit and its width. -/
def layout : List (Nat × Nat) := [(0, 4), (4, 2), (6, 2), (8, 1), (9, 7), (16, 11), (27, 5)]

theorem eq_of_fields {v w : Word} (h : ∀ f ∈ layout, field v f.1 f.2 = field w f.1 f.2) : v = w := by
  simp only [layout, List.forall_mem_cons] at h
  obtain ⟨hop, hch, hnsel, hu, hlow, hlen, hhigh, -⟩ := h
  refine BitVec.eq_of_toNat_eq ?_
  rw [toNat_eq_fields v, toNat_eq_fields w, hop, hch, hnsel, hu, hlow, hlen, hhigh]

/-- Each field is free in a row, or fixed in whole. -/
theorem rows_mask_fields : ∀ r ∈ rows, ∀ f ∈ layout,
    field r.mask f.1 f.2 = 0 ∧ field r.pattern f.1 f.2 = 0 ∨ field r.mask f.1 f.2 = 2 ^ f.2 - 1 ∧ f.2 ≠ 0 := by decide

/-- A word matches a row exactly where it has the row's value in each field that the row fixes. -/
theorem Row.hit_iff {r : Row} (hr : r ∈ rows) {w : Word} :
    r.hit w = true ↔ ∀ f ∈ layout, field r.mask f.1 f.2 = 0 ∨ field w f.1 f.2 = field r.pattern f.1 f.2 := by
  have hfield : ∀ f ∈ layout, field (w &&& r.mask) f.1 f.2 = field r.pattern f.1 f.2 ↔
      field r.mask f.1 f.2 = 0 ∨ field w f.1 f.2 = field r.pattern f.1 f.2 := by
    intro f hf
    rw [field_and]
    rcases rows_mask_fields r hr f hf with ⟨hm, hp⟩ | ⟨hm, hpos⟩
    · simp [hm, hp]
    · have hne : 2 ^ f.2 - 1 ≠ 0 := by have := Nat.one_lt_two_pow hpos; omega
      rw [hm, Nat.and_two_pow_sub_one_of_lt_two_pow (field_lt w f.1 f.2), or_iff_right hne]
  unfold Row.hit
  rw [decide_eq_true_iff, ← forall₂_congr hfield]
  exact ⟨fun h _ _ => by rw [h], eq_of_fields⟩

/-- A word that carries a command matches the row at its opcode, which has its mnemonic. -/
theorem Carries.hit_row {w : Word} {i : Instr} (h : Carries w i) :
    ∃ r ∈ rows, r.hit w = true ∧ r.mnemonic = i.mnemonic := by
  obtain ⟨hop, hch, hnsel, hu, hlow, hlen, hhigh⟩ := h
  have hmem := List.getElem_mem (opcode_lt_rows i)
  refine ⟨rows[opcode i]'(opcode_lt_rows i), hmem, (Row.hit_iff hmem).mpr ?_, by cases i <;> rfl⟩
  cases i
  all_goals
    simp at hch hnsel hu
    simp (disch := decide) [layout, opcode, rows, hop, hch, hnsel, hu, hlow, hlen, hhigh, field_ofNat]

/-- A word that matches a row decodes to a command with the mnemonic of that row. -/
theorem decode_of_hit {w : Word} {r : Row} (hr : r ∈ rows) (h : r.hit w = true) :
    ∃ i, decode w = .ok i ∧ i.mnemonic = r.mnemonic := by
  rw [Row.hit_iff hr] at h
  simp only [rows, List.mem_cons, List.not_mem_nil, or_false] at hr
  rcases hr with rfl | rfl | rfl | rfl | rfl | rfl | rfl | rfl | rfl | rfl | rfl
  all_goals
    simp (disch := decide) [layout, field_ofNat] at h
    simp [decode, accept, h, Instr.mnemonic]

theorem rows_eq_of_mnemonic : ∀ r ∈ rows, ∀ q ∈ rows, r.mnemonic = q.mnemonic → r = q := by decide

/-- A row matches exactly the words that decode to the command it names (30_encoding.md R95). -/
theorem hit_iff_decode {w : Word} {r : Row} (hr : r ∈ rows) :
    r.hit w = true ↔ ∃ i, decode w = .ok i ∧ i.mnemonic = r.mnemonic := by
  refine ⟨decode_of_hit hr, fun ⟨i, hdecode, hname⟩ => ?_⟩
  obtain ⟨q, hq, hhit, hqname⟩ := (decode_ok_iff.mp hdecode).hit_row
  rwa [rows_eq_of_mnemonic r hr q hq (hname.symm.trans hqname.symm)]

/-- The rows that a legal word matches: the one row its command's mnemonic names. -/
theorem mnemonics_of_decode {w : Word} {i : Instr} (h : decode w = .ok i) :
    (rows.filter fun r => r.hit w).map (fun r => r.mnemonic) = [i.mnemonic] := by
  have hfilter : (rows.filter fun r => r.hit w) = rows.filter fun r => i.mnemonic = r.mnemonic :=
    List.filter_congr fun r hr => by
      rw [Bool.eq_iff_iff, hit_iff_decode hr, h]
      simp
  rw [hfilter]
  cases i <;> rfl

theorem hits_of_decode_error {w : Word} {e : DecodeError} (h : decode w = .error e) :
    (rows.filter fun r => r.hit w) = [] :=
  List.filter_eq_nil_iff.mpr fun r hr hhit => by
    obtain ⟨i, hdecode, -⟩ := (hit_iff_decode hr).mp hhit
    cases h.symm.trans hdecode

/-- Settles O1: the word of a well-formed command carries it, and a word decodes to what it carries. -/
theorem decodeAfterEncode : Obligations.DecodeAfterEncode := fun _ h => decode_ok_iff.mpr (carries_encode h)

/-- Settles O2: a word that decodes to a command carries it, and its fields are all of its bits. -/
theorem encodeAfterDecode : Obligations.EncodeAfterDecode :=
  fun _ _ h => ⟨decode_wf h, (decode_ok_iff.mp h).encode_eq⟩

/-- Settles O3: the rows a word matches are the rows that name the command it decodes to. -/
theorem legalWordMatchesOneRow : Obligations.LegalWordMatchesOneRow := by
  intro w
  refine ⟨⟨fun ⟨i, h⟩ => by simpa using congrArg List.length (mnemonics_of_decode h), fun hone => ?_⟩,
    fun _ => mnemonics_of_decode, fun _ => hits_of_decode_error⟩
  cases h : decode w with
  | ok i => exact ⟨i, rfl⟩
  | error e => rw [hits_of_decode_error h] at hone; cases hone

/-- Settles O4, by decoding each of the six words. -/
theorem workedEncodings : Obligations.WorkedEncodings := by
  unfold Obligations.WorkedEncodings
  decide

end Sys2Proof

/-! # Family 40_designer.md: the design commands, the exact relations of the designs, and the responses of the exact
sections

The design commands come from one lemma in contract and one out of it. The relations of R119 follow from the exact formulas,
since RN32 has one value. The responses of R123 follow from the transfer functions over the common denominator. -/

namespace Sys2Proof.Machine

/-! ### The design commands, in contract and out of it -/

/-- An entry of DOUT after a design command has written its own. -/
theorem writeDout_get (n : Nat) (sets : Four CoeffSet) (s : State) {k : Nat} (hk : k < 4) :
    (writeDout n sets s).dout.get k = if k < n then sets.get k else s.dout.get k :=
  Four.get_mapIdx _ _ hk

theorem designPeakWith_inContract (d : Design) {s : State}
    (h : peakContract s.argSr s.argFreq s.argQ s.argGainDb = true) :
    designPeakWith d s = writeDout 1 (sections fun _ => d.peak s.argSr s.argFreq s.argQ s.argGainDb) s := by
  unfold designPeakWith
  rw [h]
  rfl

theorem designCutWith_inContract (sect : F32 → F32 → Nat → Nat → CoeffSet) (cmd : Instr) (n : Nat) {s : State}
    (h : cutContract s.argSr s.argFreq = true) :
    designCutWith sect cmd n s = writeDout n (sections (sect s.argSr s.argFreq n)) s := by
  unfold designCutWith
  rw [h]
  rfl

/-- A cut design command in contract: its own entries of DOUT are the designer's sections. -/
theorem designCutWith_dout_get (sect : F32 → F32 → Nat → Nat → CoeffSet) (cmd : Instr) (n : Nat) {s : State}
    (h : cutContract s.argSr s.argFreq = true) {k : Nat} (hk : k < 4) :
    (designCutWith sect cmd n s).dout.get k = if k < n then sect s.argSr s.argFreq n k else s.dout.get k := by
  rw [designCutWith_inContract sect cmd n h, writeDout_get n _ s hk, sections_get _ hk]

/-- In contract a cut design command writes its `n` entries of DOUT, and DESIGN_N, and nothing else. -/
theorem designCutWith_writes (sect : F32 → F32 → Nat → Nat → CoeffSet) (cmd : Instr) {n : Nat} (hn : n ≤ 4) {s : State}
    (h : cutContract s.argSr s.argFreq = true) :
    let t := designCutWith sect cmd n s
    t = { s with dout := t.dout, designN := t.designN } ∧ t.designN.toNat = n ∧
      ∀ k, k < 4 → (k < n → t.dout.get k = sect s.argSr s.argFreq n k) ∧ (n ≤ k → t.dout.get k = s.dout.get k) := by
  refine ⟨?_, ?_, fun k hk => ?_⟩
  · rw [designCutWith_inContract sect cmd n h]
    rfl
  · rw [designCutWith_inContract sect cmd n h, writeDout_designN, count_toNat hn]
  · rw [designCutWith_dout_get sect cmd n h hk]
    exact ⟨fun hkn => if_pos hkn, fun hnk => if_neg (Nat.not_lt.mpr hnk)⟩

/-- A design command for `n` sections that leaves the other entries of DOUT and records that `cmd` broke its contract. -/
structure DesignViolation (cmd : Instr) (n : Nat) (s t : State) : Prop where
  frame    : DesignFrame n s t
  recorded : .contractViolation cmd ∈ t.faults
  kept     : ∀ k, n ≤ k → k < 4 → t.dout.get k = s.dout.get k

theorem writeDout_violation (cmd : Instr) (n m : Nat) (sets : Four CoeffSet) (s : State) :
    DesignViolation cmd n s (writeDout n sets (takeFree m (recordUnless false cmd s))) where
  frame := by
    unfold DesignFrame
    rw [recordUnless_eq]
    rfl
  recorded := mem_recordUnless_false cmd s
  kept := fun k hnk hk => by
    rw [writeDout_get n sets _ hk, if_neg (Nat.not_lt.mpr hnk), takeFree_dout, recordUnless_eq]

theorem designPeakWith_outOfContract (d : Design) {s : State}
    (h : peakContract s.argSr s.argFreq s.argQ s.argGainDb = false) :
    DesignViolation .designPeak 1 s (designPeakWith d s) := by
  unfold designPeakWith
  rw [h]
  exact writeDout_violation ..

theorem designCutWith_outOfContract (sect : F32 → F32 → Nat → Nat → CoeffSet) (cmd : Instr) (n : Nat) {s : State}
    (h : cutContract s.argSr s.argFreq = false) : DesignViolation cmd n s (designCutWith sect cmd n s) := by
  unfold designCutWith
  rw [h]
  exact writeDout_violation ..

theorem DesignFrame.designN {n : Nat} {s t : State} (h : DesignFrame n s t) : t.designN = BitVec.ofNat 3 n := by rw [h]

/-- Out of contract, as 60_exceptions.md R206 says it of a cut design command. -/
theorem DesignViolation.spelledOut {cmd : Instr} {n : Nat} (hn : n ≤ 4) {s t : State} (h : DesignViolation cmd n s t) :
    t = { s with dout := t.dout, designN := t.designN, faults := t.faults, freeCount := t.freeCount } ∧
      t.designN.toNat = n ∧ .contractViolation cmd ∈ t.faults ∧ ∀ k, n ≤ k → k < 4 → t.dout.get k = s.dout.get k := by
  obtain ⟨hframe, hrecorded, hkept⟩ := h
  have hN := hframe.designN
  refine ⟨?_, by rw [hN, count_toNat hn], hrecorded, hkept⟩
  rw [hN]
  exact hframe

end Sys2Proof.Machine

namespace Sys2Proof.Exact

open Filter Topology

/-! ### Transfer functions over a common denominator -/

/-- The transfer function of a section whose five coefficients are quotients by one denominator `d`. -/
theorem transfer_of_quotients {e : Exact} {b0 b1 b2 a1 a2 d : ℝ} (hd : d ≠ 0)
    (h : e.b0 = b0 / d ∧ e.b1 = b1 / d ∧ e.b2 = b2 / d ∧ e.a1 = a1 / d ∧ e.a2 = a2 / d) (u : ℂ) :
    e.transfer u = (b0 + b1 * u + b2 * u ^ 2) / (d + a1 * u + a2 * u ^ 2) := by
  obtain ⟨h0, h1, h2, h3, h4⟩ := h
  have hd' : (d : ℂ) ≠ 0 := Complex.ofReal_ne_zero.mpr hd
  have hnum : (e.b0 + e.b1 * u + e.b2 * u ^ 2 : ℂ) = (b0 + b1 * u + b2 * u ^ 2) / d := by
    rw [h0, h1, h2]
    push_cast
    ring
  have hden : (1 + e.a1 * u + e.a2 * u ^ 2 : ℂ) = (d + a1 * u + a2 * u ^ 2) / d := by
    rw [h3, h4]
    push_cast
    field_simp
  rw [transfer, hnum, hden, div_div_div_cancel_right₀ hd']

/-- Half the angle of a frequency within the contract (40_designer.md R117), as exact numbers. -/
theorem half_angle_range {sr f : ℝ} (h0 : 0 < f) (h1 : 2 * f < sr) :
    0 < Real.pi * f / sr ∧ Real.pi * f / sr < Real.pi / 2 := by
  have hsr : 0 < sr := by linarith
  refine ⟨by positivity, ?_⟩
  rw [div_lt_div_iff₀ hsr two_pos]
  nlinarith [Real.pi_pos]

theorem sin_pos_of_half_angle {sr f : ℝ} (h : 0 < Real.pi * f / sr ∧ Real.pi * f / sr < Real.pi / 2) :
    0 < Real.sin (2 * Real.pi * f / sr) := by
  obtain ⟨hpos, hlt⟩ := h
  rw [show 2 * Real.pi * f / sr = 2 * (Real.pi * f / sr) by ring]
  exact Real.sin_pos_of_pos_of_lt_pi (by linarith) (by linarith)

/-! ### The peaking section (40_designer.md R112, R123) -/

/-- The formulas of R112, in the angle `w`, the bandwidth `α` and the amplitude `A`. -/
noncomputable def peakOf (w α A : ℝ) : Exact where
  b0 := (1 + α * A) / (1 + α / A)
  b1 := -2 * Real.cos w / (1 + α / A)
  b2 := (1 - α * A) / (1 + α / A)
  a1 := -2 * Real.cos w / (1 + α / A)
  a2 := (1 - α / A) / (1 + α / A)

theorem peak_eq_peakOf (sr f q g : ℝ) :
    peak sr f q g = peakOf (2 * Real.pi * f / sr) (Real.sin (2 * Real.pi * f / sr) / (2 * q)) √(10 ^ (g / 20)) := rfl

/-- The numerator of a peaking section, with `d = α A`, and its denominator, with `d = α / A`. -/
noncomputable def peakPoly (w d : ℝ) (u : ℂ) : ℂ := (1 + d : ℝ) + (-2 * Real.cos w : ℝ) * u + (1 - d : ℝ) * u ^ 2

theorem peakOf_transfer (w : ℝ) {α A : ℝ} (hα : 0 < α) (hA : 0 < A) (u : ℂ) :
    (peakOf w α A).transfer u = peakPoly w (α * A) u / peakPoly w (α / A) u :=
  transfer_of_quotients (by positivity : 1 + α / A ≠ 0) ⟨rfl, rfl, rfl, rfl, rfl⟩ u

/-- At the centre frequency only the terms with `d` are left. -/
theorem peakPoly_centre (w d : ℝ) :
    peakPoly w d (Complex.exp (-w * Complex.I)) = 2 * Complex.I * Real.sin w * Complex.exp (-w * Complex.I) * d := by
  have hunit := Complex.sin_sq_add_cos_sq w
  rw [Complex.exp_mul_I, Complex.cos_neg, Complex.sin_neg]
  unfold peakPoly
  push_cast
  linear_combination (1 + d) * (Complex.sin w ^ 2 * Complex.I_sq - hunit)

theorem peakPoly_one (w d : ℝ) : peakPoly w d 1 = (2 - 2 * Real.cos w : ℝ) := by
  unfold peakPoly
  push_cast
  ring

theorem peakPoly_neg_one (w d : ℝ) : peakPoly w d (-1) = (2 + 2 * Real.cos w : ℝ) := by
  unfold peakPoly
  push_cast
  ring

/-- The gain at the centre frequency is the square of the amplitude. -/
theorem peakOf_transfer_centre {w α A : ℝ} (hw : 0 < Real.sin w) (hα : 0 < α) (hA : 0 < A) :
    (peakOf w α A).transfer (Complex.exp (-w * Complex.I)) = (A ^ 2 : ℝ) := by
  have hfactor : 2 * Complex.I * Real.sin w * Complex.exp (-w * Complex.I) ≠ 0 := by
    simpa [← Complex.ofReal_sin] using hw.ne'
  have hratio : α * A / (α / A) = A ^ 2 := by
    field_simp
  rw [peakOf_transfer w hα hA, peakPoly_centre, peakPoly_centre, mul_div_mul_left _ _ hfactor,
    ← Complex.ofReal_div, hratio]

theorem peakOf_transfer_one {w α A : ℝ} (hw : Real.cos w < 1) (hα : 0 < α) (hA : 0 < A) :
    (peakOf w α A).transfer 1 = 1 := by
  rw [peakOf_transfer w hα hA, peakPoly_one, peakPoly_one]
  exact div_self (Complex.ofReal_ne_zero.mpr (by linarith))

theorem peakOf_transfer_neg_one {w α A : ℝ} (hw : -1 < Real.cos w) (hα : 0 < α) (hA : 0 < A) :
    (peakOf w α A).transfer (-1) = 1 := by
  rw [peakOf_transfer w hα hA, peakPoly_neg_one, peakPoly_neg_one]
  exact div_self (Complex.ofReal_ne_zero.mpr (by linarith))

/-! ### The cut sections (40_designer.md R115, R116, R123) -/

/-- The denominator that the two kinds of cut section share, at half angle `t`, for a pole at angle `φ`. -/
noncomputable def cutDen (φ t : ℝ) (u : ℂ) : ℂ :=
  (1 + Real.sin (2 * t) * Real.cos φ : ℝ) + (-2 * Real.cos (2 * t) : ℝ) * u +
    (1 - Real.sin (2 * t) * Real.cos φ : ℝ) * u ^ 2

/-- The response of a high-pass section. -/
noncomputable def highResponse (φ : ℝ) (u : ℂ) (t : ℝ) : ℂ := Real.cos t ^ 2 * (1 - u) ^ 2 / cutDen φ t u

/-- The response of a low-pass section. -/
noncomputable def lowResponse (φ : ℝ) (u : ℂ) (t : ℝ) : ℂ := Real.sin t ^ 2 * (1 + u) ^ 2 / cutDen φ t u

/-- The angle of the pole of section `k` of `n` (40_designer.md R114). -/
noncomputable def poleAngle (n k : Nat) : ℝ := (2 * k + 1) * Real.pi / (4 * n)

theorem highpass_transfer {sr : ℝ} {n k : Nat} (hk : k < n) (u : ℂ) (f : ℝ) (h0 : 0 < f) (h1 : 2 * f < sr) :
    (highpass sr f n k).transfer u = highResponse (poleAngle n k) u (Real.pi * f / sr) := by
  obtain ⟨hpos, hlt⟩ := half_angle_range h0 h1
  rw [transfer_of_quotients (Designer.cut_den_pos hpos hlt hk).ne' (Designer.highpass_forms hpos hlt hk), highResponse,
    cutDen, poleAngle]
  congr 1
  push_cast
  ring

theorem lowpass_transfer {sr : ℝ} {n k : Nat} (hk : k < n) (u : ℂ) (f : ℝ) (h0 : 0 < f) (h1 : 2 * f < sr) :
    (lowpass sr f n k).transfer u = lowResponse (poleAngle n k) u (Real.pi * f / sr) := by
  obtain ⟨hpos, hlt⟩ := half_angle_range h0 h1
  rw [transfer_of_quotients (Designer.cut_den_pos hpos hlt hk).ne' (Designer.lowpass_forms hpos hlt hk), lowResponse,
    cutDen, poleAngle]
  congr 1
  push_cast
  ring

/-- A frequency `w` strictly between DC and Nyquist is at neither of them. -/
theorem exp_ne_one_and_ne_neg_one {w : ℝ} (h0 : 0 < w) (h1 : w < Real.pi) :
    Complex.exp (-w * Complex.I) ≠ 1 ∧ Complex.exp (-w * Complex.I) ≠ -1 := by
  have him : (Complex.exp (-w * Complex.I)).im = -Real.sin w := by
    rw [← Complex.ofReal_neg, Complex.exp_ofReal_mul_I_im, Real.sin_neg]
  have hne : (Complex.exp (-w * Complex.I)).im ≠ 0 := by
    rw [him]
    exact neg_ne_zero.mpr (Real.sin_pos_of_pos_of_lt_pi h0 h1).ne'
  exact ⟨fun h => hne (by rw [h, Complex.one_im]), fun h => hne (by rw [h, Complex.neg_im, Complex.one_im, neg_zero])⟩

@[simp] theorem cutDen_zero (φ : ℝ) (u : ℂ) : cutDen φ 0 u = (1 - u) ^ 2 := by
  simp only [cutDen, mul_zero, Real.sin_zero, Real.cos_zero]
  push_cast
  ring

@[simp] theorem cutDen_pi_div_two (φ : ℝ) (u : ℂ) : cutDen φ (Real.pi / 2) u = (1 + u) ^ 2 := by
  simp only [cutDen, mul_div_cancel₀ Real.pi (two_ne_zero : (2 : ℝ) ≠ 0), Real.sin_pi, Real.cos_pi]
  push_cast
  ring

theorem continuous_cutDen (φ : ℝ) (u : ℂ) : Continuous fun t => cutDen φ t u := by
  unfold cutDen
  fun_prop

theorem continuousAt_highResponse {φ t : ℝ} {u : ℂ} (h : cutDen φ t u ≠ 0) : ContinuousAt (highResponse φ u) t :=
  ContinuousAt.div (by fun_prop) (continuous_cutDen φ u).continuousAt h

theorem continuousAt_lowResponse {φ t : ℝ} {u : ℂ} (h : cutDen φ t u ≠ 0) : ContinuousAt (lowResponse φ u) t :=
  ContinuousAt.div (by fun_prop) (continuous_cutDen φ u).continuousAt h

/-! ### The cutoff going to an end of its range -/

/-- A cutoff that stays within its contract along `l`, and whose half angle goes to `t`. -/
structure CutoffTends (sr : ℝ) (l : Filter ℝ) (t : ℝ) : Prop where
  within : ∀ᶠ f in l, 0 < f ∧ 2 * f < sr
  angle  : Tendsto (fun f => Real.pi * f / sr) l (𝓝 t)

theorem CutoffTends.to_zero {sr : ℝ} (hsr : 0 < sr) : CutoffTends sr (𝓝[>] 0) 0 where
  within := by
    filter_upwards [Ioo_mem_nhdsGT (half_pos hsr)] with f ⟨h0, h1⟩
    exact ⟨h0, by linarith⟩
  angle := by
    have h : ContinuousAt (fun f => Real.pi * f / sr) 0 := by fun_prop
    simpa [ContinuousAt] using h.mono_left nhdsWithin_le_nhds

theorem CutoffTends.to_nyquist {sr : ℝ} (hsr : 0 < sr) : CutoffTends sr (𝓝[<] (sr / 2)) (Real.pi / 2) where
  within := by
    filter_upwards [Ioo_mem_nhdsLT (half_pos hsr)] with f ⟨h0, h1⟩
    exact ⟨h0, by linarith⟩
  angle := by
    have h : ContinuousAt (fun f => Real.pi * f / sr) (sr / 2) := by fun_prop
    have hval : Real.pi * (sr / 2) / sr = Real.pi / 2 := by field_simp
    rw [← hval]
    exact h.mono_left nhdsWithin_le_nhds

/-- A section whose response is a continuous function `R` of the half angle: it goes to the value of `R` at the limit. -/
theorem CutoffTends.transfer {sr t : ℝ} {l : Filter ℝ} (h : CutoffTends sr l t) {sect : ℝ → Exact} {R : ℝ → ℂ} {u : ℂ}
    (hR : ContinuousAt R t) (hsect : ∀ f, 0 < f → 2 * f < sr → (sect f).transfer u = R (Real.pi * f / sr)) :
    Tendsto (fun f => (sect f).transfer u) l (𝓝 (R t)) := by
  refine (hR.tendsto.comp h.angle).congr' ?_
  filter_upwards [h.within] with f ⟨h0, h1⟩
  exact (hsect f h0 h1).symm

/-- Where the response of each of `n` sections goes to `c`, the gain of their product goes to `‖c‖ ^ n`. -/
theorem tendsto_gain {l : Filter ℝ} {n : Nat} {H : ℝ → Nat → ℂ} {c : ℂ} (h : ∀ k < n, Tendsto (H · k) l (𝓝 c)) :
    Tendsto (fun f => ∏ k ∈ Finset.range n, ‖H f k‖) l (𝓝 (‖c‖ ^ n)) := by
  have hprod := tendsto_finsetProd (Finset.range n) fun k hk => (h k (Finset.mem_range.mp hk)).norm
  rwa [Finset.prod_const, Finset.card_range] at hprod

theorem tendsto_gain_one {l : Filter ℝ} {n : Nat} {H : ℝ → Nat → ℂ} (h : ∀ k < n, Tendsto (H · k) l (𝓝 1)) :
    Tendsto (fun f => ∏ k ∈ Finset.range n, ‖H f k‖) l (𝓝 1) := by
  simpa using tendsto_gain h

theorem tendsto_gain_zero {l : Filter ℝ} {n : Nat} (hn : 1 ≤ n) {H : ℝ → Nat → ℂ}
    (h : ∀ k < n, Tendsto (H · k) l (𝓝 0)) :
    Tendsto (fun f => ∏ k ∈ Finset.range n, ‖H f k‖) l (𝓝 0) := by
  simpa [Nat.one_le_iff_ne_zero.mp hn] using tendsto_gain h

/-! ### The responses at the two ends -/

theorem highResponse_zero (φ : ℝ) {u : ℂ} (hu : 1 - u ≠ 0) : highResponse φ u 0 = 1 := by
  simp [highResponse, hu]

theorem highResponse_pi_div_two (φ : ℝ) (u : ℂ) : highResponse φ u (Real.pi / 2) = 0 := by
  simp [highResponse]

theorem lowResponse_zero (φ : ℝ) (u : ℂ) : lowResponse φ u 0 = 0 := by
  simp [lowResponse]

theorem lowResponse_pi_div_two (φ : ℝ) {u : ℂ} (hu : 1 + u ≠ 0) : lowResponse φ u (Real.pi / 2) = 1 := by
  simp [lowResponse, hu]

end Sys2Proof.Exact

namespace Sys2Proof.Designer

open Sys2Proof.F32 Sys2Proof.Machine

/-! ### The exact formulas, at the magnitudes of the doubling of R119 -/

/-- `Q_k` is positive, since the angle in its formula (40_designer.md R114) is acute. -/
theorem quality_pos {n k : Nat} (hk : k < n) : 0 < Exact.quality n k := by
  have hn : (0 : ℝ) < n := by exact_mod_cast Nat.zero_lt_of_lt hk
  have hkn : (k : ℝ) + 1 ≤ n := by exact_mod_cast hk
  have hangle : (2 * k + 1) * Real.pi / (4 * n) < Real.pi / 2 := by
    rw [div_lt_div_iff₀ (by positivity) two_pos]
    nlinarith [Real.pi_pos]
  have hcos : 0 < Real.cos ((2 * k + 1) * Real.pi / (4 * n)) :=
    Real.cos_pos_of_mem_Ioo ⟨(by linarith [Real.pi_pos] : -(Real.pi / 2) < 0).trans (by positivity), hangle⟩
  unfold Exact.quality
  positivity

/-- The gain `c1` of a cut section, whose prewarped frequency is `m`, lies in (0, 1]. -/
theorem cut_gain_range {m q : ℝ} (hm : 0 < m) (hq : 0 < q) :
    0 < 1 / (1 + m / q + m * m) ∧ 1 / (1 + m / q + m * m) ≤ 1 := by
  have h : 0 ≤ m / q + m * m := by positivity
  exact ⟨by positivity, (div_le_one (by positivity)).mpr (by linarith)⟩

theorem CutOperands.tan_pos {sr f : F32} (h : CutOperands sr f) : 0 < Real.tan (Real.pi * real f / real sr) :=
  Real.tan_pos_of_pos_of_lt_pi_div_two h.half_angle.1 h.half_angle.2

theorem CutOperands.highpass_b0_range {sr f : F32} (h : CutOperands sr f) {n k : Nat} (hk : k < n) :
    0 < (Exact.highpass (real sr) (real f) n k).b0 ∧ (Exact.highpass (real sr) (real f) n k).b0 ≤ 1 :=
  cut_gain_range h.tan_pos (quality_pos hk)

theorem CutOperands.lowpass_b0_range {sr f : F32} (h : CutOperands sr f) {n k : Nat} (hk : k < n) :
    0 < (Exact.lowpass (real sr) (real f) n k).b0 ∧ (Exact.lowpass (real sr) (real f) n k).b0 ≤ 1 :=
  cut_gain_range (one_div_pos.mpr h.tan_pos) (quality_pos hk)

/-- The formulas of the two kinds of section for `a1` and `a2` have the same values (40_designer.md R119). -/
theorem CutOperands.exact_feedback_eq {sr f : F32} (h : CutOperands sr f) {n k : Nat} (hk : k < n) :
    (Exact.highpass (real sr) (real f) n k).a1 = (Exact.lowpass (real sr) (real f) n k).a1 ∧
    (Exact.highpass (real sr) (real f) n k).a2 = (Exact.lowpass (real sr) (real f) n k).a2 := by
  obtain ⟨hpos, hlt⟩ := h.half_angle
  obtain ⟨-, -, -, hh1, hh2⟩ := highpass_forms hpos hlt hk
  obtain ⟨-, -, -, hl1, hl2⟩ := lowpass_forms hpos hlt hk
  exact ⟨hh1.trans hl1.symm, hh2.trans hl2.symm⟩

/-- At 0 dB the peaking section is 1: its numerator is its denominator (40_designer.md R119). -/
theorem CutOperands.exact_peak_zero_gain {sr f q : F32} (h : CutOperands sr f) (hq : 0 < units q) :
    (Exact.peak (real sr) (real f) (real q) 0).b0 = 1 ∧
    (Exact.peak (real sr) (real f) (real q) 0).b2 = (Exact.peak (real sr) (real f) (real q) 0).a2 := by
  have hsin := Exact.sin_pos_of_half_angle h.half_angle
  have hq' : 0 < real q := div_pos (by exact_mod_cast hq) (by positivity)
  have hden : 1 + Real.sin (2 * Real.pi * real f / real sr) / (2 * real q) ≠ 0 := by positivity
  simp [Exact.peak, hden]

/-! ### The relations of the rounded designs -/

theorem isRN32_one : IsRN32 1 0x3F800000#32 := by
  have h := round_isRN32 (2 ^ 149) (d := 1) Nat.one_pos
  rwa [show round (2 ^ 149) 1 = 0x3F800000#32 by decide +kernel, Int.cast_pow, Int.cast_ofNat, Nat.cast_one, div_one,
    div_self (by positivity)] at h

/-- Doubling, at the magnitudes of a cut section's gain. -/
theorem units_double_of_isRN32 {r : ℝ} {v w : F32} (hr : 0 < r ∧ r ≤ 1) (hv : IsRN32 r v) (hw : IsRN32 (2 * r) w)
    (hn : 2 ^ 23 < units v) : units w = 2 * units v :=
  hv.double hw hr.1 (hr.2.trans (by norm_num)) hn

/-- A high-pass section of exact gain `r`, rounded: its `b1` is the doubled gain with its sign turned. -/
theorem units_neg_double_of_isRN32 {r : ℝ} {v w : F32} (hr : 0 < r ∧ r ≤ 1) (hv : IsRN32 r v) (hw : IsRN32 (-2 * r) w)
    (hn : 2 ^ 23 < units v) : units w = -2 * units v := by
  have hneg : IsRN32 (2 * r) (neg w) := by
    have h := hw.neg (by linarith [hr.1])
    rwa [neg_mul, neg_neg] at h
  have h := units_double_of_isRN32 hr hv hneg hn
  rw [units_neg] at h
  omega

end Sys2Proof.Designer

namespace Sys2Proof

open Sys2Proof.Machine Sys2Proof.F32 Sys2Proof.Designer Sys2Proof.Exact

/-! ### The obligations -/

/-- Settles O24: DESIGN.PEAK in contract is one write of DOUT. -/
theorem designPeakWritesDout : Obligations.DesignPeakWritesDout := by
  intro s h
  exact congrArg Host.Outcome.next (designPeakWith_inContract Config.design h)

/-- Settles O25: a cut design command in contract, with the high-pass sections. -/
theorem designLcWritesDout : Obligations.DesignLcWritesDout :=
  fun n _ _ hn h => ⟨_, rfl, designCutWith_writes Config.design.highpass (.designLc n) hn h⟩

/-- Settles O26: a cut design command in contract, with the low-pass sections. -/
theorem designHcWritesDout : Obligations.DesignHcWritesDout :=
  fun n _ _ hn h => ⟨_, rfl, designCutWith_writes Config.design.lowpass (.designHc n) hn h⟩

/-- Settles O27: each command writes free values where it would have written the designs, and records itself. -/
theorem designOutOfContract : Obligations.DesignOutOfContract := by
  intro s
  refine ⟨fun h => ?_, fun n _ hn h => ⟨⟨_, rfl, ?_⟩, ⟨_, rfl, ?_⟩⟩⟩
  · obtain ⟨hframe, hrecorded, hkept⟩ := designPeakWith_outOfContract Config.design h
    exact ⟨_, rfl, hframe, hrecorded, hkept⟩
  · exact (designCutWith_outOfContract Config.design.highpass (.designLc n) n h).spelledOut hn
  · exact (designCutWith_outOfContract Config.design.lowpass (.designHc n) n h).spelledOut hn

/-- Settles O30: the settled designs are RN32 of exact formulas that meet the relations, and RN32 has one value. -/
theorem exactRelationsOfDesigns : Obligations.ExactRelationsOfDesigns := by
  intro sr f
  refine ⟨fun n k hcontract hn hk hhigh hlow => ?_, fun q g hcontract hsettled => ?_⟩
  · have hops := cutContract_operands hcontract
    obtain ⟨hrounds, lrounds⟩ := cutDesignsCorrectlyRounded sr f n k hcontract hn hk
    obtain ⟨hb0, hb1, hb2, ha1, ha2⟩ := hrounds hhigh
    obtain ⟨lb0, lb1, lb2, la1, la2⟩ := lrounds hlow
    obtain ⟨ea1, ea2⟩ := hops.exact_feedback_eq hk
    rw [← ea1] at la1
    rw [← ea2] at la2
    exact ⟨hb2.unique hb0, lb2.unique lb0, units_neg_double_of_isRN32 (hops.highpass_b0_range hk) hb0 hb1,
      units_double_of_isRN32 (hops.lowpass_b0_range hk) lb0 lb1, ha1.unique la1, ha2.unique la2⟩
  · obtain ⟨hops, hq, -⟩ := peakContract_operands hcontract
    obtain ⟨hb0, hb1, hb2, ha1, ha2⟩ := peakDesignCorrectlyRounded sr f q g hcontract hsettled
    refine ⟨ha1.unique hb1, fun hg => ?_⟩
    have hg' : real g = 0 := by simp [real, hg]
    rw [hg'] at hb0 hb2 ha2
    obtain ⟨eb0, eb2⟩ := hops.exact_peak_zero_gain hq
    rw [eb0] at hb0
    rw [eb2] at hb2
    exact ⟨hb0.unique isRN32_one, hb2.unique ha2⟩

/-- Settles O31: at the centre the gain is the square of the amplitude, and at DC and Nyquist the terms with `α` cancel. -/
theorem peakGainAtCentre : Obligations.PeakGainAtCentre := by
  intro sr f q g hf hsr hq
  have hsin := sin_pos_of_half_angle (half_angle_range hf hsr)
  obtain ⟨hcosLo, hcosHi⟩ : -1 < Real.cos (2 * Real.pi * f / sr) ∧ Real.cos (2 * Real.pi * f / sr) < 1 := by
    constructor <;> nlinarith [Real.sin_sq_add_cos_sq (2 * Real.pi * f / sr)]
  have hα : 0 < Real.sin (2 * Real.pi * f / sr) / (2 * q) := by positivity
  have hG : (0 : ℝ) < 10 ^ (g / 20) := by positivity
  have hA : 0 < √((10 : ℝ) ^ (g / 20)) := Real.sqrt_pos.mpr hG
  rw [peak_eq_peakOf]
  refine ⟨?_, peakOf_transfer_one hcosHi hα hA, peakOf_transfer_neg_one hcosLo hα hA⟩
  rw [peakOf_transfer_centre hsin hα hA, Real.sq_sqrt hG.le, Complex.norm_real, Real.norm_of_nonneg hG.le]

/-- Settles O32: each section's response is continuous in its angle, and at both ends the shared denominator is the square
that one of the two numerators becomes. -/
theorem cutResponseLimits : Obligations.CutResponseLimits := by
  intro sr w n hsr hw0 hwpi hn _ u low high toZero toNyquist
  obtain ⟨hone, hneg⟩ : u ≠ 1 ∧ u ≠ -1 := exp_ne_one_and_ne_neg_one hw0 hwpi
  have hdc : 1 - u ≠ 0 := sub_ne_zero.mpr hone.symm
  have hny : 1 + u ≠ 0 := fun h => hneg (eq_neg_of_add_eq_zero_right h)
  have hdenZero : ∀ φ, cutDen φ 0 u ≠ 0 := fun φ => by simpa using hdc
  have hdenNyquist : ∀ φ, cutDen φ (Real.pi / 2) u ≠ 0 := fun φ => by simpa using hny
  have zero := CutoffTends.to_zero hsr
  have nyquist := CutoffTends.to_nyquist hsr
  refine ⟨tendsto_gain_one fun k hk => ?_, tendsto_gain_zero hn fun k hk => ?_, tendsto_gain_zero hn fun k hk => ?_,
    tendsto_gain_one fun k hk => ?_⟩
  · simpa only [highResponse_zero _ hdc] using
      zero.transfer (continuousAt_highResponse (hdenZero _)) (highpass_transfer hk u)
  · simpa only [highResponse_pi_div_two] using
      nyquist.transfer (continuousAt_highResponse (hdenNyquist _)) (highpass_transfer hk u)
  · simpa only [lowResponse_zero] using
      zero.transfer (continuousAt_lowResponse (hdenZero _)) (lowpass_transfer hk u)
  · simpa only [lowResponse_pi_div_two _ hny] using
      nyquist.transfer (continuousAt_lowResponse (hdenNyquist _)) (lowpass_transfer hk u)

end Sys2Proof

/-! # Family 41_cascade.md: the stage, the cut filter and the channel, the SET commands, and PROCESS

First what zeros, NaNs and the factor 1 do in the arithmetic, then one sample through a stage, then the two forms of
command: the channel loop of the SET commands, and the block of PROCESS as a run of the filter over a list of samples. -/

namespace Sys2Proof.F32

open Sys2Proof.Machine

/-! ### NaN operands -/

theorem fadd_of_isNaN_left {a : F32} (h : isNaN a = true) (b : F32) : fadd a b = nan := fadd_of_invalid (.inl h)

theorem fadd_of_isNaN_right (a : F32) {b : F32} (h : isNaN b = true) : fadd a b = nan := fadd_of_invalid (.inr (.inl h))

theorem fsub_of_isNaN_left {a : F32} (h : isNaN a = true) (b : F32) : fsub a b = nan := fadd_of_isNaN_left h (neg b)

theorem fsub_of_isNaN_right (a : F32) {b : F32} (h : isNaN b = true) : fsub a b = nan :=
  fadd_of_isNaN_right a ((isNaN_neg b).trans h)

theorem fmul_of_isNaN_right (a : F32) {b : F32} (h : isNaN b = true) : fmul a b = nan := fmul_of_invalid (.inr (.inl h))

theorem isNaN_nan : isNaN nan = true := by decide

/-! ### Zero operands -/

theorem isFinite_of_zeroWord {a : F32} (h : zeroWord a) : isFinite a = true := ((zeroWord_iff a).mp h).1

theorem units_of_zeroWord {a : F32} (h : zeroWord a) : units a = 0 := by
  unfold units
  simp [((zeroWord_iff a).mp h).2]

theorem zeroWord_pack_zero (s : Bool) : zeroWord (pack s 0) := by cases s <;> simp [pack_zero, zeroWord]

theorem zeroWord_neg {a : F32} (h : zeroWord a) : zeroWord (neg a) := by
  rw [zeroWord_iff, isFinite_neg, mag_eq_zero_iff, low_neg, ← mag_eq_zero_iff]
  exact (zeroWord_iff a).mp h

theorem zeroWord_fadd {a b : F32} (ha : zeroWord a) (hb : zeroWord b) : zeroWord (fadd a b) := by
  rw [fadd_of_isFinite (isFinite_of_zeroWord ha) (isFinite_of_zeroWord hb), units_of_zeroWord ha, units_of_zeroWord hb]
  exact zeroWord_pack_zero _

theorem zeroWord_fsub {a b : F32} (ha : zeroWord a) (hb : zeroWord b) : zeroWord (fsub a b) :=
  zeroWord_fadd ha (zeroWord_neg hb)

theorem zeroWord_fmul_right {a b : F32} (ha : isFinite a = true) (hb : zeroWord b) : zeroWord (fmul a b) := by
  rw [fmul_of_isFinite ha (isFinite_of_zeroWord hb), ((zeroWord_iff b).mp hb).2, Nat.mul_zero, roundMag_zero]
  exact zeroWord_pack_zero _

theorem zeroWord_fmul_left {a b : F32} (ha : zeroWord a) (hb : isFinite b = true) : zeroWord (fmul a b) :=
  fmul_comm b a ▸ zeroWord_fmul_right hb ha

/-! ### Exact results: the factor 1 and the summand 0 -/

theorem magOf_lt_overflowUnits {m : Nat} (h : m < infMag) : magOf m < overflowUnits :=
  calc magOf m ≤ magOf (infMag - 1) := (strictMono_nat_of_lt_succ magOf_lt_succ).monotone (Nat.le_pred_of_lt h)
    _ < overflowUnits := by decide

/-- The magnitude of a finite pattern rounds to itself, over any denominator. -/
theorem roundMag_magOf {m d : Nat} (hm : m < infMag) (hd : 0 < d) : roundMag (magOf m * d) d = m := by
  obtain ⟨-, hnear, -⟩ := (roundMag_spec hd).1 (Nat.mul_lt_mul_of_pos_right (magOf_lt_overflowUnits hm) hd)
  have hdist : |(magOf (roundMag (magOf m * d) d) : Int) * d - (magOf m * d : Nat)| ≤ 0 := by
    simpa using hnear m hm
  have heq : (magOf (roundMag (magOf m * d) d) : Int) * d = magOf m * d := by
    simpa [sub_eq_zero] using abs_nonpos_iff.mp hdist
  exact magOf_inj (Nat.eq_of_mul_eq_mul_right hd (by exact_mod_cast heq))

theorem fmul_one_left {x : F32} (hx : isFinite x = true) : fmul 0x3F800000#32 x = x := by
  have hsign : sign 0x3F800000#32 = false := by decide
  have hmag : mag 0x3F800000#32 = 2 ^ 149 := by decide
  rw [fmul_of_isFinite (by decide) hx, hsign, hmag, mag_eq_magOf, Nat.mul_comm,
    roundMag_magOf (low_lt_of_finite hx) (Nat.two_pow_pos 149), Bool.false_bne, ← eq_pack]

theorem fmul_one_left_of_isInf {x : F32} (hx : isInf x = true) : fmul 0x3F800000#32 x = x := by
  have hz : ¬ zeroWord 0x3F800000#32 := by unfold zeroWord; decide
  have hsign : sign 0x3F800000#32 = false := by decide
  rw [fmul_comm, fmul_of_isInf_left hx (by decide) hz, hsign, Bool.bne_false, ← eq_pack_of_isInf hx]

theorem round_units {x : F32} (hx : isFinite x = true) (h0 : units x ≠ 0) : round (units x) 1 = x := by
  have hneg : decide (units x < 0) = sign x := by
    unfold units at h0 ⊢
    cases hs : sign x <;> simp [hs] at h0 ⊢
    omega
  have habs : (units x).natAbs = magOf (low x) * 1 := by
    unfold units
    rw [Nat.mul_one, ← mag_eq_magOf]
    split <;> simp
  rw [round, hneg, habs, roundMag_magOf (low_lt_of_finite hx) Nat.one_pos, ← eq_pack]

/-- A zero of either sign added to a finite pattern leaves it, but for -0. -/
theorem fadd_zeroWord_right {x z : F32} (hx : isFinite x = true) (hne : x ≠ 0x80000000#32) (hz : zeroWord z) :
    fadd x z = x := by
  rw [fadd_of_isFinite hx (isFinite_of_zeroWord hz), units_of_zeroWord hz, add_zero]
  split
  · next h0 =>
    have hzero : zeroWord x := (zeroWord_iff x).mpr ⟨hx, by unfold units at h0; split at h0 <;> omega⟩
    obtain rfl : x = 0x00000000#32 := hzero.resolve_right hne
    rfl
  · next h0 => exact round_units hx h0

end Sys2Proof.F32

namespace Sys2Proof.Machine

open Sys2Proof.F32

/-! ### One sample through an enabled stage (41_cascade.md R140) -/

theorem Biquad.step_fst (b : Biquad) (x : F32) : (b.step x).1 = fadd (fmul b.cs.b0 x) b.s1 := rfl

theorem Biquad.step_s1 (b : Biquad) (x : F32) :
    (b.step x).2.s1 = fadd (fsub (fmul b.cs.b1 x) (fmul b.cs.a1 (b.step x).1)) b.s2 := rfl

theorem Biquad.step_s2 (b : Biquad) (x : F32) :
    (b.step x).2.s2 = fsub (fmul b.cs.b2 x) (fmul b.cs.a2 (b.step x).1) := rfl

/-- A NaN in the delay word s1 makes the output a NaN, which comes back into s1 (70_reset_and_hazards.md R239). -/
theorem Biquad.step_of_isNaN_s1 {b : Biquad} (h : isNaN b.s1 = true) (x : F32) :
    (b.step x).1 = nan ∧ isNaN (b.step x).2.s1 = true := by
  have hout : (b.step x).1 = nan := fadd_of_isNaN_right _ h
  have hfeedback : isNaN (fmul b.cs.a1 (b.step x).1) = true := by
    rw [hout, fmul_of_isNaN_right _ isNaN_nan, isNaN_nan]
  refine ⟨hout, ?_⟩
  rw [Biquad.step_s1, fsub_of_isNaN_right _ hfeedback, fadd_of_isNaN_left isNaN_nan, isNaN_nan]

/-- Where the two forward products are NaNs, both delay words are left NaN. -/
theorem Biquad.step_delays_of_isNaN {b : Biquad} {x : F32} (h1 : isNaN (fmul b.cs.b1 x) = true)
    (h2 : isNaN (fmul b.cs.b2 x) = true) : (b.step x).2.s1 = nan ∧ (b.step x).2.s2 = nan := by
  constructor
  · rw [Biquad.step_s1, fsub_of_isNaN_left h1, fadd_of_isNaN_left isNaN_nan]
  · rw [Biquad.step_s2, fsub_of_isNaN_left h2]

/-- Where the four products of the delay line and its old word s2 are zeros, its new words are zeros. -/
theorem Biquad.step_delays_zero {b : Biquad} {x : F32} (hs2 : zeroWord b.s2)
    (hb1 : zeroWord (fmul b.cs.b1 x)) (hb2 : zeroWord (fmul b.cs.b2 x))
    (ha1 : zeroWord (fmul b.cs.a1 (b.step x).1)) (ha2 : zeroWord (fmul b.cs.a2 (b.step x).1)) :
    zeroWord (b.step x).2.s1 ∧ zeroWord (b.step x).2.s2 :=
  ⟨zeroWord_fadd (zeroWord_fsub hb1 ha1) hs2, zeroWord_fsub hb2 ha2⟩

/-- A NaN sample gives the canonical NaN and NaN delay words, whatever the coefficients. -/
theorem Biquad.step_of_isNaN (b : Biquad) {x : F32} (hx : isNaN x = true) :
    (b.step x).1 = nan ∧ (b.step x).2.s1 = nan ∧ (b.step x).2.s2 = nan := by
  have hprod : ∀ a, isNaN (fmul a x) = true := fun a => by rw [fmul_of_isNaN_right a hx, isNaN_nan]
  exact ⟨fadd_of_isNaN_left (hprod _) _, Biquad.step_delays_of_isNaN (hprod _) (hprod _)⟩

/-! ### One sample through an enabled identity stage (41_cascade.md R147) -/

section
variable {b : Biquad} (hcs : b.cs = CoeffSet.identity) (hs1 : zeroWord b.s1)
include hcs

theorem identity_step_fst (x : F32) : (b.step x).1 = fadd (fmul 0x3F800000#32 x) b.s1 := by
  rw [Biquad.step_fst, hcs]
  rfl

theorem identity_step_fst_of_isFinite {x : F32} (hx : isFinite x = true) : (b.step x).1 = fadd x b.s1 := by
  rw [identity_step_fst hcs, fmul_one_left hx]

include hs1

theorem identity_step_isFinite {x : F32} (hx : isFinite x = true) : isFinite (b.step x).1 = true := by
  rw [identity_step_fst_of_isFinite hcs hx]
  by_cases hneg : x = 0x80000000#32
  · exact isFinite_of_zeroWord (zeroWord_fadd (.inr hneg) hs1)
  · rw [fadd_zeroWord_right hx hneg hs1]
    exact hx

theorem identity_step_delays_of_isFinite (hs2 : zeroWord b.s2) {x : F32} (hx : isFinite x = true) :
    zeroWord (b.step x).2.s1 ∧ zeroWord (b.step x).2.s2 := by
  have hout := identity_step_isFinite hcs hs1 hx
  have hprod : ∀ y, isFinite y = true → zeroWord (fmul 0#32 y) := fun _ hy => zeroWord_fmul_left (.inl rfl) hy
  refine Biquad.step_delays_zero hs2 ?_ ?_ ?_ ?_ <;> rw [hcs]
  exacts [hprod x hx, hprod x hx, hprod _ hout, hprod _ hout]

/-- An infinity passes, but its products with the zero coefficients are NaNs. -/
theorem identity_step_of_isInf {x : F32} (hx : isInf x = true) :
    (b.step x).1 = x ∧ (b.step x).2.s1 = nan ∧ (b.step x).2.s2 = nan := by
  have hnan : isNaN (fmul 0#32 x) = true := by
    rw [fmul_comm, fmul_of_isInf_of_zeroWord hx (.inl rfl), isNaN_nan]
  have hfin := isFinite_of_zeroWord hs1
  refine ⟨?_, Biquad.step_delays_of_isNaN (by rw [hcs]; exact hnan) (by rw [hcs]; exact hnan)⟩
  rw [identity_step_fst hcs, fmul_one_left_of_isInf hx]
  exact (fadd_of_isInf hx (isNaN_eq_false_of_isFinite hfin) (by simp [isInf_eq_false_of_isFinite hfin])).1

end

/-! ### Silence through a stage, a cut filter, a channel and a run (41_cascade.md R153) -/

theorem Biquad.step_quiet {b : Biquad} (h : b.quiet) {x : F32} (hx : zeroWord x) :
    zeroWord (b.step x).1 ∧ (b.step x).2.quiet := by
  obtain ⟨hcs, hs1, hs2⟩ := h
  obtain ⟨hb0, hb1, hb2, ha1, ha2⟩ := hcs
  have hout : zeroWord (b.step x).1 := zeroWord_fadd (zeroWord_fmul_right hb0 hx) hs1
  exact ⟨hout, ⟨hb0, hb1, hb2, ha1, ha2⟩, Biquad.step_delays_zero hs2 (zeroWord_fmul_right hb1 hx)
    (zeroWord_fmul_right hb2 hx) (zeroWord_fmul_right ha1 hout) (zeroWord_fmul_right ha2 hout)⟩

/-- A cut-filter stage is at rest unless it is bypassed: `Cut.quiet` says this of its four stages. -/
def Stage.quiet (st : Stage) : Prop := st.bypass = false → st.bq.quiet

theorem stage_step_enabled (st : Stage) (x : F32) (h : st.bypass = false) :
    st.step x = ((st.bq.step x).1, { st with bq := (st.bq.step x).2 }) := by
  unfold Stage.step
  simp [h]

theorem Stage.step_quiet {st : Stage} (h : st.quiet) {x : F32} (hx : zeroWord x) :
    zeroWord (st.step x).1 ∧ (st.step x).2.quiet := by
  cases hb : st.bypass with
  | true =>
    rw [stage_step_bypassed st x hb]
    exact ⟨hx, h⟩
  | false =>
    obtain ⟨hout, hquiet⟩ := Biquad.step_quiet (h hb) hx
    rw [stage_step_enabled st x hb]
    exact ⟨hout, fun _ => hquiet⟩

theorem Cut.step_quiet {f : Cut} (h : f.quiet) {x : F32} (hx : zeroWord x) :
    zeroWord (f.step x).1 ∧ (f.step x).2.quiet := by
  have hstage : ∀ i, i < 4 → (f.stages.get i).quiet := h
  obtain ⟨hx0, h0⟩ := Stage.step_quiet (hstage 0 (by decide)) hx
  obtain ⟨hx1, h1⟩ := Stage.step_quiet (hstage 1 (by decide)) hx0
  obtain ⟨hx2, h2⟩ := Stage.step_quiet (hstage 2 (by decide)) hx1
  obtain ⟨hx3, h3⟩ := Stage.step_quiet (hstage 3 (by decide)) hx2
  exact ⟨hx3, fun
    | 0, _ => h0
    | 1, _ => h1
    | 2, _ => h2
    | _ + 3, _ => h3⟩

theorem Chain.step_quiet {h : Chain} (hq : h.quiet) {x : F32} (hx : zeroWord x) :
    zeroWord (h.step x).1 ∧ (h.step x).2.quiet := by
  obtain ⟨hlow, hpeak, hhigh⟩ := hq
  obtain ⟨hx0, hlow'⟩ := Cut.step_quiet hlow hx
  obtain ⟨hx1, hpeak'⟩ := Biquad.step_quiet hpeak hx0
  obtain ⟨hx2, hhigh'⟩ := Cut.step_quiet hhigh hx1
  exact ⟨hx2, hlow', hpeak', hhigh'⟩

theorem runChain_quiet {h : Chain} (hq : h.quiet) {xs : List F32} (hxs : ∀ x ∈ xs, zeroWord x) :
    (∀ y ∈ (runChain h xs).1, zeroWord y) ∧ (runChain h xs).2.quiet := by
  induction xs generalizing h with
  | nil => exact ⟨nofun, hq⟩
  | cons x rest ih =>
    obtain ⟨hx, hrest⟩ := List.forall_mem_cons.mp hxs
    obtain ⟨hy, hq'⟩ := Chain.step_quiet hq hx
    obtain ⟨hys, hq''⟩ := ih hq' hrest
    exact ⟨List.forall_mem_cons.mpr ⟨hy, hys⟩, hq''⟩

/-! ### The channel loop of the SET commands -/

/-- `t` is `s` with the chain of each selected channel replaced by its image under `g`. -/
structure ReplacesChains (ch : ChMask) (g : Chain → Chain) (s t : State) : Prop where
  state      : t = { s with chainL := t.chainL, chainR := t.chainR }
  selected   : ∀ c, selects ch c = true → t.chain c = g (s.chain c)
  unselected : ∀ c, selects ch c = false → t.chain c = s.chain c

theorem forChannels_replacesChains (ch : ChMask) (g : Chain → Chain) (s : State) :
    ReplacesChains ch g s (forChannels ch (fun c s => s.setChain c (g (s.chain c))) s) := by
  rw [forChannels_setChain]
  refine ⟨rfl, fun c hc => ?_, fun c hc => ?_⟩
  · cases c <;> exact if_pos hc
  · cases c <;> exact if_neg (Bool.eq_false_iff.mp hc)

/-- Replacing the chains again changes nothing, where `g` applied again changes nothing. -/
theorem ReplacesChains.forChannels_eq {ch : ChMask} {g : Chain → Chain} {s t : State} (h : ReplacesChains ch g s t)
    (hg : ∀ c, g (g c) = g c) : forChannels ch (fun c s => s.setChain c (g (s.chain c))) t = t := by
  have hkeep : ∀ c, selects ch c = true → g (t.chain c) = t.chain c := fun c hc => by rw [h.selected c hc, hg]
  have hleft : (if ch.left then g t.chainL else t.chainL) = t.chainL := ite_eq_right_iff.mpr (hkeep .left)
  have hright : (if ch.right then g t.chainR else t.chainR) = t.chainR := ite_eq_right_iff.mpr (hkeep .right)
  rw [forChannels_setChain, hleft, hright]

theorem ReplacesChains.dout {ch : ChMask} {g : Chain → Chain} {s t : State} (h : ReplacesChains ch g s t) :
    t.dout = s.dout := by rw [h.state]

/-- A command that replaces the selected chains by a function `g` of DOUT and themselves: where `g` applied again changes
nothing, the command issued again changes nothing. -/
theorem exec_replacesChains {cmd : Instr} {ch : ChMask} {g : Four CoeffSet → Chain → Chain}
    (hexec : ∀ s, exec cmd s = .next (forChannels ch (fun c u => u.setChain c (g s.dout (u.chain c))) s))
    (hg : ∀ d c, g d (g d c) = g d c) (s : State) :
    ∃ t, exec cmd s = .next t ∧ ReplacesChains ch (g s.dout) s t ∧ exec cmd t = .next t := by
  have h := forChannels_replacesChains ch (g s.dout) s
  refine ⟨_, hexec s, h, ?_⟩
  rw [hexec, h.dout, h.forChannels_eq (hg s.dout)]

theorem setSlope_setSlope (n : Nat) (seq : Four CoeffSet) (f : Cut) :
    (f.setSlope n seq).setSlope n seq = f.setSlope n seq := by
  have hstage : ∀ i (b : Biquad),
      (if slopeBypass n i then if slopeBypass n i then b else b.install (seq.get i)
        else (if slopeBypass n i then b else b.install (seq.get i)).install (seq.get i)) =
      if slopeBypass n i then b else b.install (seq.get i) := by
    intro i b
    cases slopeBypass n i <;> rfl
  simp only [Cut.setSlope, Four.mapIdx, hstage]

/-! ### The block of PROCESS, all of its words written -/

theorem bufWords_eq_map_some_iff {s : State} {c : Chan} {len : Nat} {ws : List Word} :
    bufWords s c len = ws.map some ↔
      ws.length = len ∧ ∀ j, j < len → s.mem.readWord (bufAddr c j) = ws[j]? := by
  have hget : ∀ j, j < len → (bufWords s c len)[j]? = some (s.mem.readWord (bufAddr c j)) := fun j hj => by
    simp [bufWords, hj]
  constructor
  · intro h
    have hlen : ws.length = len := by simpa [bufWords] using (congrArg List.length h).symm
    refine ⟨hlen, fun j hj => ?_⟩
    simpa [h, List.getElem?_eq_getElem (hlen.symm ▸ hj), eq_comm] using hget j hj
  · rintro ⟨hlen, h⟩
    refine List.ext_getElem? fun j => ?_
    by_cases hj : j < len
    · rw [hget j hj, h j hj]
      simp [List.getElem?_eq_getElem (hlen.symm ▸ hj)]
    · simp [bufWords, hlen, hj]

/-- The words of a block that has been written, all of one kind, are a list of words of that kind. -/
theorem exists_bufWords_eq {P : Word → Prop} {s : State} {c : Chan} {len : Nat}
    (h : ∀ i, i < len → ∃ x, s.mem.readWord (bufAddr c i) = some x ∧ P x) :
    ∃ ws : List Word, bufWords s c len = ws.map some ∧ ∀ x ∈ ws, P x := by
  choose f hf using h
  refine ⟨List.ofFn fun i : Fin len => f i i.isLt, bufWords_eq_map_some_iff.mpr ⟨List.length_ofFn, fun j hj => ?_⟩, ?_⟩
  · rw [(hf j hj).1]
    simp [hj]
  · exact List.forall_mem_ofFn_iff.mpr fun i => (hf i i.isLt).2

end Sys2Proof.Machine

namespace Sys2Proof

open Sys2Proof.Machine Sys2Proof.F32

/-! ### The obligations -/

/-- Settles O34: the channel loop with `setSlope` of the low-cut filter, which is idempotent. -/
theorem setLcSetsSlope : Obligations.SetLcSetsSlope := by
  intro ch n s _ hn
  obtain ⟨t, ht, h, hagain⟩ := exec_replacesChains (cmd := .setLc ch n) (ch := ch)
    (g := fun d c => { c with lowCut := c.lowCut.setSlope n d }) (fun _ => rfl) (fun d c => by rw [setSlope_setSlope]) s
  refine ⟨t, ht, h.state, fun c => ⟨fun hc => ?_, h.unselected c⟩, hagain⟩
  rw [h.selected c hc]
  exact ⟨rfl, setSlope_slopedFrom n s.dout _ hn⟩

/-- Settles O35: the channel loop with `setSlope` of the high-cut filter. -/
theorem setHcSetsSlope : Obligations.SetHcSetsSlope := by
  intro ch n s _ hn
  obtain ⟨t, ht, h, hagain⟩ := exec_replacesChains (cmd := .setHc ch n) (ch := ch)
    (g := fun d c => { c with highCut := c.highCut.setSlope n d }) (fun _ => rfl) (fun d c => by rw [setSlope_setSlope]) s
  refine ⟨t, ht, h.state, fun c => ⟨fun hc => ?_, h.unselected c⟩, hagain⟩
  rw [h.selected c hc]
  exact ⟨rfl, setSlope_slopedFrom n s.dout _ hn⟩

/-- Settles O37: the sample's kinds in turn, -0 by the sum -0 + +0. -/
theorem identityStageMapsSamples : Obligations.IdentityStageMapsSamples := by
  intro b x hcs hs1 hs2
  refine ⟨fun hx hne => ?_, fun hx hplus => ?_, identity_step_delays_of_isFinite hcs hs1 hs2,
    identity_step_of_isInf hcs hs1, Biquad.step_of_isNaN b⟩
  · rw [identity_step_fst_of_isFinite hcs hx, fadd_zeroWord_right hx hne hs1]
  · rw [hx, identity_step_fst_of_isFinite hcs (by decide), hplus]
    decide

/-- Settles O38: by induction on the samples, each of which leaves s1 a NaN. -/
theorem nanPoisonsStage : Obligations.NanPoisonsStage := by
  intro b xs x hb
  induction xs generalizing b with
  | nil => exact ⟨hb, (Biquad.step_of_isNaN_s1 hb x).1⟩
  | cons y rest ih => exact ih _ (Biquad.step_of_isNaN_s1 hb y).2

/-- Settles O39: the block step filters the words the buffers hold, and with all of them written it records nothing. -/
theorem processFiltersBlock : Obligations.ProcessFiltersBlock := by
  intro ch len s xs hpos hlen hmax hwords
  have hlength : ∀ c, selects ch c = true → (xs c).length = len :=
    fun c hc => (bufWords_eq_map_some_iff.mp (hwords c hc)).1
  have hread : ∀ c, selects ch c = true → ∀ j, j < len → s.mem.readWord (bufAddr c j) = (xs c)[j]? :=
    fun c hc => (bufWords_eq_map_some_iff.mp (hwords c hc)).2
  obtain ⟨ws, fs, k, hws, he, -, -, hfiltered, hclean⟩ := processBlock_cases ch len s (by omega)
  have hsame : ∀ c, selects ch c = true → ws c = xs c := fun c hc => hfiltered c hc _ (hlength c hc) (hread c hc)
  obtain ⟨rfl, rfl⟩ : fs = s.faults ∧ k = s.freeCount := hclean fun c j hc hj => by
    rw [hread c hc j hj, List.getElem?_eq_getElem ((hlength c hc).symm ▸ hj)]
    rfl
  have hout : ∀ c, (runChain (s.chain c) (ws c)).1.length = len := fun c => (runChain_length _ _).trans (hws c)
  refine ⟨_, exec_process_of_accepted (lengthAccepted_iff.mpr ⟨hpos, hlen⟩), ?_, fun c => ⟨fun hc => ⟨?_, ?_⟩, fun hc => ?_⟩,
    fun a ha => ?_⟩
  · rw [he]
  · rw [← hsame c hc, bufWords_eq_map_some_iff]
    refine ⟨hout c, fun j hj => ?_⟩
    rw [he, storeBlock_readWord _ _ _ _ _ (fun d => by rw [hout]; omega) (by omega), if_pos ⟨hc, by rw [hout]; exact hj⟩]
  · rw [← hsame c hc, he]
    cases c <;> exact if_pos hc
  · rw [he]
    cases c <;> exact if_neg (Bool.eq_false_iff.mp hc)
  · rw [he]
    exact storeBlock_read_other ch _ s.mem len a (fun d _ => hout d) ha

/-- Settles O44: the block is a run of the filter over a list of zeros. -/
theorem silenceGivesSilence : Obligations.SilenceGivesSilence := by
  intro ch len s hpos hlen hmax hquiet
  have hzeros : ∀ c, ∃ ws : List Word, selects ch c = true → bufWords s c len = ws.map some ∧ ∀ x ∈ ws, zeroWord x :=
    fun c => by
      by_cases hc : selects ch c = true
      · obtain ⟨ws, h⟩ := exists_bufWords_eq (hquiet c hc).2
        exact ⟨ws, fun _ => h⟩
      · exact ⟨[], fun h => absurd h hc⟩
  choose xs hxs using hzeros
  obtain ⟨t, ht, -, hchan, -⟩ := processFiltersBlock ch len s xs hpos hlen hmax fun c hc => (hxs c hc).1
  refine ⟨t, ht, fun c hc => ?_⟩
  obtain ⟨hwords, hchain⟩ := (hchan c).1 hc
  obtain ⟨hys, hq⟩ := runChain_quiet (hquiet c hc).1 (hxs c hc).2
  rw [hchain]
  refine ⟨hq, fun i hi => ?_⟩
  obtain ⟨hout, hread⟩ := bufWords_eq_map_some_iff.mp hwords
  exact ⟨_, (hread i hi).trans (List.getElem?_eq_getElem (hout.symm ▸ hi)), hys _ (List.getElem_mem _)⟩

/-- Settles O33: the channel loop with `install` in the peak stage. -/
theorem setPeakInstalls : Obligations.SetPeakInstalls := by
  intro ch s
  obtain ⟨t, ht, h, -⟩ := exec_replacesChains (cmd := .setPeak ch) (ch := ch)
    (g := fun d c => { c with peak := c.peak.install d.e0 }) (fun _ => rfl) (fun _ _ => rfl) s
  exact ⟨t, ht, h.state, fun c => ⟨h.selected c, h.unselected c⟩⟩

/-- Settles O36: the formulas of the steps, and the invariant's bypass bits. -/
theorem stageStepFormula : Obligations.StageStepFormula := by
  refine ⟨fun _ _ => rfl, fun st x => ⟨stage_step_enabled st x, stage_step_bypassed st x⟩,
    fun _ _ => ⟨rfl, rfl, rfl, rfl, rfl, rfl⟩, fun f hf i hi => ?_, fun _ _ => rfl⟩
  obtain ⟨-, -, hbypass⟩ := hf
  simp [hbypass i hi]

end Sys2Proof

/-! # Family 42_control.md: the words of NOP and RELEASE, the clearing of the delay lines, and UPDATE

PREPARE and RELEASE share one lemma on a cleared chain, read word by word. UPDATE goes by the chain its install step leaves
in each channel: what it holds beside the old one, that two such chains are linked, and that a second install of one
design changes nothing. -/

namespace Sys2Proof

/-- The words of a well-formed command: its encoding, and no other. -/
theorem decode_eq_ok_iff_eq_encode {i : Instr} (h : i.wf = true) {w : Word} : decode w = .ok i ↔ w = encode i := by
  rw [decode_ok_iff]
  constructor
  · intro hw
    exact hw.encode_eq.symm
  · rintro rfl
    exact carries_encode h

end Sys2Proof

namespace Sys2Proof.Machine

/-! ### Cleared delay lines (42_control.md R172, R173) -/

theorem recordWord_clear (b : Biquad) (bypass : Bool) (j : Nat) :
    recordWord b.clear bypass j = if j = 5 ∨ j = 6 then 0x00000000#32 else recordWord b bypass j := by
  by_cases hj : j = 5 ∨ j = 6
  · rcases hj with rfl | rfl <;> rfl
  · simp [recordWord, Biquad.clear, not_or.mp hj]

theorem Cut.clear_get (f : Cut) : ∀ i, f.clear.stages.get i = { f.stages.get i with bq := (f.stages.get i).bq.clear }
  | 0 | 1 | 2 | _ + 3 => rfl

theorem slotWord_clear (h : Chain) (slot j : Nat) :
    slotWord h.clear slot j = if j = 5 ∨ j = 6 then 0x00000000#32 else slotWord h slot j := by
  have hlow : h.clear.lowCut = h.lowCut.clear := rfl
  have hpeak : h.clear.peak = h.peak.clear := rfl
  have hhigh : h.clear.highCut = h.highCut.clear := rfl
  unfold slotWord
  simp only [hlow, hpeak, hhigh, Cut.clear_get, recordWord_clear]
  split_ifs <;> rfl

theorem Chain.clear_clearedFrom (h : Chain) : h.clearedFrom h.clear := ⟨fun slot j _ _ => slotWord_clear h slot j, rfl, rfl⟩

theorem clearDelays_clearDelays (s : State) : clearDelays (clearDelays s) = clearDelays s := rfl

theorem exec_prepare_of_accepted {s : State} (h : prepareAccepts s = true) :
    exec .prepare s = .next (clearDelays { s with sr := s.srReq, maxblk := s.maxblkReq }) := if_pos h

/-! ### The chain UPDATE leaves in a channel (42_control.md R175) -/

theorem setSlope_sections_slopedFrom {n : Nat} (hn : n ≤ 4) (sect : Nat → CoeffSet) (f : Cut) :
    f.slopedFrom n sect (f.setSlope n (sections sect)) := by
  obtain ⟨hcount, hstages⟩ := setSlope_slopedFrom n (sections sect) f hn
  refine ⟨hcount, fun i hi => ⟨fun hin => ?_, (hstages i hi).2⟩⟩
  rw [(hstages i hi).1 hin, sections_get sect hi]

/-- `new` is `old` after an UPDATE with these slopes installs the peak set `p` and the cut sections `l` and `h`. -/
def Chain.InstalledFrom (ls hs : BitVec 2) (p : CoeffSet) (l h : Nat → CoeffSet) (old new : Chain) : Prop :=
  new.peak = { old.peak with cs := p } ∧ old.lowCut.slopedFrom (ls.toNat + 1) l new.lowCut ∧
  old.highCut.slopedFrom (hs.toNat + 1) h new.highCut

theorem Chain.installed_installedFrom (ls hs : BitVec 2) (p : CoeffSet) (l h : Nat → CoeffSet) (c : Chain) :
    c.InstalledFrom ls hs p l h (c.installed (slopeCount ls) (slopeCount hs) p (sections l) (sections h)) :=
  ⟨rfl, setSlope_sections_slopedFrom (slopeCount_range ls).2 l c.lowCut,
    setSlope_sections_slopedFrom (slopeCount_range hs).2 h c.highCut⟩

theorem sections_get_self (v : Four CoeffSet) : sections v.get = v := rfl

theorem Chain.installed_installed (nl nh : Nat) (p : CoeffSet) (l h : Four CoeffSet) (c : Chain) :
    (c.installed nl nh p l h).installed nl nh p l h = c.installed nl nh p l h := by
  simp only [Chain.installed, Biquad.install, setSlope_setSlope]

/-- Two cut filters set to one slope with the same sections agree in every bypass bit and in every enabled stage's
coefficients (42_control.md R176). -/
theorem setSlope_linked (n : Nat) (seq : Four CoeffSet) (f g : Cut) {i : Nat} (hi : i < 4) :
    ((f.setSlope n seq).stages.get i).bypass = ((g.setSlope n seq).stages.get i).bypass ∧
    (((f.setSlope n seq).stages.get i).bypass = false →
      ((f.setSlope n seq).stages.get i).bq.cs = ((g.setSlope n seq).stages.get i).bq.cs) := by
  rw [setSlope_stage n seq f hi, setSlope_stage n seq g hi]
  by_cases hin : n ≤ i <;> simp [hin]

/-! ### UPDATE in contract -/

theorem snapshotContract_iff {s : State} :
    snapshotContract s = true ↔ peakContract s.sr s.latch.pf s.latch.pq s.latch.pg = true ∧
      cutContract s.sr s.latch.lf = true ∧ cutContract s.sr s.latch.hf = true := by
  unfold snapshotContract
  simp [and_assoc]

/-- The chain after the designs of the snapshot `sn` are installed. -/
def Chain.designed (d : Design) (sr : F32) (sn : Snapshot) (c : Chain) : Chain :=
  c.installed (slopeCount sn.ls) (slopeCount sn.hs) (d.peak sr sn.pf sn.pq sn.pg)
    (sections (d.highpass sr sn.lf (slopeCount sn.ls))) (sections (d.lowpass sr sn.hf (slopeCount sn.hs)))

theorem Chain.designed_designed (d : Design) (sr : F32) (sn : Snapshot) (c : Chain) :
    (c.designed d sr sn).designed d sr sn = c.designed d sr sn := Chain.installed_installed ..

theorem designInstall_inContract (d : Design) (cmd : Instr) {s : State} (h : snapshotContract s = true) :
    designInstall d cmd s =
      { s with chainL := s.chainL.designed d s.sr s.latch, chainR := s.chainR.designed d s.sr s.latch } := by
  obtain ⟨p, l, hi, k, he, hdesigned⟩ := designInstall_eq d cmd s
  obtain ⟨rfl, rfl, rfl, rfl⟩ := hdesigned h
  rw [he, h, recordUnless_true]
  rfl

/-- The state with the parameters as they stand latched, and their designs installed. -/
def State.updated (d : Design) (s : State) : State :=
  { s with
    latch := s.parameters
    chainL := s.chainL.designed d s.sr s.parameters
    chainR := s.chainR.designed d s.sr s.parameters }

/-- With no access of Host-P to come, that is what an UPDATE in contract answers. -/
theorem updateSteps_idle_inContract (d : Design) (cmd : Instr) {s : State} (hP : s.hostP = [])
    (h : snapshotContract { s with latch := s.parameters } = true) : updateSteps d cmd s = s.updated d := by
  unfold updateSteps
  rw [snapshotPhase_idle hP, paramTurn_idle (s := { s with latch := s.parameters }) hP, designInstall_inContract d cmd h]
  rfl

theorem State.updated_updated (d : Design) (s : State) : (s.updated d).updated d = s.updated d := by
  show { s.updated d with
    chainL := (s.chainL.designed d s.sr s.parameters).designed d s.sr s.parameters
    chainR := (s.chainR.designed d s.sr s.parameters).designed d s.sr s.parameters } = s.updated d
  rw [Chain.designed_designed, Chain.designed_designed]
  rfl

theorem ParamFrame.chain {s t : State} (h : ParamFrame s t) (c : Chan) : t.chain c = s.chain c := by
  rw [h]
  cases c <;> rfl

end Sys2Proof.Machine

namespace Sys2Proof

open Sys2Proof.Machine

/-! ### The obligations -/

/-- Settles O14: the state PREPARE answers is written out, with its chains cleared. -/
theorem prepareLatchesAndClears : Obligations.PrepareLatchesAndClears := by
  intro s hfinite hpos hlo hhi
  have hrate : F32.finitePos s.srReq = true := by simp [F32.finitePos, hfinite, hpos]
  exact ⟨_, exec_prepare_of_accepted (prepareAccepts_iff.mpr ⟨hrate, hlo, hhi⟩), rfl, s.chainL.clear_clearedFrom,
    s.chainR.clear_clearedFrom⟩

/-- Settles O16: 0x00000002 is the encoding of RELEASE, and a cleared chain is left as it is by another clearing. -/
theorem releaseClearsDelayLines : Obligations.ReleaseClearsDelayLines :=
  ⟨fun _ => decode_eq_ok_iff_eq_encode rfl, fun s =>
    ⟨clearDelays s, rfl, rfl, s.chainL.clear_clearedFrom, s.chainR.clear_clearedFrom,
      congrArg Host.Outcome.next (clearDelays_clearDelays s)⟩⟩

/-- Settles O20: in contract the install step puts the designed chains in both channels, and the reads before it leave the
chains alone. -/
theorem updateInstallsDesigns : Obligations.UpdateInstallsDesigns := by
  intro s u hpeak hlow hhigh
  have he := designInstall_inContract Config.design .update (snapshotContract_iff.mpr ⟨hpeak, hlow, hhigh⟩)
  refine ⟨_, congrArg Host.Outcome.next he, rfl, fun c => ?_⟩
  rw [← (snapshotReads_frame s).chain c]
  cases c <;> exact Chain.installed_installedFrom ..

/-- Settles O21: whatever sets are installed, both channels get the same, and a contract that fails is recorded. -/
theorem updateOutOfContract : Obligations.UpdateOutOfContract := by
  intro s u hout
  obtain ⟨p, l, h, k, fs, he, -, hrecorded⟩ := updateSteps_cases Config.design .update s
  have hfails : snapshotContract u = false := Bool.eq_false_iff.mpr (mt snapshotContract_iff.mp hout)
  refine ⟨_, p, l.get, h.get, congrArg Host.Outcome.next he, rfl, hrecorded hfails, fun c => ?_⟩
  have hchain := Chain.installed_installedFrom u.latch.ls u.latch.hs p l.get h.get (s.chain c)
  rw [sections_get_self, sections_get_self] at hchain
  cases c <;> exact hchain

/-- Settles O22: both channels' chains come from one install of the same sets. -/
theorem updateLinksChannels : Obligations.UpdateLinksChannels := by
  intro s
  obtain ⟨p, l, h, k, fs, he, -⟩ := updateSteps_cases Config.design .update s
  refine ⟨_, congrArg Host.Outcome.next he, rfl, rfl, rfl, fun i hi => ?_⟩
  obtain ⟨hlowBypass, hlowSet⟩ := setSlope_linked _ l s.chainL.lowCut s.chainR.lowCut hi
  obtain ⟨hhighBypass, hhighSet⟩ := setSlope_linked _ h s.chainL.highCut s.chainR.highCut hi
  exact ⟨hlowBypass, hhighBypass, hlowSet, hhighSet⟩

/-- Settles O23: the second UPDATE latches the same parameters, and installs each design over itself. -/
theorem updateRepeatedChangesNothing : Obligations.UpdateRepeatedChangesNothing := by
  intro s hP hpeak hlow hhigh
  have hc : snapshotContract { s with latch := s.parameters } = true := snapshotContract_iff.mpr ⟨hpeak, hlow, hhigh⟩
  have hfirst : updateSteps Config.design .update s = s.updated Config.design := updateSteps_idle_inContract _ _ hP hc
  have hsecond : updateSteps Config.design .update (s.updated Config.design) = (s.updated Config.design).updated _ :=
    updateSteps_idle_inContract _ _ hP hc
  exact ⟨_, congrArg Host.Outcome.next hfirst, congrArg Host.Outcome.next (hsecond.trans (s.updated_updated _))⟩

/-- Settles O13: 0x00000000 is the encoding of NOP. -/
theorem nopChangesNothing : Obligations.NopChangesNothing := ⟨fun _ => decode_eq_ok_iff_eq_encode rfl, fun _ => rfl⟩

/-- Settles O17: between its reads Host-P has no access to make. -/
theorem snapshotLatchesParameters : Obligations.SnapshotLatchesParameters := fun _ hP => snapshotPhase_idle hP

end Sys2Proof

/-! # Family 60_exceptions.md: command errors, STATUS, and the record of model faults

A command either never looks at STATUS and leaves it alone, or raises an error and does nothing else: said once, in
`exec_cases`. That a recorded fault stays follows turn by turn. -/

namespace Sys2Proof.Machine

/-! ### Raising an error (60_exceptions.md R201) -/

theorem raiseError_of_clear (code : BitVec 4) {s : State} (h : s.err = false) :
    raiseError code s = { s with err := true, errCode := code } := if_neg (by rw [h]; decide)

theorem raiseError_of_err (code : BitVec 4) {s : State} (h : s.err = true) : raiseError code s = s := if_pos h

/-- An outcome that raises an error and does nothing else, in the two cases of ERR. -/
theorem next_raiseError_cases {o : Host.Outcome State Fault Refusal} {code : BitVec 4} {s : State}
    (h : o = .next (raiseError code s)) :
    (s.err = false → o = .next { s with err := true, errCode := code }) ∧ (s.err = true → o = .next s) :=
  ⟨fun he => h.trans (congrArg _ (raiseError_of_clear code he)),
    fun he => h.trans (congrArg _ (raiseError_of_err code he))⟩

theorem exec_prepare_of_refused {s : State} (h : ¬ prepareAccepts s = true) :
    exec .prepare s = .next (raiseError badPrepare s) := if_neg h

theorem exec_process_of_refused {ch : ChMask} {u : Bool} {len : Nat} {s : State} (h : ¬ lengthAccepted s len = true) :
    exec (.process ch u len) s = .next (raiseError badLength s) := if_neg h

/-- A word that matches no row is no command (30_encoding.md R95, 60_exceptions.md R202). -/
theorem execute_of_no_row {w : Word} (h : (rows.filter fun r => r.hit w) = []) (s : State) :
    execute w s = .next (raiseError illegalCommand s) := by
  unfold execute
  split
  · rename_i i hi
    have hrow := mnemonics_of_decode hi
    rw [h] at hrow
    cases hrow
  · rfl

/-! ### What neither reads nor writes STATUS -/

/-- The state with another STATUS. -/
def State.withStatus (s : State) (e : Bool) (k : BitVec 4) : State := { s with err := e, errCode := k }

/-- `T` neither reads STATUS nor writes it. -/
def IgnoresStatus (T : State → State) : Prop := ∀ s e k, T (s.withStatus e k) = (T s).withStatus e k

theorem IgnoresStatus.id : IgnoresStatus fun s => s := fun _ _ _ => rfl

theorem IgnoresStatus.comp {T U : State → State} (hT : IgnoresStatus T) (hU : IgnoresStatus U) :
    IgnoresStatus fun s => U (T s) :=
  fun s e k => (congrArg U (hT s e k)).trans (hU (T s) e k)

theorem IgnoresStatus.ite {T : State → State} (b : Bool) (hT : IgnoresStatus T) :
    IgnoresStatus fun s => if b then T s else s := by
  cases b
  · exact .id
  · exact hT

theorem forChannels_ignoresStatus (ch : ChMask) {f : Chan → State → State} (hf : ∀ c, IgnoresStatus (f c)) :
    IgnoresStatus (forChannels ch f) :=
  (IgnoresStatus.ite ch.left (hf .left)).comp (IgnoresStatus.ite ch.right (hf .right))

theorem record_ignoresStatus (f : Fault) : IgnoresStatus (record f) := by
  intro s e k
  by_cases h : f ∈ s.faults <;> simp [record, State.withStatus, h]

theorem recordUnless_ignoresStatus (ok : Bool) (cmd : Instr) : IgnoresStatus (recordUnless ok cmd) := by
  cases ok
  · exact record_ignoresStatus _
  · exact .id

/-! ### Host-P's turn and UPDATE ignore STATUS -/

theorem hostPRead_ignoresStatus (a : Addr) : IgnoresStatus (hostPRead a) := by
  intro s e k
  unfold hostPRead
  cases locOf a <;> rfl

theorem hostPWrite_ignoresStatus (a : Addr) (v : Word) : IgnoresStatus (hostPWrite a v) := by
  intro s e k
  unfold hostPWrite
  cases locOf a <;> rfl

theorem paramTurnFrom_ignoresStatus (l : List ParamInput) : IgnoresStatus (paramTurnFrom l) := by
  induction l with
  | nil => exact fun _ _ _ => rfl
  | cons p rest ih =>
    cases p with
    | yield => exact fun _ _ _ => rfl
    | read a => exact (hostPRead_ignoresStatus a).comp ih
    | write a v => exact (hostPWrite_ignoresStatus a v).comp ih

theorem paramTurn_ignoresStatus : IgnoresStatus paramTurn := fun s => paramTurnFrom_ignoresStatus s.hostP s

/-- A read step of the snapshot and the turn after it. -/
theorem paramTurn_after_ignoresStatus {latch : State → State} (h : IgnoresStatus latch) :
    IgnoresStatus fun s => paramTurn (latch s) := h.comp paramTurn_ignoresStatus

theorem snapshotPhase_ignoresStatus : IgnoresStatus snapshotPhase :=
  have hpf := paramTurn_after_ignoresStatus (latch := latchPeakFreq) fun _ _ _ => rfl
  have hpq := paramTurn_after_ignoresStatus (latch := latchPeakQ) fun _ _ _ => rfl
  have hpg := paramTurn_after_ignoresStatus (latch := latchPeakGain) fun _ _ _ => rfl
  have hlf := paramTurn_after_ignoresStatus (latch := latchLowFreq) fun _ _ _ => rfl
  have hls := paramTurn_after_ignoresStatus (latch := latchLowSlope) fun _ _ _ => rfl
  have hhf := paramTurn_after_ignoresStatus (latch := latchHighFreq) fun _ _ _ => rfl
  have hhs : IgnoresStatus latchHighSlope := fun _ _ _ => rfl
  (((((hpf.comp hpq).comp hpg).comp hlf).comp hls).comp hhf).comp hhs

theorem designInstall_ignoresStatus (d : Design) (cmd : Instr) : IgnoresStatus (designInstall d cmd) := by
  intro s e k
  have hcontract : snapshotContract (s.withStatus e k) = snapshotContract s := rfl
  unfold designInstall
  simp only [forChannels_setPeak, forChannels_setLowCut, forChannels_setHighCut]
  rw [hcontract, recordUnless_ignoresStatus]
  cases snapshotContract s <;> rfl

theorem updateSteps_ignoresStatus (d : Design) (cmd : Instr) : IgnoresStatus (updateSteps d cmd) :=
  (snapshotPhase_ignoresStatus.comp paramTurn_ignoresStatus).comp (designInstall_ignoresStatus d cmd)

/-! ### The design commands and the SET commands ignore STATUS -/

theorem designPeakWith_ignoresStatus (d : Design) : IgnoresStatus (designPeakWith d) := by
  intro s e k
  have hcontract : peakContract (s.withStatus e k).argSr (s.withStatus e k).argFreq (s.withStatus e k).argQ
      (s.withStatus e k).argGainDb = peakContract s.argSr s.argFreq s.argQ s.argGainDb := rfl
  unfold designPeakWith
  dsimp only
  rw [hcontract, recordUnless_ignoresStatus]
  cases peakContract s.argSr s.argFreq s.argQ s.argGainDb <;> rfl

theorem designCutWith_ignoresStatus (sect : F32 → F32 → Nat → Nat → CoeffSet) (cmd : Instr) (n : Nat) :
    IgnoresStatus (designCutWith sect cmd n) := by
  intro s e k
  have hcontract : cutContract (s.withStatus e k).argSr (s.withStatus e k).argFreq =
      cutContract s.argSr s.argFreq := rfl
  unfold designCutWith
  dsimp only
  rw [hcontract, recordUnless_ignoresStatus]
  cases cutContract s.argSr s.argFreq <;> rfl

theorem setPeak_ignoresStatus (cs : CoeffSet) (c : Chan) : IgnoresStatus (setPeak cs c) := by
  intro s e k
  cases c <;> rfl

theorem setLowCut_ignoresStatus (n : Nat) (seq : Four CoeffSet) (c : Chan) : IgnoresStatus (setLowCut n seq c) := by
  intro s e k
  cases c <;> rfl

theorem setHighCut_ignoresStatus (n : Nat) (seq : Four CoeffSet) (c : Chan) : IgnoresStatus (setHighCut n seq c) := by
  intro s e k
  cases c <;> rfl

/-! ### The block step of PROCESS ignores STATUS -/

theorem setChain_withStatus (s : State) (c : Chan) (v : Chain) (e : Bool) (k : BitVec 4) :
    (s.withStatus e k).setChain c v = (s.setChain c v).withStatus e k := by cases c <;> rfl

theorem chain_withStatus (s : State) (c : Chan) (e : Bool) (k : BitVec 4) : (s.withStatus e k).chain c = s.chain c := by
  cases c <;> rfl

theorem readBuf_withStatus (c : Chan) (i : Nat) (s : State) (e : Bool) (k : BitVec 4) :
    readBuf c i (s.withStatus e k) = ((readBuf c i s).1, (readBuf c i s).2.withStatus e k) := by
  cases h : s.mem.readWord (bufAddr c i) with
  | some w => rw [readBuf_written h, readBuf_written (s := s.withStatus e k) h]
  | none =>
    rw [readBuf_unwritten h, readBuf_unwritten (s := s.withStatus e k) h]
    exact congrArg (Prod.mk _) (record_ignoresStatus _ (takeFree 1 s) e k)

theorem processSample_ignoresStatus (c : Chan) (i : Nat) : IgnoresStatus (processSample c i) := by
  intro s e k
  unfold processSample
  rw [readBuf_withStatus]
  dsimp only
  rw [chain_withStatus, setChain_withStatus]
  rfl

theorem processFrom_ignoresStatus (c : Chan) (n i : Nat) : IgnoresStatus (processFrom c n i) := by
  induction n generalizing i with
  | zero => exact .id
  | succ n ih => exact (processSample_ignoresStatus c i).comp (ih (i + 1))

theorem processBlock_ignoresStatus (ch : ChMask) (len : Nat) : IgnoresStatus (processBlock ch len) :=
  forChannels_ignoresStatus ch fun c => processFrom_ignoresStatus c len 0

/-! ### What a command does with STATUS (60_exceptions.md R200, R212) -/

/-- From `s` the command answers one state, whatever STATUS holds, and STATUS keeps what it holds. -/
def PassesStatus (i : Instr) (s : State) : Prop :=
  ∃ t : State, ∀ e k, exec i (s.withStatus e k) = .next (t.withStatus e k)

/-- From `s` the command raises one error, whatever STATUS holds, and does nothing else. -/
def RaisesError (i : Instr) (s : State) : Prop :=
  ∃ code : BitVec 4, ∀ e k, exec i (s.withStatus e k) = .next (raiseError code (s.withStatus e k))

theorem IgnoresStatus.passesStatus {T : State → State} (hT : IgnoresStatus T) {i : Instr} {s : State}
    (hexec : ∀ e k, exec i (s.withStatus e k) = .next (T (s.withStatus e k))) : PassesStatus i s :=
  ⟨T s, fun e k => (hexec e k).trans (congrArg _ (hT s e k))⟩

theorem PassesStatus.exec_eq {i : Instr} {s : State} (h : PassesStatus i s) :
    ∃ t, exec i s = .next t ∧ t.err = s.err ∧ t.errCode = s.errCode := by
  obtain ⟨t, ht⟩ := h
  exact ⟨_, ht s.err s.errCode, rfl, rfl⟩

theorem RaisesError.exec_eq {i : Instr} {s : State} (h : RaisesError i s) :
    ∃ code, exec i s = .next (raiseError code s) := by
  obtain ⟨code, hcode⟩ := h
  exact ⟨code, hcode s.err s.errCode⟩

theorem prepare_cases (s : State) : PassesStatus .prepare s ∨ RaisesError .prepare s := by
  by_cases hacc : prepareAccepts s = true
  · exact .inl ⟨clearDelays { s with sr := s.srReq, maxblk := s.maxblkReq }, fun e k =>
      exec_prepare_of_accepted (s := s.withStatus e k) hacc⟩
  · exact .inr ⟨_, fun e k => exec_prepare_of_refused (s := s.withStatus e k) hacc⟩

theorem process_cases (ch : ChMask) (u : Bool) (len : Nat) (s : State) :
    PassesStatus (.process ch u len) s ∨ RaisesError (.process ch u len) s := by
  by_cases hacc : lengthAccepted s len = true
  · have hblock := processBlock_ignoresStatus ch len
    refine .inl ?_
    cases u with
    | false => exact hblock.passesStatus fun e k => exec_process_of_accepted (s := s.withStatus e k) hacc
    | true =>
      have hupdate := (updateSteps_ignoresStatus Config.design (.process ch true len)).comp paramTurn_ignoresStatus
      exact (hupdate.comp hblock).passesStatus fun e k => exec_process_update_of_accepted (s := s.withStatus e k) hacc
  · exact .inr ⟨_, fun e k => exec_process_of_refused (s := s.withStatus e k) hacc⟩

/-- Every command passes STATUS by, or raises an error and does nothing else. -/
theorem exec_cases (i : Instr) (s : State) : PassesStatus i s ∨ RaisesError i s := by
  cases i with
  | prepare => exact prepare_cases s
  | process ch u len => exact process_cases ch u len s
  | nop => exact .inl ⟨s, fun _ _ => rfl⟩
  | release => exact .inl ⟨clearDelays s, fun _ _ => rfl⟩
  | update => exact .inl ((updateSteps_ignoresStatus _ _).passesStatus fun _ _ => rfl)
  | designPeak => exact .inl ((designPeakWith_ignoresStatus _).passesStatus fun _ _ => rfl)
  | designLc n => exact .inl ((designCutWith_ignoresStatus _ _ n).passesStatus fun _ _ => rfl)
  | designHc n => exact .inl ((designCutWith_ignoresStatus _ _ n).passesStatus fun _ _ => rfl)
  | setPeak ch =>
    exact .inl ((forChannels_ignoresStatus ch (setPeak_ignoresStatus s.dout.e0)).passesStatus fun _ _ => rfl)
  | setLc ch n =>
    exact .inl ((forChannels_ignoresStatus ch (setLowCut_ignoresStatus n s.dout)).passesStatus fun _ _ => rfl)
  | setHc ch n =>
    exact .inl ((forChannels_ignoresStatus ch (setHighCut_ignoresStatus n s.dout)).passesStatus fun _ _ => rfl)

/-! ### The record of model faults (60_exceptions.md R206, R207) -/

theorem updateSteps_faults_subset (d : Design) (cmd : Instr) (s : State) : s.faults ⊆ (updateSteps d cmd s).faults := by
  obtain ⟨p, l, h, k, fs, he, hkeeps, -⟩ := updateSteps_cases d cmd s
  rw [he]
  exact hkeeps

theorem processBlock_faults_subset (ch : ChMask) (len : Nat) (s : State) : s.faults ⊆ (processBlock ch len s).faults :=
  fun _ => processBlock_keeps ch len s

theorem designPeakWith_faults_subset (d : Design) (s : State) : s.faults ⊆ (designPeakWith d s).faults := by
  unfold designPeakWith
  dsimp only
  rw [writeDout_faults, peakSet_state]
  exact fun f => recordUnless_keeps _ _ f s

theorem designCutWith_faults_subset (sect : F32 → F32 → Nat → Nat → CoeffSet) (cmd : Instr) (n : Nat) (s : State) :
    s.faults ⊆ (designCutWith sect cmd n s).faults := by
  unfold designCutWith
  dsimp only
  rw [writeDout_faults, cutSets_state]
  exact fun f => recordUnless_keeps _ _ f s

theorem forChannels_faults (ch : ChMask) {f : Chan → State → State} (hf : ∀ c s, (f c s).faults = s.faults)
    (s : State) : (forChannels ch f s).faults = s.faults := by
  obtain ⟨left, right⟩ := ch
  cases left <;> cases right <;> simp [forChannels, selects, hf]

theorem execPrepare_faults {s t : State} (h : execPrepare s = .next t) : t.faults = s.faults := by
  rcases execPrepare_next h with ⟨-, rfl⟩ | rfl
  · rfl
  · exact raiseError_faults badPrepare s

theorem execProcess_faults_subset {ch : ChMask} {u : Bool} {len : Nat} {s t : State}
    (h : execProcess ch u len s = .next t) : s.faults ⊆ t.faults := by
  rcases execProcess_next h with ⟨-, rfl⟩ | rfl
  · refine List.Subset.trans ?_ (processBlock_faults_subset ch len _)
    split
    · rw [paramTurn_faults]
      exact updateSteps_faults_subset _ _ s
    · exact List.Subset.refl _
  · exact (raiseError_faults badLength s).symm ▸ List.Subset.refl _

/-- Every command keeps what is recorded. -/
theorem exec_faults_subset {i : Instr} {s t : State} (h : exec i s = .next t) : s.faults ⊆ t.faults := by
  cases i with
  | prepare => exact execPrepare_faults h ▸ List.Subset.refl _
  | process ch u len => exact execProcess_faults_subset h
  | nop => exact Host.Outcome.next.inj h ▸ List.Subset.refl _
  | release => exact Host.Outcome.next.inj h ▸ List.Subset.refl _
  | update => exact Host.Outcome.next.inj h ▸ updateSteps_faults_subset _ _ s
  | designPeak => exact Host.Outcome.next.inj h ▸ designPeakWith_faults_subset _ s
  | designLc n => exact Host.Outcome.next.inj h ▸ designCutWith_faults_subset _ _ n s
  | designHc n => exact Host.Outcome.next.inj h ▸ designCutWith_faults_subset _ _ n s
  | setPeak ch =>
    obtain rfl := Host.Outcome.next.inj h
    exact (forChannels_faults ch (setPeak_faults _) s).symm ▸ List.Subset.refl _
  | setLc ch n =>
    obtain rfl := Host.Outcome.next.inj h
    exact (forChannels_faults ch (setLowCut_faults n _) s).symm ▸ List.Subset.refl _
  | setHc ch n =>
    obtain rfl := Host.Outcome.next.inj h
    exact (forChannels_faults ch (setHighCut_faults n _) s).symm ▸ List.Subset.refl _

theorem execute_faults_subset {w : Word} {s t : State} (h : execute w s = .next t) : s.faults ⊆ t.faults := by
  unfold execute at h
  split at h
  · exact exec_faults_subset h
  · obtain rfl := Host.Outcome.next.inj h
    exact (raiseError_faults illegalCommand s).symm ▸ List.Subset.refl _

theorem readBuf_faults_subset (c : Chan) (i : Nat) (s : State) : s.faults ⊆ (readBuf c i s).2.faults := by
  cases h : s.mem.readWord (bufAddr c i) with
  | some w =>
    rw [readBuf_written h]
    exact List.Subset.refl _
  | none =>
    rw [readBuf_unwritten h]
    exact fun f => record_keeps _ f (takeFree 1 s)

theorem hostARead_faults_subset (a : Addr) (s : State) : s.faults ⊆ (hostARead a s).faults := by
  unfold hostARead readLoc
  split
  · exact readBuf_faults_subset _ _ s
  · exact List.Subset.refl _

theorem writeLoc_faults (l : Loc) (v : Word) (s : State) : (writeLoc l v s).faults = s.faults := by
  rw [writeLoc_frame]

theorem writeParam_faults (l : Loc) (v : Word) (s : State) : (writeParam l v s).faults = s.faults := by
  rw [writeParam_frame]

theorem hostAWrite_faults_subset {a : Addr} {v : Word} {s t : State} (h : hostAWrite a v s = .next t) :
    s.faults ⊆ t.faults := by
  by_cases hcmd : locOf a = .cmd
  · rw [hostAWrite_cmd hcmd] at h
    exact execute_faults_subset h
  · rw [hostAWrite_of_ne_cmd hcmd] at h
    obtain rfl := Host.Outcome.next.inj h
    exact (writeLoc_faults _ v s).symm ▸ List.Subset.refl _

theorem controlTurn_faults_subset {s t : State} (h : controlTurn s = .next t) : s.faults ⊆ t.faults := by
  unfold controlTurn at h
  split at h
  · exact Host.Outcome.next.inj h ▸ List.Subset.refl _
  · exact Host.Outcome.next.inj h ▸ List.Subset.refl _
  · rename_i a rest _
    exact Host.Outcome.next.inj h ▸ hostARead_faults_subset a { s with hostA := rest }
  · rename_i a v rest _
    exact hostAWrite_faults_subset (s := { s with hostA := rest }) h

/-- Every turn keeps what is recorded, whoever takes it. -/
theorem turn_faults_subset {s t : State} (h : turn s = .next t) : s.faults ⊆ t.faults := by
  unfold turn at h
  split at h
  · exact controlTurn_faults_subset h
  · rename_i rest _
    exact controlTurn_faults_subset (s := { s with hostP := rest }) h
  · exact Host.Outcome.next.inj h ▸ List.Subset.refl _
  · obtain rfl := Host.Outcome.next.inj h
    exact (writeParam_faults _ _ _).symm ▸ List.Subset.refl _

end Sys2Proof.Machine

namespace Sys2Proof

open Sys2Proof.Machine

/-! ### The obligations -/

/-- Settles O10: a command that passes STATUS by does not change it, so this one raised its error while ERR was 0. -/
theorem erringCommandChangesOnlyStatus : Obligations.ErringCommandChangesOnlyStatus := by
  intro i s t h hchanged
  rcases exec_cases i s with hpass | hraise
  · obtain ⟨u, hu, herr, hcode⟩ := hpass.exec_eq
    obtain rfl := Host.Outcome.next.inj (h.symm.trans hu)
    exact absurd ⟨herr, hcode⟩ hchanged
  · obtain ⟨code, hu⟩ := hraise.exec_eq
    obtain rfl := Host.Outcome.next.inj (h.symm.trans hu)
    cases he : s.err with
    | true =>
      rw [raiseError_of_err code he] at hchanged
      exact absurd ⟨rfl, rfl⟩ hchanged
    | false =>
      rw [raiseError_of_clear code he]
      exact ⟨rfl, rfl⟩

/-- Settles O11: both runs pass STATUS by, or both raise the same error. -/
theorem errorStatusDoesNotBlock : Obligations.ErrorStatusDoesNotBlock := by
  intro i s e k
  rcases exec_cases i s with ⟨t, hpass⟩ | ⟨code, hraise⟩
  · exact ⟨_, _, hpass s.err s.errCode, hpass e k, rfl⟩
  · refine ⟨_, _, hraise s.err s.errCode, hraise e k, ?_⟩
    rw [raiseError_eq, raiseError_eq]
    rfl

/-- Settles O58: every turn keeps the record. -/
theorem recordedFaultsStay : Obligations.RecordedFaultsStay := fun _ _ _ h hf => turn_faults_subset h hf

/-- Settles O7: the write reaches CMD, whose word is no command, and the step that takes it is that write. -/
theorem illegalWordRaisesErrorOne : Obligations.IllegalWordRaisesErrorOne := by
  intro s w a hrow ha
  have hwrite : ∀ s, hostAWrite a w s = .next (raiseError illegalCommand s) := fun s => by
    rw [hostAWrite_cmd (locOf_eq_cmd_iff.mpr ha), execute_of_no_row hrow]
  obtain ⟨hclear, herr⟩ := next_raiseError_cases (hwrite s)
  refine ⟨hclear, herr, fun rest p hA hP => next_raiseError_cases (s := { s with hostA := rest, hostP := p }) ?_⟩
  rw [step_eq_controlTurn hP, controlTurn_write (s := { s with hostP := p }) hA]
  exact hwrite _

/-- Settles O8: the two cases of ERR. -/
theorem raiseErrorKeepsFirstCode : Obligations.RaiseErrorKeepsFirstCode :=
  fun code _ => ⟨raiseError_of_clear code, raiseError_of_err code⟩

/-- Settles O12: a command that passes STATUS by completes, and so does one that raises an error. -/
theorem everyCommandCompletes : Obligations.EveryCommandCompletes := by
  intro i s
  rcases exec_cases i s with hpass | hraise
  · obtain ⟨t, ht, -⟩ := hpass.exec_eq
    exact ⟨t, ht⟩
  · obtain ⟨code, ht⟩ := hraise.exec_eq
    exact ⟨_, ht⟩

/-- Settles O15: PREPARE accepts no such operands. -/
theorem prepareRefusesBadOperands : Obligations.PrepareRefusesBadOperands := by
  intro s hbad
  refine next_raiseError_cases (exec_prepare_of_refused fun hacc => hbad ?_)
  obtain ⟨hrate, hlo, hhi⟩ := prepareAccepts_iff.mp hacc
  simp only [F32.finitePos, Bool.and_eq_true, decide_eq_true_eq] at hrate
  exact ⟨hrate.1, hrate.2, hlo, hhi⟩

/-- Settles O40: PROCESS accepts no such length, with U = 0 and with U = 1. -/
theorem processRefusesBadLength : Obligations.ProcessRefusesBadLength := by
  intro ch u len s hbad
  refine next_raiseError_cases (exec_process_of_refused fun hacc => ?_)
  have := lengthAccepted_iff.mp hacc
  omega

end Sys2Proof
